-- ==== Sys2Proof/Word.lean ====
section
/-! DEFINITION. The word types of the capture block: the widths of spec/00_scope.md rule R4 and
spec/10_state.md rules R26 to R36. -/

namespace Sys2Proof

/-- An instruction word, one IMEM slot (`INSTR_W` = 16, R4, R90). -/
abbrev Word := BitVec 16

/-- A byte: an entry of OQ, the shift register ISR, a byte of the frame buffer (R33, R35, R64). -/
abbrev Byte := BitVec 8

/-- A counter, PARAM, or an entry of PQ (`CTR_W` = 32, R26, R34, R36). -/
abbrev Count := BitVec 32

/-- A slot index of IMEM (R28, R60). -/
abbrev Slot := BitVec 5

/-- A pin index (`NPINS` = 32, R4, R60). -/
abbrev PinIndex := BitVec 5

end Sys2Proof
end

