-- ==== Sys2Proof/Machine/Moves.lean ====
section
/-! DEFINITION. The arguments and inputs of the machine as plain data: what HOST passes to its calls, what the
sensor does to its pins, and the moves of the five agents (spec/00_scope.md rule R7, spec/42_orchestrator.md
rules R180 to R183, spec/43_sensor_signal_contract.md rule R220). -/

namespace Sys2Proof.Machine

/-- The argument of `init`, before any check (R20): numbers as the caller gives them. -/
structure ConfigRequest where
  vsyncPin : Nat
  hsyncPin : Nat
  pclkPin : Nat
  dataPinBase : Nat
  dataBits : Nat
  width : Nat
  height : Nat
  /-- Outside the block, any or absent (R20). -/
  resetPin : Option Nat
  /-- Outside the block, any or absent (R20). -/
  mclkPin : Option Nat
  /-- The bus handle, opaque (R20). -/
  busHandle : Nat
  /-- The timing-engine handle, opaque: it names the one TPX instance (R20, R75). -/
  engineHandle : Nat
  deriving DecidableEq, Repr, Inhabited

/-- SensorConfig as `init` stores it: the fields with their widths (R20). -/
structure SensorConfig where
  vsyncPin : PinIndex
  hsyncPin : PinIndex
  pclkPin : PinIndex
  dataPinBase : PinIndex
  dataBits : BitVec 4
  width : Nat
  height : Nat
  resetPin : Option Nat
  mclkPin : Option Nat
  busHandle : Nat
  engineHandle : Nat
  deriving DecidableEq, Repr, Inhabited

/-- The two values of ResolvedMode the block reads (R23). -/
structure ResolvedMode where
  ppc : Nat
  borderPx : Nat
  deriving DecidableEq, Repr, Inhabited

/-- A TimingProgram: the instruction words and the wrap range as slot indices (R24). -/
structure TimingProgram where
  prog : List Word
  wrapTarget : Nat
  wrapTop : Nat
  deriving DecidableEq, Repr, Inhabited

/-- How the out-of-scope middle of `init`, step I4, ends (R182, R244). -/
inductive Middle where
  | ok
  | unexpectedModelId
  | resetTimeout
  /-- The bus layer's error, opaque (R253). -/
  | busError (detail : Nat)
  deriving DecidableEq, Repr, Inhabited

/-- The operations of TPX and of the BTE channel, which software that drives the collaborators itself may call
(R103, R258, R288). -/
inductive Collaborator where
  | loadProgram (p : TimingProgram)
  | enable (b : Bool)
  | pushParameter (v : Count)
  /-- `free` says whether the platform has a channel free at this moment (R187). -/
  | claimChannel (free : Bool)
  /-- Destination and byte count; the other arguments are fixed (R38, R188). -/
  | configure (dst count : Nat)
  | start
  | waitForCompletion
  | releaseChannel
  deriving DecidableEq, Repr, Inhabited

/-- A call of HOST (R180). -/
inductive HostCall where
  /-- `init(config)`, with the way its out-of-scope step I4 ends. -/
  | init (req : ConfigRequest) (middle : Middle)
  /-- `read_frame(buffer, length)`; the buffer reference is the host address of `buffer[0]`. -/
  | readFrame (buffer length : Nat)
  | deinit
  | setCoarseIntegration (lines : BitVec 32)
  | collaborator (op : Collaborator)
  deriving DecidableEq, Repr, Inhabited

/-- The three signals SEN drives beside the data lines (R9, R220). -/
inductive Signal where
  | vsync
  | hsync
  | pclk
  deriving DecidableEq, Repr, Inhabited

/-- A step of SEN (R220). -/
inductive SenEvent where
  /-- One signal is set to its active or inactive level. -/
  | drive (sig : Signal) (active : Bool)
  /-- The data pins are set together. -/
  | data (value : Byte)
  /-- The level of pclk becomes unspecified (R221, V5). -/
  | releasePclk
  /-- The levels of the data pins become unspecified (R221, V5). -/
  | releaseData
  /-- SEN stops emitting (R222); no pin changes with it. -/
  | stop
  deriving DecidableEq, Repr, Inhabited

/-- One step of one agent (R7). What the environment answers during an FCO step is part of the move: whether a
BTE channel is free (read at F3, R187) and whether the bus write reaches the sensor (read at F8 and F12, R196). -/
inductive Move where
  | tpx
  | bte
  | fco (channelFree delivered : Bool)
  | sen (e : SenEvent)
  | host (call : HostCall)
  deriving DecidableEq, Repr, Inhabited

end Sys2Proof.Machine
end

