-- ==== Sys2Proof/Config.lean ====
section
/-! DEFINITION. The implementation parameters of spec/00_scope.md rule R4: those of the source as constants, those the
spec decided or left OPEN in the record Params that State carries; and the free values of the model. -/

namespace Sys2Proof

/-- `INSTR_W` (R4, D1): the width of Word. -/
abbrev Config.instrW : Nat := 16

/-- Slots of IMEM, `PROG_MAX` (R4, D2); State's IMEM has this many. -/
abbrev Config.progMax : Nat := 32

/-- Input pins, `NPINS` (R4, D3); State's pins are this many. -/
abbrev Config.nPins : Nat := 32

/-- `NCTR` (R4, D4): Counter has this many constructors. -/
abbrev Config.nCtr : Nat := 2

/-- `CTR_W` (R4, D5): the width of Count. -/
abbrev Config.ctrW : Nat := 32

/-- `IMM_W` (R4, D1): the width of SETC's immediate. -/
abbrev Config.immW : Nat := 11

/-- `ISR_W` (R4, D6): the width of ISR. -/
abbrev Config.isrW : Nat := 8

/-- `BORDER_PX`, the same for every preset and width (R4, R154). -/
abbrev Config.borderPx : Nat := 2

/-- `DATA_WIDTHS` (R4). -/
abbrev Config.dataWidths : List Nat := [1, 4, 8]

/-- `SHIFT_MSB_FIRST` (R4, R66): the first strobe of a byte is its most significant part. -/
abbrev Config.shiftMsbFirst : Bool := true

/-- `LOAD_OFFSET` (R4, R75): programs are loaded at slot 0 and not relocated. -/
abbrev Config.loadOffset : Nat := 0

/-- The length of SYN's program (R157). -/
abbrev Config.synthLength : Nat := 17

/-- The presets D0 names (R4, R151). -/
def Config.defaultPresets : List (Nat × Nat) := [(320, 320), (320, 240), (160, 120)]

/-- The default of `OQ_DEPTH` and of `PQ_DEPTH` (R4, D7). -/
def Config.defaultDepth : Nat := 4

/-- The parameters of R4 that the spec decided or left OPEN, over which a claim may quantify. State carries the record
and no step changes it. -/
structure Params where
  /-- `INSTR_W`. -/
  instrW : Nat
  /-- `PROG_MAX`. -/
  progMax : Nat
  /-- `NPINS`. -/
  nPins : Nat
  /-- `NCTR`. -/
  nCtr : Nat
  /-- `CTR_W`. -/
  ctrW : Nat
  /-- `IMM_W`. -/
  immW : Nat
  /-- `ISR_W`. -/
  isrW : Nat
  /-- `SHIFT_MSB_FIRST`. -/
  shiftMsbFirst : Bool
  /-- `LOAD_OFFSET`. -/
  loadOffset : Nat
  /-- `PRESETS` (R4, U10). -/
  presets : List (Nat × Nat)
  /-- `OQ_DEPTH` in byte entries; the spec admits any value of at least 1. -/
  oqDepth : Nat
  /-- `PQ_DEPTH` in word entries; the spec admits any value of at least 1. -/
  pqDepth : Nat
  /-- `ACTIVE(vsync)`: the level that is active. -/
  activeVsync : Bool
  /-- `ACTIVE(hsync)`. -/
  activeHsync : Bool
  /-- `ACTIVE(pclk)`. -/
  activePclk : Bool
  /-- `STREAM_REG`. -/
  streamReg : BitVec 16
  /-- `STREAM_ON`. -/
  streamOn : Byte
  /-- How far `STREAM_OFF` lies above `STREAM_ON`, less one: the two values differ (R65, D11). -/
  streamGap : Fin 255
  /-- `SENSOR_ADDR7`. -/
  sensorAddr7 : BitVec 7
  deriving DecidableEq, Repr

/-- `STREAM_REG` of the reset configuration. The spec leaves it OPEN (D11), so it is a free value. -/
opaque Config.streamReg : BitVec 16

/-- `STREAM_ON` of the reset configuration, a free value (D11). -/
opaque Config.streamOn : Byte

/-- The place of `STREAM_OFF` of the reset configuration among the values other than `STREAM_ON`, a free value (D11). -/
opaque Config.streamGap : Fin 255

/-- `SENSOR_ADDR7` of the reset configuration, a free value (D11). -/
opaque Config.sensorAddr7 : BitVec 7

/-- The level read at a pin no agent drives, by the number of the move and the pin: any value, drawn afresh at
every read (V4). -/
opaque Config.undrivenLevel : Nat → Nat → Bool

/-- The move the agents take when none is fixed beforehand, by the number of the move: the interleaving is left
open (R7, V15). -/
opaque Config.schedule : Nat → Machine.Move

/-- The configuration after reset: the defaults of R4, and the free values where it gives none. -/
def Config.defaultParams : Params where
  instrW := Config.instrW
  progMax := Config.progMax
  nPins := Config.nPins
  nCtr := Config.nCtr
  ctrW := Config.ctrW
  immW := Config.immW
  isrW := Config.isrW
  shiftMsbFirst := Config.shiftMsbFirst
  loadOffset := Config.loadOffset
  presets := Config.defaultPresets
  oqDepth := Config.defaultDepth
  pqDepth := Config.defaultDepth
  activeVsync := true
  activeHsync := true
  activePclk := true
  streamReg := Config.streamReg
  streamOn := Config.streamOn
  streamGap := Config.streamGap
  sensorAddr7 := Config.sensorAddr7

/-- `STREAM_OFF`, never equal to `STREAM_ON` (R65, D11). -/
def Params.streamOff (p : Params) : Byte := p.streamOn + BitVec.ofNat 8 (p.streamGap.val + 1)

/-- The configurations the rules have a meaning for (R4, log 9): every parameter the spec decided ranges over what the
fields of R91, the bytes of OQ and the words of PQ can hold, its own value being the largest; the shift direction,
LOAD_OFFSET and every depth of at least 1 are free. -/
def Params.admitted (p : Params) : Bool :=
  decide (p.instrW ≤ Config.instrW) && decide (p.progMax ≤ Config.progMax) && decide (p.nPins ≤ Config.nPins) &&
    decide (p.nCtr ≤ Config.nCtr) && decide (p.immW ≤ Config.immW) && decide (p.immW ≤ p.ctrW) &&
    decide (p.ctrW ≤ Config.ctrW) && decide (1 ≤ p.isrW) && decide (p.isrW ≤ Config.isrW) &&
    decide (1 ≤ p.oqDepth) && decide (1 ≤ p.pqDepth)

/-- SYN's program can be loaded on such an executor (R157, R99): its words have the format's 16 bits, it uses both
counters, and its slots exist from LOAD_OFFSET on. At the values of R4 it can; elsewhere `load_program` refuses it, and
`init` fails with that fault (log 9). -/
def Params.runsSynth (p : Params) : Bool :=
  p.instrW == Config.instrW && p.nCtr == Config.nCtr && decide (Config.synthLength + p.loadOffset ≤ p.progMax)

/-- `ACTIVE(sig)`, the level at which a signal is active (R4, D8). -/
def Params.active (p : Params) : Machine.Signal → Bool
  | .vsync => p.activeVsync
  | .hsync => p.activeHsync
  | .pclk => p.activePclk

end Sys2Proof
end

