-- ==== Sys2Proof/Syntax.lean ====
section
/-! DEFINITION. The timing-program instruction set TPI: one constructor of Instr for each row of
spec/opcode_table.json (spec/30_encoding.md rules R91 and R97). -/

namespace Sys2Proof

/-- The counter an instruction selects with its one-bit field `c` (R91): C0 or C1. -/
inductive Counter where
  | c0
  | c1
  deriving DecidableEq, Repr, Inhabited

/-- The value of the counter-select field: 0 for C0, 1 for C1 (R91). -/
def Counter.isC1 : Counter → Bool
  | .c0 => false
  | .c1 => true

/-- The counter a counter-select bit names (R91). -/
def Counter.ofBit : Bool → Counter
  | false => .c0
  | true => .c1

/-- The instructions. SHIN has one constructor for each of its three rows, which differ in `nbits`. -/
inductive Instr where
  /-- WAIT level, pin (R124). -/
  | wait (level : Bool) (pin : PinIndex)
  /-- SHIN base, 1 (R128). -/
  | shin1 (base : PinIndex)
  /-- SHIN base, 4 (R128); legal for base up to 28 (R98). -/
  | shin4 (base : PinIndex)
  /-- SHIN base, 8 (R128); legal for base up to 24 (R98). -/
  | shin8 (base : PinIndex)
  /-- SETC c, #imm (R125). -/
  | setc (c : Counter) (imm : BitVec 11)
  /-- LATCH c (R126). -/
  | latch (c : Counter)
  /-- JNZ c, target (R127). -/
  | jnz (c : Counter) (target : Slot)
  deriving DecidableEq, Repr, Inhabited

end Sys2Proof
end

