-- ==== Sys2Proof/WellFormed.lean ====
section
/-! DEFINITION. Which instruction terms are legal (spec/30_encoding.md rules R95 and R98): a SHIN whose
pins do not all exist is not an instruction; every other term is legal for every operand. -/

namespace Sys2Proof

/-- A SHIN of `nbits` lines from `base` is legal when `base + nbits` is at most 32 (R95, R98). -/
def shinInRange (base : PinIndex) (nbits : Nat) : Bool := base.toNat + nbits ≤ 32

/-- The legal instruction terms (R98). -/
def Instr.wf : Instr → Bool
  | .wait _ _ => true
  | .shin1 base => shinInRange base 1
  | .shin4 base => shinInRange base 4
  | .shin8 base => shinInRange base 8
  | .setc _ _ => true
  | .latch _ => true
  | .jnz _ _ => true

end Sys2Proof
end

