-- ==== Sys2Proof/Decode.lean ====
section
/-! DEFINITION. The decoder and the encoder of TPI (spec/30_encoding.md rules R90, R91, R97, R98), and the words that
are legal under the parameters of spec/00_scope.md rule R4. An instruction is one IMEM slot fetched whole, so there is
no byte order (spec/20_memory.md rule R70). -/

namespace Sys2Proof

/-- Why a word is illegal (R98). -/
inductive DecodeError where
  /-- `op` is 000, 101, 110 or 111. -/
  | badOpcode
  /-- WAIT with any of bits 11:5 set. -/
  | waitReserved
  /-- SHIN with any of bits 12:9 set. -/
  | shinReserved
  /-- SHIN with `nbits` other than 1, 4 and 8. -/
  | shinCount
  /-- SHIN with `base + nbits` above 32. -/
  | shinRange
  /-- LATCH with any of bits 10:0 set. -/
  | latchReserved
  /-- JNZ with any of bits 11:5 set. -/
  | jnzReserved
  deriving DecidableEq, Repr

/-- The major opcode, bits 15:13 (R91). -/
def opField (w : Word) : BitVec 3 := w.extractLsb' 13 3

/-- Bit 12: `level` of WAIT, `c` of SETC, LATCH and JNZ (R91). -/
def bit12 (w : Word) : Bool := w.getLsbD 12

/-- Bits 4:0: `pin` of WAIT, `target` of JNZ (R91, R94). -/
def lowField (w : Word) : BitVec 5 := w.extractLsb' 0 5

/-- Bits 11:5, which WAIT and JNZ reserve (R91). -/
def midField (w : Word) : BitVec 7 := w.extractLsb' 5 7

/-- SHIN's `base`, bits 8:4 (R91). -/
def baseField (w : Word) : PinIndex := w.extractLsb' 4 5

/-- SHIN's `nbits`, bits 3:0: the count itself (R95). -/
def nbitsField (w : Word) : BitVec 4 := w.extractLsb' 0 4

/-- Bits 12:9, which SHIN reserves (R91). -/
def shinReservedField (w : Word) : BitVec 4 := w.extractLsb' 9 4

/-- SETC's `imm`, bits 10:0, which LATCH reserves (R91, R93). -/
def immField (w : Word) : BitVec 11 := w.extractLsb' 0 11

/-- The source bit 11 of the SetCounter opcode: 0 immediate, 1 parameter (R91, R92). -/
def srcBit (w : Word) : Bool := w.getLsbD 11

/-- `op` = 001 (R97). -/
def decodeWait (w : Word) : Except DecodeError Instr :=
  if midField w = 0 then .ok (.wait (bit12 w) (lowField w)) else .error .waitReserved

/-- `op` = 010 (R97): the reserved bits, then the count, then the range. -/
def decodeShin (w : Word) : Except DecodeError Instr :=
  if shinReservedField w ≠ 0 then .error .shinReserved
  else if nbitsField w = 1 then .ok (.shin1 (baseField w))
  else if nbitsField w = 4 then
    if shinInRange (baseField w) 4 then .ok (.shin4 (baseField w)) else .error .shinRange
  else if nbitsField w = 8 then
    if shinInRange (baseField w) 8 then .ok (.shin8 (baseField w)) else .error .shinRange
  else .error .shinCount

/-- `op` = 011 (R92, R97): SETC from the immediate, LATCH from the parameter. -/
def decodeSetCounter (w : Word) : Except DecodeError Instr :=
  if srcBit w = false then .ok (.setc (Counter.ofBit (bit12 w)) (immField w))
  else if immField w = 0 then .ok (.latch (Counter.ofBit (bit12 w)))
  else .error .latchReserved

/-- `op` = 100 (R97). -/
def decodeJnz (w : Word) : Except DecodeError Instr :=
  if midField w = 0 then .ok (.jnz (Counter.ofBit (bit12 w)) (lowField w)) else .error .jnzReserved

/-- The decoder: the instruction of a word, or why the word is illegal (R97, R98). -/
def decode (w : Word) : Except DecodeError Instr :=
  if opField w = 1 then decodeWait w
  else if opField w = 2 then decodeShin w
  else if opField w = 3 then decodeSetCounter w
  else if opField w = 4 then decodeJnz w
  else .error .badOpcode

/-- The decoder on an instruction held as the opcode table numbers it: `nbits` bits of `w`, the bits above
them zero; one slot is read (R90). -/
def decodeTableWord (nbits w : Nat) : Option Instr :=
  (decode (BitVec.ofNat 16 (w % 2 ^ nbits))).toOption

/-- The largest SETC immediate (R93, R155). -/
def Params.immMax (p : Params) : Nat := 2 ^ p.immW - 1

/-- The counter exists: it is one of the `NCTR` (R4, R26). -/
def Counter.fits (p : Params) (c : Counter) : Bool := c.isC1.toNat < p.nCtr

/-- The operands of an instruction are in range: its pins are among the `NPINS`, its target among the `PROG_MAX` slots,
its counter among the `NCTR`, and its immediate has at most `IMM_W` bits (R4, R93 to R95). -/
def Instr.fits (p : Params) : Instr → Bool
  | .wait _ pin => pin.toNat < p.nPins
  | .shin1 base => base.toNat + 1 ≤ p.nPins
  | .shin4 base => base.toNat + 4 ≤ p.nPins
  | .shin8 base => base.toNat + 8 ≤ p.nPins
  | .setc c imm => c.fits p && decide (imm.toNat ≤ p.immMax)
  | .latch c => c.fits p
  | .jnz c target => c.fits p && decide (target.toNat < p.progMax)

/-- The instruction of a word on an executor with these parameters: the word has `INSTR_W` bits, decodes, and its
operands are in range; every other word is illegal there (R97, R98, log 9). At the values of R4 every legal word is
(fits_decided). -/
def Params.instrOf (p : Params) (w : Word) : Option Instr :=
  match decode w with
  | .error _ => none
  | .ok i => if decide (w.toNat < 2 ^ p.instrW) && i.fits p then some i else none

/-- The word of an instruction, laid out field by field as the format table of R91 has it. -/
def encode : Instr → Word
  | .wait level pin => 1#3 ++ BitVec.ofBool level ++ 0#7 ++ pin
  | .shin1 base => 2#3 ++ 0#4 ++ base ++ 1#4
  | .shin4 base => 2#3 ++ 0#4 ++ base ++ 4#4
  | .shin8 base => 2#3 ++ 0#4 ++ base ++ 8#4
  | .setc c imm => 3#3 ++ BitVec.ofBool c.isC1 ++ 0#1 ++ imm
  | .latch c => 3#3 ++ BitVec.ofBool c.isC1 ++ 1#1 ++ 0#11
  | .jnz c target => 4#3 ++ BitVec.ofBool c.isC1 ++ 0#7 ++ target

end Sys2Proof
end

