-- ==== Sys2Proof/Machine/State.lean ====
section
/-! DEFINITION. The state of the capture block (spec/10_state.md rules R20 to R44), its fault taxonomy
(spec/60_exceptions.md rules R240 to R253) and the state at power-on (spec/70_reset_and_hazards.md rule R271). -/

namespace Sys2Proof.Machine

/-- Where the driver instance stands (R25). -/
inductive Life where
  | uninit
  | ready
  | failed
  | released
  deriving DecidableEq, Repr, Inhabited

/-- `PHASE`, FCO's position in `read_frame` (R39, R183). F1 carries the arguments of the call it is about to
check (log 18). -/
inductive Phase where
  | idle
  | f1 (buffer length : Nat)
  | f2
  | f3
  | f4
  | f5
  | f6
  | f7
  | f8
  | f9
  | f10
  | f11
  | f12
  deriving DecidableEq, Repr, Inhabited

/-- BTE's trigger (R38, R188): the queue's data-available condition is the only one. -/
inductive Trigger where
  | oqNotEmpty
  deriving DecidableEq, Repr, Inhabited

/-- Where SEN stands in the waveform of R221 to R224. -/
inductive SenPos where
  /-- No frame in progress: vsync and hsync inactive (R221). -/
  | rest
  /-- Inside a frame, between two lines, with `lines` lines of the frame over. -/
  | frame (lines : Nat)
  /-- Inside hsync active, with `lines` lines over and `strobes` strobes of this line over. -/
  | line (lines strobes : Nat)
  /-- SEN has stopped emitting and still has vsync or hsync to bring to its inactive level (R221, R222). -/
  | stopping
  /-- An event broke the contract. -/
  | broken
  deriving DecidableEq, Repr, Inhabited

/-- A two-wire bus transaction of FCO (R42, R196): a write of bytes to a 7-bit address. -/
inductive BusTransaction where
  | write (addr7 : BitVec 7) (bytes : List Byte)
  deriving DecidableEq, Repr

/-- The errors `init` returns (R241 to R244). -/
inductive InitError where
  | unsupportedResolution
  | unsupportedBitDepth
  | unexpectedModelId
  | resetTimeout
  /-- With the collaborator's error, opaque. -/
  | busError (detail : Nat)
  deriving DecidableEq, Repr

/-- The pin fields of SensorConfig that SYN reads (R20, R246). -/
inductive PinField where
  | vsyncPin
  | hsyncPin
  | pclkPin
  | dataPinBase
  deriving DecidableEq, Repr

/-- The inputs SYN refuses with BadSynthInput (R155, R246). -/
inductive SynthField where
  | dataBits
  | borderPx
  deriving DecidableEq, Repr

/-- The faults. All but the last are the faults of R245 to R251: raising one RECORDS it in `State.faults`, the
faulting step has no other effect (R256) and the machine answers next. Recording instead of stopping is safe: every
claim about a successful run asks for an empty record. Only the last is answered as an outcome that stops the machine. -/
inductive Fault where
  /-- Raised by `read_frame` F1 (R245). Safe: nothing happened. -/
  | lengthMismatch (given expected : Nat)
  /-- Raised by `read_frame` F1 (R251). Safe: nothing happened. -/
  | notReady (life : Life)
  /-- Raised by `init` I3 and by SYN (R246). Safe: the request is refused. -/
  | badPin (field : PinField) (value : Nat)
  /-- Raised by SYN (R246). Safe: the request is refused. -/
  | badSynthInput (field : SynthField)
  /-- Raised by `load_program` (R247), with the lowest offending slot and its word, or none when the length or the
  wrap range offends. Safe: TPX is unchanged. -/
  | illegalProgram (offence : Option (Nat × Word))
  /-- Raised by `load_program` (R250). Safe: TPX is unchanged. -/
  | loadWhileEnabled
  /-- Raised by `enable` (R250). Safe: TPX is unchanged. -/
  | notLoaded
  /-- Raised by a TPX step at JNZ (R248). Safe: no value is substituted. -/
  | unwrittenCounter (pc : Slot) (c : Counter)
  /-- Raised by a TPX step at fetch (R249). Safe. -/
  | illegalInstruction (pc : Slot) (word : Word)
  /-- Raised by a TPX step at fetch (R249). Safe. -/
  | fetchUnloaded (pc : Slot)
  /-- Answered as an OUTCOME by a BTE step that would write a byte index at or beyond the transfer's count, an
  address FB does not have (R60, R64). Safe: it stops a run no reachable state has (log 11). -/
  | outsideFrameBuffer (index count : Nat)
  deriving DecidableEq, Repr

/-- What a failing `init` returns: an InitError, or a fault reported as init failure (R253). -/
inductive InitFailure where
  | error (e : InitError)
  | fault (f : Fault)
  deriving DecidableEq, Repr

/-- What an operation returned to HOST (R180, R256). -/
inductive HostReturn where
  | initOk
  | initFailed (why : InitFailure)
  | readFrame
  | deinit
  | setCoarseIntegration
  | collaborator
  deriving DecidableEq, Repr

/-- Why a step has no meaning. -/
inductive Refusal where
  /-- Raised by exec for an instruction without a meaning; no arm does so. Safe. -/
  | notModelled (mnemonic : String)
  /-- Raised by a HOST call while another operation runs: two overlapping operations have no meaning (R181, U6,
  U7). Safe: nothing can be proved of such a run. -/
  | overlappingOperation
  /-- Raised by `init` on an instance that is READY or FAILED: SYN runs once per instance and after an error the
  instance is dead (R20, R159, R257, log 14). Safe: nothing can be proved of such a run. -/
  | instanceUsed
  /-- Raised by every step under parameters outside the ranges of Params.admitted (R4, log 9). Safe. -/
  | parametersNotAdmitted
  /-- Raised by an FCO phase in a state that has no driver instance, or by F1 when the instance is READY but has no
  configuration; no run reaches such a state (log 22). Safe. -/
  | noSession
  deriving DecidableEq, Repr

/-- The three records `init` makes and `deinit` discards (R20, R23, R24). -/
structure Session where
  config : SensorConfig
  mode : ResolvedMode
  held : TimingProgram
  deriving DecidableEq, Repr

/-- Frame-buffer memory: the bytes written so far by host address, addresses strictly rising. -/
abbrev Memory := List Host.Cell

/-- The state of the machine. -/
structure State where
  /-- The decided and OPEN parameters (R4); no step changes them. -/
  params : Params
  /-- Counter C0; `none` when nothing has written it since the last load (R26, R27). -/
  c0 : Option Count
  /-- Counter C1 (R26, R27). -/
  c1 : Option Count
  /-- The program counter (R28). -/
  pc : Slot
  /-- `EN` (R29). -/
  en : Bool
  /-- `LOADED` (R32). -/
  loaded : Bool
  /-- The executor's copy of wrap_target (R30). -/
  wrapTarget : Slot
  /-- The executor's copy of wrap_top (R30). -/
  wrapTop : Slot
  /-- `IMEM`: each slot a word, or `none` for unloaded (R31). -/
  imem : Vector (Option Word) 32
  /-- `ISR` (R33). -/
  isr : Byte
  /-- `ISRCNT` (R33). -/
  isrcnt : BitVec 4
  /-- `PARAM` (R34). -/
  param : Option Count
  /-- `OQ`, head first (R35). -/
  oq : List Byte
  /-- `PQ`, head first (R36). -/
  pq : List Count
  /-- BTE `CLAIMED` (R38). -/
  claimed : Bool
  /-- BTE `ACTIVE` (R38). -/
  active : Bool
  /-- BTE `DONE` (R38). -/
  done : Bool
  /-- BTE `DST`, a byte index into the frame buffer (R38). -/
  dst : Nat
  /-- BTE `REMAIN` (R38). -/
  remain : Nat
  /-- The destination of the last `configure`, as a host address (the model's own, log 12). -/
  dstBase : Nat
  /-- The byte count of the last `configure` (the model's own, log 12). -/
  count : Nat
  /-- The bytes the present transfer has moved, in order (the model's own record, log 40). -/
  moved : List Byte
  /-- BTE's fixed configuration, `src_increment` (R38). -/
  srcIncrement : Bool
  /-- BTE's fixed configuration, `dst_increment` (R38). -/
  dstIncrement : Bool
  /-- BTE's fixed configuration, `trigger` (R38). -/
  trigger : Trigger
  /-- `PHASE` (R39). -/
  phase : Phase
  /-- `BUF` (R39). -/
  buf : Nat
  /-- `LEN` (R39). -/
  len : Nat
  /-- `life` (R25). -/
  life : Life
  /-- SensorConfig, ResolvedMode and the held TimingProgram, absent before `init` and after `deinit`. -/
  session : Option Session
  /-- SEN `STREAMING` (R40). -/
  streaming : Bool
  /-- The pin levels; `none` for a pin no agent drives (R41, V4). -/
  pins : Vector (Option Bool) 32
  /-- SEN's position in its waveform (R40, R223). -/
  senPos : SenPos
  /-- The live chunks SEN has put on the data pins, one list a frame, newest frame first (R226). -/
  senFrames : List (List Byte)
  /-- The frame buffers' bytes (R64). -/
  mem : Memory
  /-- A TPX or BTE operation of HOST's own that holds (R187, R193, R197, R240); `none` when none does (the model's own
  field, log 38). -/
  pending : Option Collaborator
  /-- `BUSLOG` (R42). -/
  busLog : List BusTransaction
  /-- What the last completed operation returned to HOST (R256). -/
  returned : Option HostReturn
  /-- The faults recorded so far (R240, R256). -/
  faults : List Fault
  /-- The moves already fixed; when empty, the next move is free (log 1). -/
  agenda : List Move
  /-- How many moves were taken; the index of the free values (log 1, log 7). -/
  tick : Nat
  deriving DecidableEq, Repr

/-- The state at power-on (R271); what R271 leaves unspecified has the value of log 4 to log 7. -/
def State.reset : State where
  params := Config.defaultParams
  c0 := none
  c1 := none
  pc := 0
  en := false
  loaded := false
  wrapTarget := 0
  wrapTop := 0
  imem := Vector.replicate 32 none
  isr := 0
  isrcnt := 0
  param := none
  oq := []
  pq := []
  claimed := false
  active := false
  done := false
  dst := 0
  remain := 0
  dstBase := 0
  count := 0
  moved := []
  srcIncrement := false
  dstIncrement := true
  trigger := .oqNotEmpty
  phase := .idle
  buf := 0
  len := 0
  life := .uninit
  session := none
  streaming := false
  pins := Vector.replicate 32 none
  senPos := .rest
  senFrames := []
  mem := []
  pending := none
  busLog := []
  returned := none
  faults := []
  agenda := []
  tick := 0

end Sys2Proof.Machine
end

