-- ==== Sys2Proof/Machine/Flags.lean ====
section
/-! DEFINITION. The block has no flags, condition codes or predicates (spec/10_state.md rule R37). What this file
holds are the conditions the steps test: queue full and empty (spec/00_scope.md rule R6), byte complete (R128),
counter non-zero (R127), executor runnable (R120). -/

namespace Sys2Proof.Machine

/-- `full(OQ)` (R6, R35). -/
def State.oqFull (s : State) : Bool := s.params.oqDepth ≤ s.oq.length

/-- `full(PQ)` (R6, R36). -/
def State.pqFull (s : State) : Bool := s.params.pqDepth ≤ s.pq.length

/-- A SHIN of `nbits` fills the ISR_W bits of ISR, so that a byte is complete (R128), over the naturals. -/
def State.byteDue (s : State) (nbits : Nat) : Bool := s.params.isrW ≤ s.isrcnt.toNat + nbits

/-- A SHIN of `nbits` holds: it would push and OQ is full (R123, R128). -/
def State.shinHeld (s : State) (nbits : Nat) : Bool := s.byteDue nbits && s.oqFull

/-- JNZ's test, on the counter already decremented (R127). -/
def jumpTaken (decremented : Count) : Bool := decremented ≠ 0

/-- TPX has a step: `LOADED` = 1 and `EN` = 1 (R120). -/
def State.tpxRuns (s : State) : Bool := s.loaded && s.en

/-- BTE has a step: `ACTIVE` = 1, `REMAIN` > 0 and OQ not empty (R200). After a claim, a configure and a start of
HOST's own before any load it reads the OQ that R271 leaves unspecified, finds it empty and has none: the model's
choice (log 4, log 39). -/
def State.bteRuns (s : State) : Bool := s.active && decide (0 < s.remain) && !s.oq.isEmpty

end Sys2Proof.Machine
end

