-- ==== Sys2Proof/Machine/Operands.lean ====
section
/-! DEFINITION. The operand forms of the timing-program instructions: pin levels, samples, counters and immediates
(spec/30_encoding.md rules R93 to R96, spec/20_memory.md rules R62 and R67). -/

namespace Sys2Proof.Machine

/-- The level a read of pin `p` returns: the driven level, or a free value where no agent drives the pin (R62, V4).
`tick` differs at every step, so the free value is drawn afresh at every read. -/
def State.pinLevel (s : State) (p : Nat) : Bool :=
  match s.pins[p]? with
  | some (some level) => level
  | _ => Config.undrivenLevel s.tick p

/-- The sample of `n` data lines from pin `base`, line `i` supplying bit `i` (R67, R128). -/
def State.sample (s : State) (base : Nat) : Nat → Nat
  | 0 => 0
  | n + 1 => s.sample base n + (s.pinLevel (base + n)).toNat * 2 ^ n

/-- `C[c]` (R6, R26). -/
def State.counter (s : State) : Counter → Option Count
  | .c0 => s.c0
  | .c1 => s.c1

/-- `C[c] <- v` (R6, R27). -/
def State.setCounter (s : State) (c : Counter) (v : Count) : State :=
  match c with
  | .c0 => { s with c0 := some v }
  | .c1 => { s with c1 := some v }

/-- A number as a counter, PARAM or an entry of PQ holds it: its low `CTR_W` bits (R26, R34, R36, R129). -/
def narrow (p : Params) (n : Nat) : Count := BitVec.ofNat 32 (n % 2 ^ p.ctrW)

/-- SETC's immediate, zero-extended to a counter's width (R93). -/
def immediate (p : Params) (imm : BitVec 11) : Count := narrow p imm.toNat

/-- `(v - 1) mod 2^CTR_W` (R127, R129). -/
def decremented (p : Params) (v : Count) : Count := narrow p (v.toNat + (2 ^ p.ctrW - 1))

end Sys2Proof.Machine
end

