-- ==== Sys2Proof/Machine/Ops.lean ====
section
/-! DEFINITION. The shared operations of the executor: raising a fault, fetching, the successor of the program
counter, loading a program, and the three interface operations (spec/40_timing_instructions.md rules R120 to R122,
spec/42_orchestrator.md rules R186, R191 and R193, spec/60_exceptions.md rule R256). -/

namespace Sys2Proof.Machine

/-- A fault is raised: it is recorded for the whole run, and nothing else changes (R240, R256). A fault already in the
record is not listed twice. There is no vector, no saved state and no return (R257). -/
def State.raise (s : State) (f : Fault) : State :=
  if f ∈ s.faults then s else { s with faults := s.faults ++ [f] }

/-- The successor of `pc` (R122): the wrap, or the next slot mod 32. -/
def State.nextPc (s : State) : Slot :=
  if s.pc = s.wrapTop then s.wrapTarget else s.pc + 1

/-- `pc <- next(pc)` (R122). -/
def State.advance (s : State) : State := { s with pc := s.nextPc }

/-- The slot `pc` names (R121); `none` is unloaded. -/
def State.slot (s : State) : Option Word := s.imem[s.pc.toNat]'(s.pc.isLt)

/-- Fetch and decode (R121). -/
def State.fetch (s : State) : Except Fault Instr :=
  match s.slot with
  | none => .error (.fetchUnloaded s.pc)
  | some w =>
    match s.params.instrOf w with
    | none => .error (.illegalInstruction s.pc w)
    | some i => .ok i

/-- A word stands in a program of length `len`: it is legal, and its JNZ target is below `len` (R99). -/
def wordAllowed (q : Params) (len : Nat) (w : Word) : Bool :=
  match q.instrOf w with
  | none => false
  | some (.jnz _ target) => target.toNat < len
  | some _ => true

/-- The lowest slot, counted from `at`, whose word R99 does not allow. -/
def firstOffence (q : Params) (len : Nat) : Nat → List Word → Option (Nat × Word)
  | _, [] => none
  | at', w :: rest => if wordAllowed q len w then firstOffence q len (at' + 1) rest else some (at', w)

/-- The checks of R99 in the order of R255: the lowest offending slot, else the length, with room in the `PROG_MAX` slots
from `LOAD_OFFSET` on, and the wrap range. -/
def TimingProgram.offence (q : Params) (p : TimingProgram) : Option Fault :=
  match firstOffence q p.prog.length 0 p.prog with
  | some o => some (.illegalProgram (some o))
  | none =>
    if 1 ≤ p.prog.length ∧ p.prog.length + q.loadOffset ≤ q.progMax ∧ p.wrapTarget ≤ p.wrapTop ∧
        p.wrapTop < p.prog.length
    then none else some (.illegalProgram none)

/-- IMEM after a load at slot `offset`: the L words from there on, the rest unloaded (R31, R75, R186). Nothing is
relocated. -/
def TimingProgram.image (offset : Nat) (p : TimingProgram) : Vector (Option Word) 32 :=
  Vector.ofFn fun i => if offset ≤ i.val then p.prog[i.val - offset]? else none

/-- What a load does to TPX, once it is allowed (R186). -/
def State.install (s : State) (p : TimingProgram) : State :=
  { s with
    imem := p.image s.params.loadOffset
    wrapTarget := BitVec.ofNat 5 p.wrapTarget
    wrapTop := BitVec.ofNat 5 p.wrapTop
    pc := BitVec.ofNat 5 s.params.loadOffset
    c0 := none
    c1 := none
    isr := 0
    isrcnt := 0
    oq := []
    pq := []
    param := none
    loaded := true }

/-- `load_program` (R186): refused while enabled, refused when not well formed, else installed. -/
def State.loadProgram (s : State) (p : TimingProgram) : Except Fault State :=
  if s.en then .error .loadWhileEnabled
  else
    match p.offence s.params with
    | some f => .error f
    | none => .ok (s.install p)

/-- `enable(handle, b)` (R191): writes EN and nothing else; enabling needs a loaded program. -/
def State.enable (s : State) (b : Bool) : Except Fault State :=
  if b && !s.loaded then .error .notLoaded else .ok { s with en := b }

/-- `push_parameter(handle, v)` (R193): holds, leaving the state as it is, while PQ is full; the value enters with the
width of a counter. -/
def State.pushParameter (s : State) (v : Count) : Option State :=
  if s.pqFull then none else some { s with pq := s.pq ++ [narrow s.params v.toNat] }

end Sys2Proof.Machine
end

