-- ==== Sys2Proof/Machine/Shift.lean ====
section
/-! DEFINITION. The meanings of SHIN at its three bit counts (spec/40_timing_instructions.md rule R128), one
operation over the count. -/

namespace Sys2Proof.Machine

/-- ISR after `nbits` new bits. With SHIFT_MSB_FIRST they enter at the low end and what passes the top is discarded
(R66, R128, R129); without it they enter above ISR and everything moves down, what passes the low end being discarded,
so that the first strobe is the least significant part (log 9). ISR has ISR_W bits. -/
def State.shifted (s : State) (base nbits : Nat) : Byte :=
  BitVec.ofNat 8
    ((if s.params.shiftMsbFirst then s.isr.toNat * 2 ^ nbits + s.sample base nbits
      else (s.isr.toNat + s.sample base nbits * 2 ^ s.params.isrW) / 2 ^ nbits) % 2 ^ s.params.isrW)

/-- The shift of R128 when it does not hold: a complete byte goes to OQ and clears ISR and ISRCNT. -/
def State.shiftIn (s : State) (base nbits : Nat) : State :=
  if s.byteDue nbits then
    { s with oq := s.oq ++ [s.shifted base nbits], isr := 0, isrcnt := 0 }
  else
    { s with isr := s.shifted base nbits, isrcnt := BitVec.ofNat 4 (s.isrcnt.toNat + nbits) }

/-- SHIN of `nbits` lines from `base` (R128), `i` being the instruction itself. The hold test comes first. A term whose
pins do not all exist is an illegal instruction (R95, R98) and takes the fault of R249. -/
def State.shin (s : State) (i : Instr) (base : PinIndex) (nbits : Nat) : State :=
  if shinInRange base nbits then
    if s.shinHeld nbits then s else (s.shiftIn base.toNat nbits).advance
  else s.raise (.illegalInstruction s.pc (encode i))

/-- SHIN base, 1. -/
def execShin1 (base : PinIndex) (s : State) : Host.Outcome State Fault Refusal :=
  .next (s.shin (.shin1 base) base 1)

/-- SHIN base, 4. -/
def execShin4 (base : PinIndex) (s : State) : Host.Outcome State Fault Refusal :=
  .next (s.shin (.shin4 base) base 4)

/-- SHIN base, 8. -/
def execShin8 (base : PinIndex) (s : State) : Host.Outcome State Fault Refusal :=
  .next (s.shin (.shin8 base) base 8)

end Sys2Proof.Machine
end

