-- ==== Sys2Proof/Machine/Timing.lean ====
section
/-! DEFINITION. The meanings of WAIT, SETC, LATCH and JNZ (spec/40_timing_instructions.md rules R124 to R127). A hold
leaves the state as it is (R123). -/

namespace Sys2Proof.Machine

/-- WAIT level, pin (R124): level-sensitive; holds while the pin is at the other level. -/
def execWait (level : Bool) (pin : PinIndex) (s : State) : Host.Outcome State Fault Refusal :=
  .next (if s.pinLevel pin.toNat = level then s.advance else s)

/-- SETC c, #imm (R125). -/
def execSetc (c : Counter) (imm : BitVec 11) (s : State) : Host.Outcome State Fault Refusal :=
  .next (s.setCounter c (immediate s.params imm)).advance

/-- The queue step of LATCH (R126): a queued word, if there is one, becomes PARAM. -/
def State.latchParameter (s : State) : State :=
  match s.pq with
  | [] => s
  | v :: rest => { s with param := some v, pq := rest }

/-- The copy step of LATCH (R126): PARAM goes to the counter and stays; with no parameter nothing changes, the
queue having been empty. -/
def State.latchCopy (s : State) (c : Counter) : State :=
  match s.param with
  | none => s
  | some v => (s.setCounter c v).advance

/-- LATCH c (R126). -/
def execLatch (c : Counter) (s : State) : Host.Outcome State Fault Refusal :=
  .next (s.latchParameter.latchCopy c)

/-- The count and the jump of JNZ (R127): decrement first, test second. -/
def State.countDown (s : State) (c : Counter) (target : Slot) (v : Count) : State :=
  let t := s.setCounter c (decremented s.params v)
  if jumpTaken (decremented s.params v) then { t with pc := target } else t.advance

/-- JNZ c, target (R127): a counter that holds `none` raises UnwrittenCounter (R248). -/
def execJnz (c : Counter) (target : Slot) (s : State) : Host.Outcome State Fault Refusal :=
  .next
    (match s.counter c with
    | none => s.raise (.unwrittenCounter s.pc c)
    | some v => s.countDown c target v)

end Sys2Proof.Machine
end

