-- ==== Sys2Proof/Machine/Dispatch.lean ====
section
/-! DEFINITION. exec: one arm per constructor of Instr. -/

namespace Sys2Proof.Machine

def exec (i : Instr) (s : State) : Host.Outcome State Fault Refusal :=
  match i with
  | .wait level pin => Sys2Proof.Machine.execWait level pin s
  | .shin1 base => Sys2Proof.Machine.execShin1 base s
  | .shin4 base => Sys2Proof.Machine.execShin4 base s
  | .shin8 base => Sys2Proof.Machine.execShin8 base s
  | .setc c imm => Sys2Proof.Machine.execSetc c imm s
  | .latch c => Sys2Proof.Machine.execLatch c s
  | .jnz c target => Sys2Proof.Machine.execJnz c target s

end Sys2Proof.Machine
end

