-- ==== Sys2Proof/Machine/Sensor.lean ====
section
/-! DEFINITION. The sensor SEN as an environment agent (spec/43_sensor_signal_contract.md rules R220 to R227). Any
event may happen; what it does to the pins is one thing, and whether it keeps the waveform contract is another, which
the position `senPos` records. -/

namespace Sys2Proof.Machine

/-- The pin of a signal (R20). -/
def SensorConfig.pin (c : SensorConfig) : Signal → PinIndex
  | .vsync => c.vsyncPin
  | .hsync => c.hsyncPin
  | .pclk => c.pclkPin

/-- Pin `j` is a data line: D`i` is pin `data_pin_base + i` (R21). -/
def SensorConfig.isDataPin (c : SensorConfig) (j : Nat) : Bool :=
  c.dataPinBase.toNat ≤ j && j < c.dataPinBase.toNat + c.dataBits.toNat

/-- The level of a signal when it is active, or inactive (R9, R156). -/
def signalLevel (p : Params) (sig : Signal) (active : Bool) : Bool :=
  if active then p.active sig else !(p.active sig)

/-- The pins after a signal is driven (R220). -/
def drivenPins (p : Params) (c : SensorConfig) (sig : Signal) (active : Bool) (pins : Vector (Option Bool) 32) :
    Vector (Option Bool) 32 :=
  pins.set (c.pin sig).toNat (some (signalLevel p sig active)) (c.pin sig).isLt

/-- The pins after the data pins are driven together, bit `i` of the value on line D`i` (R67, R220). -/
def dataPins (c : SensorConfig) (value : Byte) (pins : Vector (Option Bool) 32) : Vector (Option Bool) 32 :=
  Vector.ofFn fun j => if c.isDataPin j then some (value.getLsbD (j - c.dataPinBase.toNat)) else pins[j]

/-- The pins after the data pins are released together (R221, V5). -/
def dataRelease (c : SensorConfig) (pins : Vector (Option Bool) 32) : Vector (Option Bool) 32 :=
  Vector.ofFn fun j => if c.isDataPin j then none else pins[j]

/-- The pins of the idle sensor `init` leaves (R221, V5): vsync and hsync inactive, every other pin driven by nobody. -/
def idlePins (p : Params) (c : SensorConfig) : Vector (Option Bool) 32 :=
  drivenPins p c .vsync false (drivenPins p c .hsync false (Vector.replicate 32 none))

/-- A signal is driven to its active (inactive) level. -/
def State.signalIs (s : State) (c : SensorConfig) (sig : Signal) (active : Bool) : Bool :=
  s.pins[(c.pin sig).toNat]'((c.pin sig).isLt) = some (signalLevel s.params sig active)

/-- Every data line is driven. -/
def State.dataDriven (s : State) (c : SensorConfig) : Bool :=
  (List.range c.dataBits.toNat).all fun i => (s.pins[c.dataPinBase.toNat + i]?.join).isSome

/-- Line `n` of a frame carries live pixels: it comes after the border lines and before the tail (R223). -/
def Session.liveLine (d : Session) (n : Nat) : Bool :=
  d.mode.borderPx ≤ n && n < d.mode.borderPx + d.config.height

/-- Strobe `k` of a live line carries a live pixel's chunk (R223). -/
def Session.liveStrobe (d : Session) (k : Nat) : Bool :=
  d.mode.borderPx * d.mode.ppc ≤ k && k < (d.mode.borderPx + d.config.width) * d.mode.ppc

/-- Line `n` may end after `k` strobes (R223, R227): a live line has all its border and live strobes. -/
def Session.lineMayEnd (d : Session) (n k : Nat) : Bool :=
  !(d.liveLine n) || (d.mode.borderPx + d.config.width) * d.mode.ppc ≤ k

/-- vsync and hsync are at their inactive levels, as an idle sensor holds them (R221). -/
def State.syncsInactive (s : State) (c : SensorConfig) : Bool :=
  s.signalIs c .vsync false && s.signalIs c .hsync false

/-- The position after vsync is driven (R222, R223, R233): its I->A change begins a frame, and only an enabled sensor
begins one, with the lines of the one before over; going inactive is allowed at any time. -/
def State.afterVsync (s : State) (d : Session) (active : Bool) : SenPos :=
  match s.senPos with
  | .rest =>
    if active then (if s.signalIs d.config .vsync false && s.streaming then .frame 0 else .broken) else .rest
  | .frame n =>
    if active && !s.signalIs d.config .vsync true then
      (if s.signalIs d.config .vsync false && s.streaming && decide (d.mode.borderPx + d.config.height ≤ n) then .frame 0
        else .broken)
    else .frame n
  | .line n k => if active && !s.signalIs d.config .vsync true then .broken else .line n k
  | .stopping =>
    if active then (if s.signalIs d.config .vsync true then .stopping else .broken)
    else if s.signalIs d.config .hsync false then .rest else .stopping
  | .broken => .broken

/-- Driving hsync is an I->A or A->I change, and pclk is not at its inactive level, as R224 asks of every one. -/
def State.hsyncOverPclk (s : State) (c : SensorConfig) (active : Bool) : Bool :=
  s.signalIs c .hsync (!active) && !s.signalIs c .pclk false

/-- The position after hsync is driven, as far as the lines of the frame tell (R223, R227): a line begins with the I->A
change, and a live line ends with all its strobes. -/
def State.hsyncPos (s : State) (d : Session) (active : Bool) : SenPos :=
  match s.senPos with
  | .rest => if active then .broken else .rest
  | .frame n =>
    if active then (if s.signalIs d.config .hsync false then .line n 0 else .broken) else .frame n
  | .line n k =>
    if active then .line n k
    else if s.signalIs d.config .pclk false && d.lineMayEnd n k then .frame (n + 1) else .broken
  | .stopping =>
    if active then (if s.signalIs d.config .hsync true then .stopping else .broken)
    else if s.signalIs d.config .vsync false then .rest else .stopping
  | .broken => .broken

/-- The position after hsync is driven (R223, R224, R227): pclk is inactive at every change of hsync, at one in a line cut
by a stop too. -/
def State.afterHsync (s : State) (d : Session) (active : Bool) : SenPos :=
  if s.hsyncOverPclk d.config active then .broken else s.hsyncPos d active

/-- The position after pclk is driven (R223, R225): a strobe of a line begins with the data driven and counts when it
ends; outside a line pclk may run (R233). -/
def State.afterPclk (s : State) (d : Session) (active : Bool) : SenPos :=
  match s.senPos with
  | .line n k =>
    if active then (if s.dataDriven d.config then .line n k else .broken)
    else if s.signalIs d.config .pclk true then .line n (k + 1) else .line n k
  | p => p

/-- The position after pclk is released: inside a line it has a level at every moment (R223). -/
def State.afterPclkRelease (s : State) : SenPos :=
  match s.senPos with
  | .line _ _ => .broken
  | p => p

/-- The position after the data pins are driven or released (R225): inside a line they hold while pclk is active. In a
strobe cut by a stop they may change or be released at once, and so may pclk: the model's choice (log 42). -/
def State.afterData (s : State) (d : Session) : SenPos :=
  match s.senPos with
  | .line n k => if s.signalIs d.config .pclk false then .line n k else .broken
  | p => p

/-- The position after SEN stops emitting (R221, R222): only after a streaming-disable write, at once or later; the
syncs that are active then follow one by one. -/
def State.afterStop (s : State) (d : Session) : SenPos :=
  if s.streaming then .broken
  else
    match s.senPos with
    | .broken => .broken
    | _ => if s.syncsInactive d.config then .rest else .stopping

/-- The pins after an event. -/
def State.pinsAfter (s : State) (d : Session) : SenEvent → Vector (Option Bool) 32
  | .drive sig active => drivenPins s.params d.config sig active s.pins
  | .data value => dataPins d.config value s.pins
  | .releasePclk => s.pins.set d.config.pclkPin.toNat none d.config.pclkPin.isLt
  | .releaseData => dataRelease d.config s.pins
  | .stop => s.pins

/-- The signal an event is about; `none` for the data pins. -/
def SenEvent.signal : SenEvent → Option Signal
  | .drive sig _ => some sig
  | .releasePclk => some .pclk
  | _ => none

/-- Pin `j` has a role beside the one the event is about: it is another signal's, or a data line of a signal's event
(R22). -/
def SensorConfig.otherRole (c : SensorConfig) (e : SenEvent) (j : Nat) : Bool :=
  ([Signal.vsync, .hsync, .pclk].any fun sig => decide (e.signal ≠ some sig) && (c.pin sig).toNat == j) ||
    (e.signal.isSome && c.isDataPin j)

/-- The event changes a pin that has another role too. The grammar of R223 never changes two lines at once, so a
configuration whose pins coincide cannot keep it (R22). -/
def State.movesAnotherLine (s : State) (d : Session) (e : SenEvent) : Bool :=
  (List.range 32).any fun j => d.config.otherRole e j && decide ((s.pinsAfter d e)[j]? ≠ s.pins[j]?)

/-- The position after an event, as far as the event's own line tells. -/
def State.lineAfter (s : State) (d : Session) : SenEvent → SenPos
  | .drive .vsync active => s.afterVsync d active
  | .drive .hsync active => s.afterHsync d active
  | .drive .pclk active => s.afterPclk d active
  | .data _ => s.afterData d
  | .releasePclk => s.afterPclkRelease
  | .releaseData => s.afterData d
  | .stop => s.afterStop d

/-- The position after an event. -/
def State.senPosAfter (s : State) (d : Session) (e : SenEvent) : SenPos :=
  if s.movesAnotherLine d e then .broken else s.lineAfter d e

/-- A frame begins with this event: the vsync I->A change, where the contract allows it. -/
def State.beginsFrame (s : State) (d : Session) : SenEvent → Bool
  | .drive .vsync true => s.signalIs d.config .vsync false && decide (s.senPosAfter d (.drive .vsync true) = .frame 0)
  | _ => false

/-- A live chunk is put on the data pins with this event: the pclk I->A change at a live strobe of a live line, where the
contract allows it (R226). -/
def State.showsChunk (s : State) (d : Session) : SenEvent → Bool
  | .drive .pclk true =>
    match s.senPosAfter d (.drive .pclk true) with
    | .line n k => d.liveLine n && d.liveStrobe k && s.signalIs d.config .pclk false
    | _ => false
  | _ => false

/-- `chunk(r, c, k)` of the present strobe: the value on the data pins (R226). -/
def State.presentChunk (s : State) (d : Session) : Byte :=
  BitVec.ofNat 8 (s.sample d.config.dataPinBase.toNat d.config.dataBits.toNat)

/-- A chunk is added to the frame in progress. -/
def addChunk (b : Byte) : List (List Byte) → List (List Byte)
  | [] => [[b]]
  | f :: rest => (f ++ [b]) :: rest

/-- The record of live chunks after an event. -/
def State.senFramesAfter (s : State) (d : Session) (e : SenEvent) : List (List Byte) :=
  if s.beginsFrame d e then [] :: s.senFrames
  else if s.showsChunk d e then addChunk (s.presentChunk d) s.senFrames
  else s.senFrames

/-- A step of SEN (R220). Without a SensorConfig no pin has a role, and nothing the rules speak of changes. -/
def State.senStep (s : State) (e : SenEvent) : State :=
  match s.session with
  | none => s
  | some d =>
    { s with
      pins := s.pinsAfter d e
      senPos := s.senPosAfter d e
      senFrames := s.senFramesAfter d e }

/-- The sensor idle after the out-of-scope reset of `init` (R182 I4, R221, R276). -/
def State.sensorIdle (s : State) (c : SensorConfig) : State :=
  { s with
    streaming := false
    pins := idlePins s.params c
    senPos := .rest }

end Sys2Proof.Machine
end

