-- ==== Sys2Proof/Machine/Synth.lean ====
section
/-! DEFINITION. Mode resolution as far as the block uses it, and the Capture Timing-Program Synthesizer SYN
(spec/41_synthesizer.md rules R150 to R159). SYN is a pure function. -/

namespace Sys2Proof.Machine

/-- `ppc` = 8 / `data_bits` (R153). -/
def ppcOf (dataBits : Nat) : Nat := 8 / dataBits

/-- The inputs of SYN (R155); it reads neither width nor height. -/
structure SynthInput where
  vsyncPin : Nat
  hsyncPin : Nat
  pclkPin : Nat
  dataPinBase : Nat
  dataBits : Nat
  borderPx : Nat
  ppc : Nat
  deriving DecidableEq, Repr

/-- The input `init` gives SYN (R154, R159). -/
def ConfigRequest.synthInput (r : ConfigRequest) : SynthInput where
  vsyncPin := r.vsyncPin
  hsyncPin := r.hsyncPin
  pclkPin := r.pclkPin
  dataPinBase := r.dataPinBase
  dataBits := r.dataBits
  borderPx := Config.borderPx
  ppc := ppcOf r.dataBits

/-- The pin-range check of R21 and R246: the first field that offends, in the order of R20's table (log 15). -/
def SynthInput.pinFault (p : Params) (x : SynthInput) : Option Fault :=
  if p.nPins ≤ x.vsyncPin then some (.badPin .vsyncPin x.vsyncPin)
  else if p.nPins ≤ x.hsyncPin then some (.badPin .hsyncPin x.hsyncPin)
  else if p.nPins ≤ x.pclkPin then some (.badPin .pclkPin x.pclkPin)
  else if p.nPins ≤ x.dataPinBase ∨ p.nPins < x.dataPinBase + x.dataBits then
    some (.badPin .dataPinBase x.dataPinBase)
  else none

/-- The checks SYN makes on its other inputs (R155, R246, V16). R155 lists no refusal for a `ppc` outside {1, 2, 8}: the
model makes none, and SYN then builds its program with the immediates cut to the width of the field, the model's choice
(log 43). -/
def SynthInput.inputFault (p : Params) (x : SynthInput) : Option Fault :=
  if x.dataBits ∉ Config.dataWidths then some (.badSynthInput .dataBits)
  else if x.borderPx = 0 ∨ p.immMax < x.borderPx * x.ppc then some (.badSynthInput .borderPx)
  else none

/-- The SHIN of slot 13: `SHIN data_pin_base, data_bits` (R156). -/
def shinOf (base : PinIndex) (dataBits : Nat) : Instr :=
  if dataBits = 1 then .shin1 base else if dataBits = 4 then .shin4 base else .shin8 base

/-- The 17 instructions by role, with `A(s)` the active level and `I(s)` the other (R156, R166). -/
def SynthInput.instrs (p : Params) (x : SynthInput) : List Instr :=
  let vsync := BitVec.ofNat 5 x.vsyncPin
  let hsync := BitVec.ofNat 5 x.hsyncPin
  let pclk := BitVec.ofNat 5 x.pclkPin
  let vA := p.activeVsync
  let hA := p.activeHsync
  let kA := p.activePclk
  [ .wait (!vA) vsync,
    .wait vA vsync,
    .setc .c1 (BitVec.ofNat 11 x.borderPx),
    .wait hA hsync,
    .wait (!hA) hsync,
    .jnz .c1 3,
    .latch .c0,
    .wait hA hsync,
    .setc .c1 (BitVec.ofNat 11 (x.borderPx * x.ppc)),
    .wait kA pclk,
    .wait (!kA) pclk,
    .jnz .c1 9,
    .wait kA pclk,
    shinOf (BitVec.ofNat 5 x.dataPinBase) x.dataBits,
    .wait (!kA) pclk,
    .jnz .c0 12,
    .wait (!hA) hsync ]

/-- SYN (R155 to R157): the program with its wrap range 6 to 16, or the fault that refuses the inputs. -/
def synth (p : Params) (x : SynthInput) : Except Fault TimingProgram :=
  match x.pinFault p with
  | some f => .error f
  | none =>
    match x.inputFault p with
    | some f => .error f
    | none => .ok { prog := (x.instrs p).map encode, wrapTarget := 6, wrapTop := 16 }

end Sys2Proof.Machine
end

