-- ==== Sys2Proof/Machine/Memory.lean ====
section
/-! DEFINITION. The operations of the frame-buffer memory (spec/20_memory.md rules R64 and R68). An address nothing
has written reads as no value (log 10), so the canonical form lists each written address once, addresses rising. -/

namespace Sys2Proof.Machine

/-- The byte at an address; `none` where nothing has been written. -/
def Memory.read : Memory → Nat → Option Byte
  | [], _ => none
  | (k, v) :: rest, a => if k = a then some v else Memory.read rest a

/-- One byte written; the list stays sorted by address. -/
def Memory.write : Memory → Nat → Byte → Memory
  | [], a, b => [(a, b)]
  | (k, v) :: rest, a, b =>
    if a < k then (a, b) :: (k, v) :: rest
    else if a = k then (a, b) :: rest
    else (k, v) :: Memory.write rest a b

/-- The canonical form: addresses strictly rising. -/
def Memory.wf : Memory → Bool
  | [] => true
  | [_] => true
  | (a, _) :: (b, w) :: rest => decide (a < b) && Memory.wf ((b, w) :: rest)

end Sys2Proof.Machine
end

