-- ==== Sys2Proof/Machine/Transfer.lean ====
section
/-! DEFINITION. The block-transfer engine BTE: its four operations and its step (spec/42_orchestrator.md rules R187
to R189 and R199 to R202). -/

namespace Sys2Proof.Machine

/-- `claim_channel` (R187); holds, leaving the state as it is, while no channel is free. Whether one is free is the
platform's answer (log 19), also when the one channel the model holds is CLAIMED already; the claim then succeeds on that
same channel and clears ACTIVE and DONE, which is the model's choice (log 41). -/
def State.claimChannel (s : State) (free : Bool) : Option State :=
  if free then some { s with claimed := true, active := false, done := false } else none

/-- `configure(OQ, dst, count, false, true, OQ-not-empty)` (R188). -/
def State.configure (s : State) (dst count : Nat) : State :=
  { s with
    dstBase := dst
    count := count
    moved := []
    srcIncrement := false
    dstIncrement := true
    trigger := .oqNotEmpty
    dst := 0
    remain := count
    done := false
    active := false }

/-- `start` (R189): with nothing to move it completes at once. -/
def State.start (s : State) : State :=
  if s.remain = 0 then { s with active := false, done := true } else { s with active := true }

/-- `release_channel` (R199). -/
def State.releaseChannel (s : State) : State := { s with claimed := false, active := false }

/-- The effect of a BTE step (R200): one byte from the head of OQ to frame-buffer byte DST. -/
def State.transferByte (s : State) : State :=
  match s.oq with
  | [] => s
  | b :: rest =>
    { s with
      oq := rest
      mem := s.mem.write (s.dstBase + s.dst) b
      moved := s.moved ++ [b]
      dst := s.dst + 1
      remain := s.remain - 1
      active := if s.remain - 1 = 0 then false else s.active
      done := if s.remain - 1 = 0 then true else s.done }

/-- The BTE step (R200). FB has no byte at or beyond the transfer's count (R64), so such a write stops (log 11). -/
def State.bteStep (s : State) : Host.Outcome State Fault Refusal :=
  if s.bteRuns then
    if s.dst < s.count then .next s.transferByte else .fault (.outsideFrameBuffer s.dst s.count)
  else .next s

end Sys2Proof.Machine
end

