-- ==== Sys2Proof/Machine/Orchestrator.lean ====
section
/-! DEFINITION. The frame-capture orchestrator FCO: `init`, the twelve phases of `read_frame`, `deinit`, and the calls
of HOST (spec/42_orchestrator.md rules R180 to R211). -/

namespace Sys2Proof.Machine

/-- SensorConfig as stored, once the pin fields are in range (R20). -/
def ConfigRequest.stored (r : ConfigRequest) : SensorConfig where
  vsyncPin := BitVec.ofNat 5 r.vsyncPin
  hsyncPin := BitVec.ofNat 5 r.hsyncPin
  pclkPin := BitVec.ofNat 5 r.pclkPin
  dataPinBase := BitVec.ofNat 5 r.dataPinBase
  dataBits := BitVec.ofNat 4 r.dataBits
  width := r.width
  height := r.height
  resetPin := r.resetPin
  mclkPin := r.mclkPin
  busHandle := r.busHandle
  engineHandle := r.engineHandle

/-- ResolvedMode (R153, R154). -/
def ConfigRequest.resolved (r : ConfigRequest) : ResolvedMode where
  ppc := ppcOf r.dataBits
  borderPx := Config.borderPx

/-- The error of the out-of-scope step I4, if it failed (R244). -/
def Middle.error : Middle → Option InitError
  | .ok => none
  | .unexpectedModelId => some .unexpectedModelId
  | .resetTimeout => some .resetTimeout
  | .busError detail => some (.busError detail)

/-- A failing `init`: the error is returned and the instance is dead (R25, R256). -/
def State.initFails (s : State) (why : InitFailure) : State :=
  { s with life := .failed, returned := some (.initFailed why) }

/-- A fault reported as init failure is recorded too (R246, R253). -/
def State.initFaults (s : State) (f : Fault) : State := (s.raise f).initFails (.fault f)

/-- Steps I6 and I7: install the held program, and the instance is ready (R182). -/
def State.initLoad (s : State) (p : TimingProgram) : State :=
  match s.loadProgram p with
  | .error f => s.initFaults f
  | .ok t => { t with life := .ready, returned := some .initOk }

/-- Step I5: SYN, and the three records of the instance (R182, R272). -/
def State.initSynth (s : State) (r : ConfigRequest) : State :=
  match synth s.params r.synthInput with
  | .error f => s.initFaults f
  | .ok p => ({ s with session := some ⟨r.stored, r.resolved, p⟩ } : State).initLoad p

/-- `init(config)` (R182): the checks I1 to I3, then I4, which leaves the sensor idle, then I5 to I7. -/
def State.init (s : State) (r : ConfigRequest) (middle : Middle) : State :=
  if (r.width, r.height) ∉ s.params.presets then s.initFails (.error .unsupportedResolution)
  else if r.dataBits ∉ Config.dataWidths then s.initFails (.error .unsupportedBitDepth)
  else
    match r.synthInput.pinFault s.params with
    | some f => s.initFaults f
    | none =>
      match middle.error with
      | some e => s.initFails (.error e)
      | none => (s.sensorIdle r.stored).initSynth r

/-- `deinit` (R207, R274). The pins lose their roles with the configuration (log 24). -/
def State.deinit (s : State) : State :=
  { s with
    en := false
    loaded := false
    imem := Vector.replicate 32 none
    session := none
    pins := Vector.replicate 32 none
    life := .released
    returned := some .deinit }

/-- A phase whose collaborator may fault: the fault is recorded and FCO stays where it is (R256); else FCO goes on. -/
def State.orFault (s : State) (r : Except Fault State) (next : Phase) : State :=
  match r with
  | .error f => s.raise f
  | .ok t => { t with phase := next }

/-- A phase whose collaborator may hold: nothing changes, or FCO goes on. -/
def State.orHold (s : State) (r : Option State) (next : Phase) : State :=
  match r with
  | none => s
  | some t => { t with phase := next }

/-- F1 (R184, R209): `NotReady` first, then `LengthMismatch`, before any effect; the call is over when one is raised. -/
def State.checkCall (s : State) (d : Session) (buffer length : Nat) : State :=
  if length ≠ d.config.width * d.config.height then
    { s.raise (.lengthMismatch length (d.config.width * d.config.height)) with phase := .idle }
  else { s with buf := buffer, len := length, phase := .f2 }

/-- The per-line strobe count FCO pushes, `width * ppc` (R192). -/
def Session.lineCount (d : Session) : Count := BitVec.ofNat 32 (d.config.width * d.mode.ppc)

/-- The bytes of `BusWrite8(reg, val)`: the register address most significant byte first, then the value (R196). -/
def busBytes (reg : BitVec 16) (val : Byte) : List Byte := [reg.extractLsb' 8 8, reg.extractLsb' 0 8, val]

/-- `BusWrite8` of a streaming command (R194 to R196): the transaction is logged, its result discarded, and the sensor
reacts when the write reaches it. -/
def State.streamWrite (s : State) (on delivered : Bool) : State :=
  { s with
    busLog := s.busLog ++
      [.write s.params.sensorAddr7
        (busBytes s.params.streamReg (if on then s.params.streamOn else s.params.streamOff))]
    streaming := if delivered then on else s.streaming }

/-- One phase of `read_frame` (R183), with the environment's answers. PHASE names the phase to run next, so it is F3
after the step that runs F2 (log 36). `BUF`, `LEN` and the transfer's own record keep the last call's values when the
call has returned (log 37). -/
def State.fcoStep (s : State) (channelFree delivered : Bool) : Host.Outcome State Fault Refusal :=
  match s.phase with
  | .idle => .next s
  | .f1 buffer length =>
    if s.life ≠ .ready then .next { s.raise (.notReady s.life) with phase := .idle }
    else
      match s.session with
      | none => .refused .noSession
      | some d => .next (s.checkCall d buffer length)
  | .f2 =>
    match s.session with
    | none => .refused .noSession
    | some d => .next (s.orFault (s.loadProgram d.held) .f3)
  | .f3 => .next (s.orHold (s.claimChannel channelFree) .f4)
  | .f4 => .next { s.configure s.buf s.len with phase := .f5 }
  | .f5 => .next { s.start with phase := .f6 }
  | .f6 => .next (s.orFault (s.enable true) .f7)
  | .f7 =>
    match s.session with
    | none => .refused .noSession
    | some d => .next (s.orHold (s.pushParameter d.lineCount) .f8)
  | .f8 => .next { s.streamWrite true delivered with phase := .f9 }
  | .f9 => .next (if s.done then { s with phase := .f10 } else s)
  | .f10 => .next (s.orFault (s.enable false) .f11)
  | .f11 => .next { s.releaseChannel with phase := .f12 }
  | .f12 => .next { s.streamWrite false delivered with phase := .idle, returned := some .readFrame }

/-- A TPX or BTE operation that HOST called has returned. -/
def State.collaboratorReturns (s : State) : State := { s with pending := none, returned := some .collaborator }

/-- A TPX or BTE operation that HOST called holds: nothing changes, and the call stays in flight (R193, R197, R240). -/
def State.collaboratorHolds (s : State) (op : Collaborator) : State := { s with pending := some op }

/-- A collaborator operation called by HOST itself (R186 to R193, R197, R199): it returns, faults or holds. Before any
load or configure it works on the values the model gives PQ and REMAIN at power-on, and the BTE steps of a transfer it
starts on the OQ at power-on, all of which R271 leaves unspecified (log 4, log 5, log 39): the model's choice. -/
def State.collaborate (s : State) (op : Collaborator) : State :=
  match op with
  | .loadProgram p =>
    match s.loadProgram p with
    | .error f => s.raise f
    | .ok t => t.collaboratorReturns
  | .enable b =>
    match s.enable b with
    | .error f => s.raise f
    | .ok t => t.collaboratorReturns
  | .pushParameter v =>
    match s.pushParameter v with
    | none => s.collaboratorHolds op
    | some t => t.collaboratorReturns
  | .claimChannel free =>
    match s.claimChannel free with
    | none => s.collaboratorHolds op
    | some t => t.collaboratorReturns
  | .configure dst count => (s.configure dst count).collaboratorReturns
  | .start => s.start.collaboratorReturns
  | .waitForCompletion => if s.done then s.collaboratorReturns else s.collaboratorHolds op
  | .releaseChannel => s.releaseChannel.collaboratorReturns

/-- A call of HOST while no operation runs (R180, R181). -/
def State.callIdle (s : State) : HostCall → State
  | .init req middle => s.init req middle
  | .readFrame buffer length => { s with phase := .f1 buffer length }
  | .deinit => s.deinit
  | .setCoarseIntegration _ => { s with returned := some .setCoarseIntegration }
  | .collaborator op => s.collaborate op

/-- The call tries a holding operation again: whether a channel is free is read afresh (R187). -/
def HostCall.retries (call : HostCall) (op : Collaborator) : Bool :=
  match call, op with
  | .collaborator (.claimChannel _), .claimChannel _ => true
  | .collaborator op', _ => op' = op
  | _, _ => false

/-- Why a call of HOST has no meaning: another operation runs (R181), or it is an `init` of an instance that is READY,
SYN running once per instance (R20, R159), or FAILED and so dead (R257). -/
def State.callRefused (s : State) (call : HostCall) : Option Refusal :=
  if s.phase ≠ .idle then some .overlappingOperation
  else
    match s.pending with
    | some op => if call.retries op then none else some .overlappingOperation
    | none =>
      match call with
      | .init _ _ => if s.life = .uninit ∨ s.life = .released then none else some .instanceUsed
      | _ => none

/-- A call of HOST. -/
def State.hostStep (s : State) (call : HostCall) : Host.Outcome State Fault Refusal :=
  match s.callRefused call with
  | some why => .refused why
  | none => .next (s.callIdle call)

end Sys2Proof.Machine
end

