-- ==== Sys2Proof/Machine/Agents.lean ====
section
/-! DEFINITION. Whose move is next, the step of TPX, and the step of the move's agent (spec/00_scope.md rule R7,
spec/40_timing_instructions.md rules R120 and R121). -/

namespace Sys2Proof.Machine

/-- The next move: the first one already fixed, else a free one (R7, V15, log 1). -/
def State.nextMove (s : State) : Move :=
  match s.agenda with
  | m :: _ => m
  | [] => Config.schedule s.tick

/-- The state after the move is taken and before its agent acts: the model's own fields only. -/
def State.consume (s : State) : State := { s with agenda := s.agenda.tail, tick := s.tick + 1 }

/-- A TPX step (R120, R121): nothing while not loaded and enabled; else fetch, and the instruction or the fault. -/
def State.tpxStep (s : State) : Host.Outcome State Fault Refusal :=
  if s.tpxRuns then
    match s.fetch with
    | .error f => .next (s.raise f)
    | .ok i => exec i s
  else .next s

/-- The step of the move's agent, taken on a state whose move is consumed. -/
def State.runMove (s : State) : Move → Host.Outcome State Fault Refusal
  | .tpx => s.tpxStep
  | .bte => s.bteStep
  | .fco channelFree delivered => s.fcoStep channelFree delivered
  | .sen e => .next (s.senStep e)
  | .host call => s.hostStep call

/-- The next move is taken and its agent makes its step; under parameters the rules are not written for, no step has a
meaning (R4, log 9). -/
def State.takeMove (s : State) : Host.Outcome State Fault Refusal :=
  if s.params.admitted then s.consume.runMove s.nextMove else .refused .parametersNotAdmitted

end Sys2Proof.Machine
end

