-- ==== Sys2Proof/Machine/Step.lean ====
section
/-! DEFINITION. One step of the machine: the next move is taken, and its agent makes its step (spec/00_scope.md rule
R7). -/

namespace Sys2Proof.Machine

/-- One step of the machine. -/
def step (s : State) : Host.Outcome State Fault Refusal := s.takeMove

/-- `s` with an instruction of the opcode table where the next TPX step fetches it, TPX loaded and enabled, and the
next move TPX's (log 26). -/
def State.withFetchWord (s : State) (nbits w : Nat) : State :=
  { s with
    imem := s.imem.set s.pc.toNat (some (BitVec.ofNat 16 (w % 2 ^ nbits))) s.pc.isLt
    loaded := true
    en := true
    agenda := .tpx :: s.agenda }

end Sys2Proof.Machine
end

