-- ==== Sys2Proof/Machine/Codes.lean ====
section
/-! DEFINITION. The numbers the spec gives outcomes and phases (spec/60_exceptions.md rule R253,
spec/10_state.md rule R39). They carry no meaning outside the model. -/

namespace Sys2Proof.Machine

/-- The code of an init error (R253). -/
def InitError.code : InitError → Nat
  | .unsupportedResolution => 1
  | .unsupportedBitDepth => 2
  | .unexpectedModelId => 3
  | .resetTimeout => 4
  | .busError _ => 5

/-- The code of a fault (R253); the model's own `outsideFrameBuffer` has none. -/
def Fault.code : Fault → Option Nat
  | .lengthMismatch _ _ => some 16
  | .notReady _ => some 17
  | .badPin _ _ => some 18
  | .badSynthInput _ => some 19
  | .illegalProgram _ => some 20
  | .loadWhileEnabled => some 21
  | .notLoaded => some 22
  | .unwrittenCounter _ _ => some 32
  | .illegalInstruction _ _ => some 33
  | .fetchUnloaded _ => some 34
  | .outsideFrameBuffer _ _ => none

/-- The value of PHASE: IDLE is 0, F1 to F12 are 1 to 12 (R39). -/
def Phase.value : Phase → Nat
  | .idle => 0
  | .f1 _ _ => 1
  | .f2 => 2
  | .f3 => 3
  | .f4 => 4
  | .f5 => 5
  | .f6 => 6
  | .f7 => 7
  | .f8 => 8
  | .f9 => 9
  | .f10 => 10
  | .f11 => 11
  | .f12 => 12

end Sys2Proof.Machine
end

