-- ==== Sys2Proof/Safety.lean ====
section
/-! DEFINITION. What claims are about: the invariants of the machine, when a run is over, the pixel values of a frame,
and the premises of the end-to-end property (spec/42_orchestrator.md rule R210, spec/43_sensor_signal_contract.md
rules R226 to R230, spec/70_reset_and_hazards.md rules R283 and R284). -/

namespace Sys2Proof.Machine

/-- The SYN input a stored configuration stands for. -/
def Session.synthInput (d : Session) : SynthInput where
  vsyncPin := d.config.vsyncPin.toNat
  hsyncPin := d.config.hsyncPin.toNat
  pclkPin := d.config.pclkPin.toNat
  dataPinBase := d.config.dataPinBase.toNat
  dataBits := d.config.dataBits.toNat
  borderPx := d.mode.borderPx
  ppc := d.mode.ppc

/-- What `init` establishes of the three records and nothing changes (R20, R23, R24): a preset, a data width, data
pins that exist, the resolved values, and the program SYN answers for them. -/
structure SessionSound (p : Params) (d : Session) : Prop where
  preset : (d.config.width, d.config.height) ∈ p.presets
  width : d.config.dataBits.toNat ∈ Config.dataWidths
  dataPins : d.config.dataPinBase.toNat + d.config.dataBits.toNat ≤ p.nPins
  ppc : d.mode.ppc = ppcOf d.config.dataBits.toNat
  border : d.mode.borderPx = Config.borderPx
  held : synth p d.synthInput = .ok d.held

/-- A slot is unloaded or holds a legal word. -/
def legalSlot (p : Params) : Option Word → Bool
  | none => true
  | some w => (p.instrOf w).isSome

/-- The invariant every step keeps, whatever the moves are. -/
structure StateInv (s : State) : Prop where
  /-- The parameters are ones the rules have a meaning for (R4, log 9). -/
  admitted : s.params.admitted = true
  /-- The memory keeps its canonical form. -/
  memory : s.mem.wf = true
  /-- ISRCNT is below ISR_W, 0 to 7, between steps (R33). -/
  isrcnt : s.isrcnt.toNat < s.params.isrW
  /-- ISR has ISR_W bits (R33). -/
  isrBits : s.isr.toNat < 2 ^ s.params.isrW
  /-- OQ holds at most OQ_DEPTH bytes (R35). -/
  oqRoom : s.oq.length ≤ s.params.oqDepth
  /-- PQ holds at most PQ_DEPTH words (R36). -/
  pqRoom : s.pq.length ≤ s.params.pqDepth
  /-- BTE's fixed configuration (R38). -/
  fixed : s.srcIncrement = false ∧ s.dstIncrement = true ∧ s.trigger = .oqNotEmpty
  /-- Bytes moved and bytes to move make the count (R200, R201). -/
  transferIndex : s.dst + s.remain = s.count
  /-- The model's record of the transfer lists the bytes moved (log 40). -/
  movedLength : s.moved.length = s.dst
  /-- An active transfer has something to move (R189, R200). -/
  transferActive : s.active = true → 0 < s.remain
  /-- A completed transfer is not active and has moved everything (R201). -/
  transferDone : s.done = true → s.active = false ∧ s.remain = 0
  /-- Only a loaded executor is enabled (R191). -/
  enabledLoaded : s.en = true → s.loaded = true
  /-- IMEM holds legal words only, `load_program` having checked them (R98, R121). -/
  slotsLegal : ∀ i : Fin 32, legalSlot s.params s.imem[i] = true
  /-- A counter and PARAM are `none` or below 2^CTR_W, and so is every word of PQ (R26, R34, R36). -/
  counts : ∀ v, s.c0 = some v ∨ s.c1 = some v ∨ s.param = some v ∨ v ∈ s.pq → v.toNat < 2 ^ s.params.ctrW
  /-- The records of the instance are what `init` made them (R20). -/
  session : ∀ d, s.session = some d → SessionSound s.params d
  /-- A ready instance has its records (R25, R272). -/
  ready : s.life = .ready → s.session.isSome = true
  /-- A new instance has no records: they are written once, by its own `init` (R20, R159). -/
  unwritten : s.life = .uninit ∨ s.life = .released → s.session = none

/-- The move is a TPX or BTE operation that HOST calls itself, which R208 forbids while the driver lives. -/
def Move.isCollaborator : Move → Bool
  | .host (.collaborator _) => true
  | _ => false

/-- The move is a call of HOST. -/
def Move.isHost : Move → Bool
  | .host _ => true
  | _ => false

/-- TPX as a reload leaves it (R185, R186). -/
structure Reloaded (s : State) : Prop where
  pc : s.pc = BitVec.ofNat 5 s.params.loadOffset
  counters : s.c0 = none ∧ s.c1 = none
  shift : s.isr = 0 ∧ s.isrcnt = 0
  queues : s.oq = [] ∧ s.pq = []
  param : s.param = none

/-- The invariant of the driver's own sequences (R183 to R204): it holds as long as HOST calls no collaborator
operation itself. -/
structure DriverInv (s : State) : Prop where
  /-- EN is 1 exactly from F6 done to F10 not done (R185, R190, R198). -/
  enabled : s.en = true ↔ 7 ≤ s.phase.value ∧ s.phase.value ≤ 10
  /-- The channel is claimed exactly from F3 done to F11 not done (R187, R199). -/
  claimed : s.claimed = true ↔ 4 ≤ s.phase.value ∧ s.phase.value ≤ 11
  /-- A transfer is active only from F5 done to F9 not done (R189, R197). -/
  active : s.active = true → 6 ≤ s.phase.value ∧ s.phase.value ≤ 9
  /-- The instance is ready while a `read_frame` runs, and LEN is the frame's size (R184). -/
  running : 2 ≤ s.phase.value → s.life = .ready ∧ ∀ d, s.session = some d → s.len = d.config.width * d.config.height
  /-- A ready instance has its own program installed (R159, R272). -/
  installed : s.life = .ready → s.loaded = true ∧ s.wrapTarget = 6 ∧ s.wrapTop = 16 ∧
    ∀ d, s.session = some d → s.imem = d.held.image s.params.loadOffset
  /-- From F2 done to F6 not done TPX is as the reload left it (R185). -/
  reloaded : 3 ≤ s.phase.value → s.phase.value ≤ 6 → Reloaded s
  /-- PQ is empty when F7 pushes (R192). -/
  pqEmpty : s.phase.value = 7 → s.pq = []
  /-- From F4 done the transfer is the one of this call (R188). -/
  transfer : 5 ≤ s.phase.value → s.dstBase = s.buf ∧ s.count = s.len
  /-- At F5 nothing has been moved (R188). -/
  fresh : s.phase.value = 5 → s.dst = 0 ∧ s.done = false
  /-- From F5 done the transfer is active or complete (R189, R200). -/
  started : 6 ≤ s.phase.value → s.active = true ∨ s.done = true
  /-- From F9 done the transfer is complete (R197). -/
  complete : 10 ≤ s.phase.value → s.done = true
  /-- The bytes this call's transfer has moved stand in the frame buffer, in order (R201, R204). -/
  filled : 5 ≤ s.phase.value → ∀ i b, s.moved[i]? = some b → s.mem.read (s.buf + i) = some b
  /-- No operation of HOST's own is in flight (R208). -/
  calls : s.pending = none

/-- TPX runs SYN's program (R156), loaded where its absolute targets mean it to be (R75), and is where that program can
take it: inside it, with every counter written that an instruction ahead reads (R248), and with whole samples in ISR
(R128). -/
structure CaptureInv (s : State) (d : Session) : Prop where
  admitted : s.params.admitted = true
  room : s.params.runsSynth = true
  session : s.session = some d
  sound : SessionSound s.params d
  offset : s.params.loadOffset = 0
  program : s.imem = d.held.image 0
  wrap : s.wrapTarget = 6 ∧ s.wrapTop = 16
  inside : s.pc.toNat ≤ 16
  c1Written : 3 ≤ s.pc.toNat → s.c1.isSome = true
  c0Written : 7 ≤ s.pc.toNat → s.c0.isSome = true
  packing : s.isrcnt.toNat < s.params.isrW ∧ s.isrcnt.toNat % d.config.dataBits.toNat = 0

/-- The moves of one strobe that carries `value` (R223), when TPX and BTE keep up with it (R284): the data pins, pclk
active, slots 12 and 13 and the byte to the buffer, pclk inactive, slots 14 and 15. -/
def strobeMoves (value : Byte) : List Move :=
  [ .sen (.data value), .sen (.drive .pclk true), .tpx, .tpx, .bte, .sen (.drive .pclk false), .tpx, .tpx ]

/-- TPX waits in SYN's program for the next live strobe (slot 12, R162 state 3d) at a byte boundary, the first strobe
of a byte being its most significant part (R66), pclk is inactive, and the transfer is running with its queue drained.
-/
structure AtLiveStrobe (s : State) (d : Session) : Prop where
  admitted : s.params.admitted = true
  room : s.params.runsSynth = true
  session : s.session = some d
  sound : SessionSound s.params d
  offset : s.params.loadOffset = 0
  program : s.imem = d.held.image 0
  wrapTop : s.wrapTop = 16
  pc : s.pc = 12
  runs : s.loaded = true ∧ s.en = true
  msbFirst : s.params.shiftMsbFirst = true
  wholeByte : s.params.isrW = 8
  boundary : s.isr = 0 ∧ s.isrcnt = 0
  drained : s.oq = []
  transfer : s.active = true ∧ s.dst + s.remain = s.count
  quiet : s.signalIs d.config .pclk false = true
  wiring : d.config.isDataPin d.config.pclkPin.toNat = false

/-- A run is over: no phase and no call in flight, no transfer active, TPX without a step, so that nothing holds, and no
fault recorded (R43, R123, R204, R210, R240). -/
def State.final (s : State) : Bool :=
  decide (s.phase = .idle) && s.pending.isNone && !s.active && !s.tpxRuns && s.faults.isEmpty

/-- The pixel value of its chunks, the first most significant (R226): the sum of `chunk k * 2^(bits * (ppc-1-k))`. -/
def pixelValue (bits : Nat) : List Nat → Nat
  | [] => 0
  | chunk :: rest => chunk * 2 ^ (bits * rest.length) + pixelValue bits rest

/-- The value a byte driven on the data pins has there: its low `data_bits` bits (R220, R226). -/
def chunkOf (bits : Nat) (b : Byte) : Nat := b.toNat % 2 ^ bits

/-- `px(r, c)` of a frame, given the live chunks in the order SEN emitted them (R226). -/
def framePixel (d : Session) (chunks : List Byte) (r c : Nat) : Nat :=
  pixelValue d.config.dataBits.toNat
    (((chunks.drop ((r * d.config.width + c) * d.mode.ppc)).take d.mode.ppc).map BitVec.toNat)

/-- The frame is whole: every chunk of every live pixel was shown (R223, R226). -/
def Session.wholeFrame (d : Session) (chunks : List Byte) : Prop :=
  chunks.length = d.config.width * d.config.height * d.mode.ppc

/-- The frame buffer at `buffer` holds that whole frame in row-major order (R68, R230). -/
def FrameInBuffer (s : State) (d : Session) (buffer : Nat) (chunks : List Byte) : Prop :=
  d.wholeFrame chunks ∧ ∀ r c, r < d.config.height → c < d.config.width →
    s.mem.read (buffer + (r * d.config.width + c)) = some (BitVec.ofNat 8 (framePixel d chunks r c))

/-- The agents (R7). -/
inductive Agent where
  | host
  | fco
  | tpx
  | bte
  | sen
  deriving DecidableEq, Repr

/-- Whose step a move is. -/
def Move.agent : Move → Agent
  | .tpx => .tpx
  | .bte => .bte
  | .fco _ _ => .fco
  | .sen _ => .sen
  | .host _ => .host

/-- TPX would hold at the instruction it would execute if the next move were its own (R123). A WAIT on a pin nobody
drives is judged by the level that very move would draw: the model's choice (log 32). -/
def State.tpxHeld (s : State) : Bool :=
  match s.fetch with
  | .ok (.wait level pin) => decide (s.consume.pinLevel pin.toNat ≠ level)
  | .ok (.latch _) => s.pq.isEmpty && s.param.isNone
  | .ok (.shin1 _) => s.shinHeld 1
  | .ok (.shin4 _) => s.shinHeld 4
  | .ok (.shin8 _) => s.shinHeld 8
  | _ => false

/-- FCO has a phase that does not hold; F3 is enabled when a channel is free, which premise P4 grants (R230, R283). -/
def State.fcoReady (s : State) : Bool :=
  match s.phase with
  | .idle => false
  | .f7 => !s.pqFull
  | .f9 => s.done
  | _ => true

/-- An agent other than HOST has an enabled step (R283). -/
def State.agentEnabled (s : State) : Agent → Bool
  | .tpx => s.tpxRuns && !s.tpxHeld
  | .bte => s.bteRuns
  | .fco => s.fcoReady
  | .sen => s.streaming
  | .host => false

/-- The state after `k` moves, if the machine did not stop. -/
def State.afterMoves (s : State) (k : Nat) : Option State :=
  match Sys2Proof.core.run k s with
  | .next t => some t
  | _ => none

/-- Weak fairness (R283): an agent that stays enabled eventually moves. -/
def Fair (s : State) : Prop :=
  ∀ k a, (∀ j, ∃ t, s.afterMoves (k + j) = some t ∧ t.agentEnabled a = true) →
    ∃ j t, s.afterMoves (k + j) = some t ∧ t.nextMove.agent = a

/-- Keep-up (R284): when SEN moves, TPX has nothing it can do and BTE has emptied OQ. -/
def KeepUp (s : State) : Prop :=
  ∀ k t, s.afterMoves k = some t → t.nextMove.agent = .sen →
    t.agentEnabled .tpx = false ∧ t.agentEnabled .bte = false

/-- The waveform contract is kept throughout (premise P2). -/
def ContractKept (s : State) : Prop := ∀ k t, s.afterMoves k = some t → t.senPos ≠ .broken

/-- SEN is idle, vsync and hsync at their inactive levels (R221, premise P2 at F1). -/
def State.sensorAtRest (s : State) (d : Session) : Prop :=
  s.streaming = false ∧ s.senPos = .rest ∧ s.syncsInactive d.config = true

/-- HOST keeps its duties (R208, premise P1): it makes no call before the operation returns. -/
def HostWaits (s : State) : Prop :=
  ∀ k t, s.afterMoves k = some t → t.phase ≠ .idle → t.nextMove.isHost = false

/-- The F8 write reaches the sensor (premise P3) and a channel is free at F3 (premise P4). -/
def EnvironmentHelps (s : State) : Prop :=
  ∀ k t, s.afterMoves k = some t → ∀ free delivered, t.nextMove = .fco free delivered →
    (t.phase = .f3 → free = true) ∧ (t.phase = .f8 → delivered = true)

/-- SEN goes on beginning frames while it is enabled (R222, premise P2). -/
def SensorEmits (s : State) : Prop :=
  ∀ k t, s.afterMoves k = some t → t.streaming = true →
    ∃ j t', s.afterMoves (k + j) = some t' ∧
      (t.senFrames.length < t'.senFrames.length ∨ t'.streaming = false)

/-- The wiring of R22: the three signal pins differ and lie outside the data pins. -/
def PinsDistinct (c : SensorConfig) : Prop :=
  c.vsyncPin ≠ c.hsyncPin ∧ c.vsyncPin ≠ c.pclkPin ∧ c.hsyncPin ≠ c.pclkPin ∧
    c.isDataPin c.vsyncPin.toNat = false ∧ c.isDataPin c.hsyncPin.toNat = false ∧ c.isDataPin c.pclkPin.toNat = false

/-- The end-to-end property of R230 for one call standing at F1, as a proposition: under P1 to P5 the call returns with
one frame of the sensor in the buffer. R226 packs bytes of 8 bits as SHIFT_MSB_FIRST has it, SYN's program loads and
its targets are those of LOAD_OFFSET 0, and a line's count fits a counter (R129). It is defined for claims to be stated
in, and is not itself claimed here. -/
def CaptureGuarantee (s : State) (d : Session) (buffer : Nat) : Prop :=
  s.phase = .f1 buffer (d.config.width * d.config.height) → s.life = .ready → s.session = some d → StateInv s →
    DriverInv s → s.params.shiftMsbFirst = true → s.params.isrW = 8 → s.params.runsSynth = true →
    s.params.loadOffset = 0 →
    d.config.width * d.mode.ppc < 2 ^ s.params.ctrW → PinsDistinct d.config → s.sensorAtRest d →
    HostWaits s → ContractKept s → SensorEmits s → EnvironmentHelps s → Fair s → KeepUp s →
    ∃ k t, s.afterMoves k = some t ∧ t.phase = .idle ∧ t.returned = some .readFrame ∧
      ∃ chunks ∈ t.senFrames, FrameInBuffer t d buffer chunks

end Sys2Proof.Machine
end

