-- ==== Sys2Proof/Certificates/Slice0/Obligations.lean ====
section
/-! DEFINITION. The statements for the provers. Each docstring names the rule of spec/ it formalises; a clause that
rests on a choice of the model says so and names the log entry. -/

open Sys2Proof Sys2Proof.Machine

/-! ## Encoding -/

/-- The decoder reads back every legal instruction from its word, with every operand at every value. -/
def Obligations.DecodeInvertsEncode : Prop :=
  ∀ i : Instr, i.wf = true → decode (encode i) = .ok i

/-- A word the decoder accepts is the encoding of what it answers, and what it answers is legal: no word has a second
reading and no bit of it is dropped. -/
def Obligations.EncodeInvertsDecode : Prop :=
  ∀ (w : Word) (i : Instr), decode w = .ok i → encode i = w ∧ i.wf = true

/-- The worked encoding of R104, both ways. -/
def Obligations.WorkedWordsDecode : Prop :=
  (decode 0x2010 = .ok (.wait false 16) ∧ encode (.wait false 16) = 0x2010) ∧
  (decode 0x3010 = .ok (.wait true 16) ∧ encode (.wait true 16) = 0x3010) ∧
  (decode 0x7002 = .ok (.setc .c1 2) ∧ encode (.setc .c1 2) = 0x7002) ∧
  (decode 0x9003 = .ok (.jnz .c1 3) ∧ encode (.jnz .c1 3) = 0x9003) ∧
  (decode 0x6800 = .ok (.latch .c0) ∧ encode (.latch .c0) = 0x6800) ∧
  (decode 0x4068 = .ok (.shin8 6) ∧ encode (.shin8 6) = 0x4068) ∧
  (decode 0x800C = .ok (.jnz .c0 12) ∧ encode (.jnz .c0 12) = 0x800C)

/-- The opcode map of R97, row by row: mask, match and the range of `base`. The decoder being a function, the rows are
disjoint. -/
def Obligations.DecodeFollowsOpcodeMap : Prop :=
  ∀ w : Word,
    ((∃ level pin, decode w = .ok (.wait level pin)) ↔ w &&& 0xEFE0 = 0x2000) ∧
    ((∃ base, decode w = .ok (.shin1 base)) ↔ w &&& 0xFE0F = 0x4001) ∧
    ((∃ base, decode w = .ok (.shin4 base)) ↔ w &&& 0xFE0F = 0x4004 ∧ w.toNat / 16 % 32 ≤ 28) ∧
    ((∃ base, decode w = .ok (.shin8 base)) ↔ w &&& 0xFE0F = 0x4008 ∧ w.toNat / 16 % 32 ≤ 24) ∧
    ((∃ c imm, decode w = .ok (.setc c imm)) ↔ w &&& 0xE800 = 0x6000) ∧
    ((∃ c, decode w = .ok (.latch c)) ↔ w &&& 0xEFFF = 0x6800) ∧
    ((∃ c target, decode w = .ok (.jnz c target)) ↔ w &&& 0xEFE0 = 0x8000)

/-- The illegal words of R98, by field: a bad opcode, a reserved bit set, a bad count, or pins past the last. -/
def Obligations.IllegalWordsByField : Prop :=
  ∀ w : Word, (∃ e, decode w = .error e) ↔
    (w.toNat / 8192 = 0 ∨ 5 ≤ w.toNat / 8192) ∨
    ((w.toNat / 8192 = 1 ∨ w.toNat / 8192 = 4) ∧ w &&& 0x0FE0 ≠ 0) ∨
    (w.toNat / 8192 = 2 ∧ (w &&& 0x1E00 ≠ 0 ∨
      (w.toNat % 16 ≠ 1 ∧ w.toNat % 16 ≠ 4 ∧ w.toNat % 16 ≠ 8) ∨ 32 < w.toNat / 16 % 32 + w.toNat % 16)) ∨
    (w.toNat / 8192 = 3 ∧ w &&& 0x0800 ≠ 0 ∧ w &&& 0x07FF ≠ 0)

/-! ## The instructions -/

/-- WAIT (R124): at its level it completes, at the other it holds and nothing changes. That a pin nobody drives is read
at the free value of the present tick is the model's choice (V4, log 7), and so is that a hold answers next with the same
state (R123, log 2). -/
def Obligations.WaitCompletesAtItsLevel : Prop :=
  ∀ (s : State) (level : Bool) (pin : PinIndex) (v : Bool),
    (match s.pins[pin.toNat]'(pin.isLt) with
      | some driven => v = driven
      | none => v = Config.undrivenLevel s.tick pin.toNat) →
    exec (.wait level pin) s =
      .next (if v = level then { s with pc := if s.pc = s.wrapTop then s.wrapTarget else s.pc + 1 } else s)

/-- SETC (R125): the counter takes the immediate, zero-extended; nothing else changes but `pc`. The spec's width of a
counter is 32; that another CTR_W takes its place throughout is the model's reading of R4 (log 9). -/
def Obligations.SetcLoadsImmediate : Prop :=
  ∀ (s : State) (imm : BitVec 11),
    exec (.setc .c0 imm) s = .next { s with
      c0 := some (BitVec.ofNat 32 (imm.toNat % 2 ^ s.params.ctrW))
      pc := if s.pc = s.wrapTop then s.wrapTarget else s.pc + 1 } ∧
    exec (.setc .c1 imm) s = .next { s with
      c1 := some (BitVec.ofNat 32 (imm.toNat % 2 ^ s.params.ctrW))
      pc := if s.pc = s.wrapTop then s.wrapTarget else s.pc + 1 }

/-- LATCH (R126): a queued word becomes PARAM, then PARAM goes to the counter and stays; with neither it holds. That a
hold answers next with the same state is the model's reading (R123, log 2). -/
def Obligations.LatchTakesThenCopies : Prop :=
  ∀ (s : State) (next : Slot), next = (if s.pc = s.wrapTop then s.wrapTarget else s.pc + 1) →
    (∀ v rest, s.pq = v :: rest →
      exec (.latch .c0) s = .next { s with param := some v, pq := rest, c0 := some v, pc := next } ∧
      exec (.latch .c1) s = .next { s with param := some v, pq := rest, c1 := some v, pc := next }) ∧
    (∀ v, s.pq = [] → s.param = some v →
      exec (.latch .c0) s = .next { s with c0 := some v, pc := next } ∧
      exec (.latch .c1) s = .next { s with c1 := some v, pc := next }) ∧
    (s.pq = [] → s.param = none → ∀ c, exec (.latch c) s = .next s)

/-- JNZ (R127, R129): the counter is decremented mod 2^CTR_W first and tested second; at non-zero the jump is taken, else
`pc` goes to its successor. That a CTR_W other than 32 takes its place is the model's reading of R4 (log 9). -/
def Obligations.JnzCountsThenTests : Prop :=
  ∀ (s : State) (target : Slot) (v v' : Count) (next : Slot),
    v' = BitVec.ofNat 32 ((v.toNat + (2 ^ s.params.ctrW - 1)) % 2 ^ s.params.ctrW) →
    next = (if s.pc = s.wrapTop then s.wrapTarget else s.pc + 1) →
    (s.c0 = some v →
      exec (.jnz .c0 target) s = .next { s with c0 := some v', pc := if v' = 0 then next else target }) ∧
    (s.c1 = some v →
      exec (.jnz .c1 target) s = .next { s with c1 := some v', pc := if v' = 0 then next else target })

/-- JNZ on a counter that holds `none` raises UnwrittenCounter with the slot and the counter (R127, R248): the fault is
recorded, once, and nothing else changes. That a recorded fault lets the machine answer next is the model's (log 3). -/
def Obligations.JnzOnUnwrittenCounterFaults : Prop :=
  ∀ (s : State) (c : Counter) (target : Slot), s.counter c = none →
    exec (.jnz c target) s = .next { s with
      faults := if Fault.unwrittenCounter s.pc c ∈ s.faults then s.faults
        else s.faults ++ [.unwrittenCounter s.pc c] }

/-- SHIN at each of its three counts (R128): it holds when it would push and OQ is full; else the sample, line `i` at
weight 2^i, enters ISR at the low end, and a complete byte goes to the tail of OQ. That a hold answers next with the same
state is the model's reading (R123, log 2), and so is what SHIN does without SHIFT_MSB_FIRST or at an ISR_W below 8
(log 9). -/
def Obligations.ShinShiftsAndPushes : Prop :=
  ∀ (n : Nat) (shin : PinIndex → Instr),
    ((n = 1 ∧ shin = .shin1) ∨ (n = 4 ∧ shin = .shin4) ∨ (n = 8 ∧ shin = .shin8)) →
    ∀ (s : State) (base : PinIndex), base.toNat + n ≤ 32 →
      ∀ (isr' : Byte) (next : Slot),
        isr'.toNat = (if s.params.shiftMsbFirst then
            s.isr.toNat * 2 ^ n + ∑ i ∈ Finset.range n, (s.pinLevel (base.toNat + i)).toNat * 2 ^ i
          else (s.isr.toNat + (∑ i ∈ Finset.range n, (s.pinLevel (base.toNat + i)).toNat * 2 ^ i) *
            2 ^ s.params.isrW) / 2 ^ n) % 2 ^ s.params.isrW % 256 →
        next = (if s.pc = s.wrapTop then s.wrapTarget else s.pc + 1) →
        exec (shin base) s = .next
          (if s.params.isrW ≤ s.isrcnt.toNat + n then
            if s.params.oqDepth ≤ s.oq.length then s
            else { s with oq := s.oq ++ [isr'], isr := 0, isrcnt := 0, pc := next }
          else { s with isr := isr', isrcnt := BitVec.ofNat 4 (s.isrcnt.toNat + n), pc := next })

/-- A SHIN term whose pins do not all exist is an illegal instruction (R95, R98); no word decodes to one. That its
meaning then takes the fault a fetch of its word takes is the model's choice (log 25). -/
def Obligations.ShinPastTheLastPinFaults : Prop :=
  ∀ (s : State) (base : PinIndex),
    (28 < base.toNat → exec (.shin4 base) s = .next (s.raise (.illegalInstruction s.pc (encode (.shin4 base))))) ∧
    (24 < base.toNat → exec (.shin8 base) s = .next (s.raise (.illegalInstruction s.pc (encode (.shin8 base)))))

/-- Where `pc` goes (R122, R123, R127): every instruction answers next. One that holds, a WAIT at the other level, a
LATCH with no parameter or a SHIN with a byte due and OQ full, changes nothing; a taken JNZ ends at its target, also at
`wrap_top`; every other instruction that completes ends at the successor. That a hold (log 2) and a fault (log 3)
answer next, what a SHIN term that is no instruction does (log 25), and that CTR_W and ISR_W may have other values than
the spec's (log 9), are the model's. -/
def Obligations.PcMovesByRule : Prop :=
  ∀ (i : Instr) (s : State) (held : Prop),
    (held ↔ match i with
      | .wait level pin => s.pinLevel pin.toNat ≠ level
      | .shin1 base => base.toNat + 1 ≤ 32 ∧ s.params.isrW ≤ s.isrcnt.toNat + 1 ∧ s.params.oqDepth ≤ s.oq.length
      | .shin4 base => base.toNat + 4 ≤ 32 ∧ s.params.isrW ≤ s.isrcnt.toNat + 4 ∧ s.params.oqDepth ≤ s.oq.length
      | .shin8 base => base.toNat + 8 ≤ 32 ∧ s.params.isrW ≤ s.isrcnt.toNat + 8 ∧ s.params.oqDepth ≤ s.oq.length
      | .setc _ _ => False
      | .latch _ => s.pq = [] ∧ s.param = none
      | .jnz _ _ => False) →
    ∃ t, exec i s = .next t ∧
      (held → t = s) ∧
      (i.wf = false → t = s.raise (.illegalInstruction s.pc (encode i))) ∧
      (∀ c target, i = .jnz c target → s.counter c = none → t = s.raise (.unwrittenCounter s.pc c)) ∧
      (∀ c target v, i = .jnz c target → s.counter c = some v →
        (v.toNat + (2 ^ s.params.ctrW - 1)) % 2 ^ s.params.ctrW ≠ 0 → t.pc = target) ∧
      (¬held → i.wf = true →
        (∀ c target, i = .jnz c target → ∃ v, s.counter c = some v ∧
          (v.toNat + (2 ^ s.params.ctrW - 1)) % 2 ^ s.params.ctrW = 0) →
        t.pc = if s.pc = s.wrapTop then s.wrapTarget else s.pc + 1)

/-! ## The TPX step -/

/-- With LOADED or EN clear a TPX step does nothing; with both set it executes one instruction or records a fault of the
fetch (R120). The agenda and the tick are the model's own (log 1). -/
def Obligations.TpxStepsOnlyWhenEnabled : Prop :=
  ∀ s : State, s.params.admitted = true → s.nextMove = .tpx →
    (s.loaded = false ∨ s.en = false → step s = .next s.consume) ∧
    (s.loaded = true → s.en = true →
      (∃ f, step s = .next (s.consume.raise f)) ∨ (∃ i, step s = exec i s.consume))

/-- A step runs the decoded instruction: on TPX's move, enabled, with a legal word in the slot `pc` names, the word and
its operands in range of the parameters (R4, log 9), the step is exec of that instruction, after the move is taken from
the agenda and counted (log 1). -/
def Obligations.StepRunsDecodedInstruction : Prop :=
  ∀ (s : State) (w : Word) (i : Instr), s.params.admitted = true → s.nextMove = .tpx → s.loaded = true → s.en = true →
    s.imem[s.pc.toNat]'(s.pc.isLt) = some w → decode w = .ok i →
    w.toNat < 2 ^ s.params.instrW → i.fits s.params = true →
    step s = exec i { s with agenda := s.agenda.tail, tick := s.tick + 1 }

/-- A fetch of an unloaded slot or of an illegal word is recorded as the fault R121 and R249 name, and the step has no
other effect (R256). Answering next is the model's (log 3), and so is that a word whose operands are out of range of the
parameters is illegal there (log 9). -/
def Obligations.FetchFaultsAreRecorded : Prop :=
  ∀ s : State, s.params.admitted = true → s.nextMove = .tpx → s.loaded = true → s.en = true →
    (s.imem[s.pc.toNat]'(s.pc.isLt) = none → step s = .next (s.consume.raise (.fetchUnloaded s.pc))) ∧
    (∀ w, s.imem[s.pc.toNat]'(s.pc.isLt) = some w →
      (∀ i, decode w = .ok i → ¬(w.toNat < 2 ^ s.params.instrW ∧ i.fits s.params = true)) →
      step s = .next (s.consume.raise (.illegalInstruction s.pc w)))

/-! ## Loading and the executor's interface -/

/-- `load_program` (R186): LoadWhileEnabled first; a program that is not well formed (R99) is IllegalProgram; else IMEM,
the wrap range, `pc`, the counters, ISR, the queues and PARAM are as R186 lists them, and nothing else changes. The words
stand at LOAD_OFFSET and are not relocated (R75). How the bounds of R99 read at other parameters than R4's is the model's
(log 9). -/
def Obligations.LoadProgramChecksAndInstalls : Prop :=
  ∀ (s : State) (p : TimingProgram) (wellFormed : Prop),
    (wellFormed ↔ (1 ≤ p.prog.length ∧ p.prog.length + s.params.loadOffset ≤ s.params.progMax) ∧
      (∀ w ∈ p.prog, ∃ i, decode w = .ok i ∧ (w.toNat < 2 ^ s.params.instrW ∧ i.fits s.params = true) ∧
        ∀ c target, i = .jnz c target → target.toNat < p.prog.length) ∧
      p.wrapTarget ≤ p.wrapTop ∧ p.wrapTop < p.prog.length) →
    (s.en = true → s.loadProgram p = .error .loadWhileEnabled) ∧
    (s.en = false → ¬wellFormed → ∃ o, s.loadProgram p = .error (.illegalProgram o)) ∧
    (s.en = false → wellFormed → ∃ image : Vector (Option Word) 32,
      (∀ (k : Nat) (h : k < 32),
        image[k] = if s.params.loadOffset ≤ k then p.prog[k - s.params.loadOffset]? else none) ∧
      s.loadProgram p = .ok { s with
        imem := image, wrapTarget := BitVec.ofNat 5 p.wrapTarget, wrapTop := BitVec.ofNat 5 p.wrapTop
        pc := BitVec.ofNat 5 s.params.loadOffset, c0 := none, c1 := none, isr := 0, isrcnt := 0, oq := []
        pq := [], param := none, loaded := true })

/-- Within IllegalProgram the lowest offending slot is reported (R255), with its word (R247). A word whose operands are
out of range of the parameters offends like one that does not decode (log 9). -/
def Obligations.IllegalProgramNamesLowestSlot : Prop :=
  ∀ (s : State) (p : TimingProgram) (k : Nat) (w : Word), s.en = false → p.prog[k]? = some w →
    ((∀ i, decode w = .ok i → ¬(w.toNat < 2 ^ s.params.instrW ∧ i.fits s.params = true)) ∨
      ∃ c target, decode w = .ok (.jnz c target) ∧ p.prog.length ≤ target.toNat) →
    (∀ j v, j < k → p.prog[j]? = some v → ∃ i, decode v = .ok i ∧
      (v.toNat < 2 ^ s.params.instrW ∧ i.fits s.params = true) ∧
      ∀ c target, i = .jnz c target → target.toNat < p.prog.length) →
    s.loadProgram p = .error (.illegalProgram (some (k, w)))

/-- `enable` (R191). -/
def Obligations.EnableWritesEnOnly : Prop :=
  ∀ (s : State) (b : Bool),
    (b = true → s.loaded = false → s.enable b = .error .notLoaded) ∧
    (b = false ∨ s.loaded = true → s.enable b = .ok { s with en := b })

/-- `push_parameter` (R193): holds while PQ is full, else the value goes to the tail. That it enters at the width of a
counter where CTR_W is not 32 is the model's reading of R4 (log 9). -/
def Obligations.PushParameterQueuesOrHolds : Prop :=
  ∀ (s : State) (v : Count),
    (s.params.pqDepth ≤ s.pq.length → s.pushParameter v = none) ∧
    (s.pq.length < s.params.pqDepth → s.pushParameter v = some { s with
      pq := s.pq ++ [BitVec.ofNat 32 (v.toNat % 2 ^ s.params.ctrW)] })

/-! ## The synthesizer -/

/-- The words of R157 for every pin assignment, width, margin and polarity, and the wrap range, under every configuration
that is admitted (log 9). -/
def Obligations.SynthBuildsTheListedWords : Prop :=
  ∀ (p : Params) (x : SynthInput), p.admitted = true →
    x.vsyncPin < p.nPins → x.hsyncPin < p.nPins → x.pclkPin < p.nPins → x.dataPinBase + x.dataBits ≤ p.nPins →
    (x.dataBits = 1 ∨ x.dataBits = 4 ∨ x.dataBits = 8) → x.ppc = 8 / x.dataBits →
    1 ≤ x.borderPx → x.borderPx * x.ppc < 2 ^ p.immW →
    ∀ vA vI hA hI kA kI : Nat,
      (vA, vI) = (if p.activeVsync then (0x3000, 0x2000) else (0x2000, 0x3000)) →
      (hA, hI) = (if p.activeHsync then (0x3000, 0x2000) else (0x2000, 0x3000)) →
      (kA, kI) = (if p.activePclk then (0x3000, 0x2000) else (0x2000, 0x3000)) →
      synth p x = .ok {
        prog := [ vI + x.vsyncPin, vA + x.vsyncPin, 0x7000 + x.borderPx, hA + x.hsyncPin, hI + x.hsyncPin, 0x9003,
            0x6800, hA + x.hsyncPin, 0x7000 + x.borderPx * x.ppc, kA + x.pclkPin, kI + x.pclkPin, 0x9009,
            kA + x.pclkPin, 0x4000 + 16 * x.dataPinBase + x.dataBits, kI + x.pclkPin, 0x800C,
            hI + x.hsyncPin ].map (BitVec.ofNat 16)
        wrapTarget := 6
        wrapTop := 16 }

/-- The three programs of R158, wherever the pins and the margins of the rule exist. -/
def Obligations.SynthWorkedPrograms : Prop :=
  ∀ p : Params, p.activeVsync = true → p.activeHsync = true → p.activePclk = true →
    16 < p.nPins → 16 < 2 ^ p.immW →
    synth p ⟨16, 15, 14, 6, 8, 2, 1⟩ = .ok ⟨[0x2010, 0x3010, 0x7002, 0x300F, 0x200F, 0x9003, 0x6800, 0x300F, 0x7002,
      0x300E, 0x200E, 0x9009, 0x300E, 0x4068, 0x200E, 0x800C, 0x200F], 6, 16⟩ ∧
    synth p ⟨16, 15, 14, 6, 4, 2, 2⟩ = .ok ⟨[0x2010, 0x3010, 0x7002, 0x300F, 0x200F, 0x9003, 0x6800, 0x300F, 0x7004,
      0x300E, 0x200E, 0x9009, 0x300E, 0x4064, 0x200E, 0x800C, 0x200F], 6, 16⟩ ∧
    synth p ⟨16, 15, 14, 6, 1, 2, 8⟩ = .ok ⟨[0x2010, 0x3010, 0x7002, 0x300F, 0x200F, 0x9003, 0x6800, 0x300F, 0x7010,
      0x300E, 0x200E, 0x9009, 0x300E, 0x4061, 0x200E, 0x800C, 0x200F], 6, 16⟩

/-- SYN's refusals (R155, R246): BadPin for a pin that does not exist, else BadSynthInput for a bad width or for a margin
that is zero or does not fit. Which of several bad fields is named is the model's choice (log 15, log 16). -/
def Obligations.SynthRefusesBadInputs : Prop :=
  ∀ (p : Params) (x : SynthInput),
    (p.nPins ≤ x.vsyncPin ∨ p.nPins ≤ x.hsyncPin ∨ p.nPins ≤ x.pclkPin ∨ p.nPins ≤ x.dataPinBase ∨
        p.nPins < x.dataPinBase + x.dataBits →
      ∃ field value, synth p x = .error (.badPin field value)) ∧
    (x.vsyncPin < p.nPins → x.hsyncPin < p.nPins → x.pclkPin < p.nPins → x.dataPinBase < p.nPins →
      x.dataPinBase + x.dataBits ≤ p.nPins →
      (x.dataBits ≠ 1 ∧ x.dataBits ≠ 4 ∧ x.dataBits ≠ 8) ∨ x.borderPx = 0 ∨ 2 ^ p.immW ≤ x.borderPx * x.ppc →
      ∃ field, synth p x = .error (.badSynthInput field))

/-- Whatever SYN builds, `load_program` accepts while the executor is disabled: IllegalProgram cannot occur for it
(R247), under every admitted configuration that has SYN's words, counters and slots, as the spec's own has. Under any
other the load is refused as IllegalProgram, the model's reading (log 9). -/
def Obligations.SynthProgramAlwaysLoads : Prop :=
  ∀ (x : SynthInput) (prog : TimingProgram) (s : State), s.params.admitted = true →
    1 ≤ x.ppc → synth s.params x = .ok prog → s.en = false →
    (s.params.runsSynth = true → s.loadProgram prog = .ok (s.install prog)) ∧
    (s.params.runsSynth = false → ∃ o, s.loadProgram prog = .error (.illegalProgram o))

/-! ## init and deinit -/

/-- A successful `init` of a new instance on an executor that SYN's program fits (log 9; R182, R272): the caller's
values, `ppc` and the margin, SYN's program held and installed, TPX at its after-init values with both queues empty,
READY, IDLE, and the sensor idle (R221). Memory, BUSLOG and the record of faults stay as they were. That `init` is one
step with the end of I4 an input (log 13), and that the machine after a `deinit` serves as the new instance (log 14),
are the model's. -/
def Obligations.InitSucceeds : Prop :=
  ∀ (s : State) (r : ConfigRequest), s.params.admitted = true → s.nextMove = .host (.init r .ok) →
    s.phase = .idle → s.pending = none → (s.life = .uninit ∨ s.life = .released) → s.en = false →
    (r.width, r.height) ∈ s.params.presets → (r.dataBits = 1 ∨ r.dataBits = 4 ∨ r.dataBits = 8) →
    r.vsyncPin < s.params.nPins → r.hsyncPin < s.params.nPins → r.pclkPin < s.params.nPins →
    r.dataPinBase + r.dataBits ≤ s.params.nPins → 2 * (8 / r.dataBits) < 2 ^ s.params.immW →
    s.params.runsSynth = true →
    ∃ t d, step s = .next t ∧ t.session = some d ∧
      (d.config.vsyncPin.toNat = r.vsyncPin ∧ d.config.hsyncPin.toNat = r.hsyncPin ∧
        d.config.pclkPin.toNat = r.pclkPin ∧ d.config.dataPinBase.toNat = r.dataPinBase ∧
        d.config.dataBits.toNat = r.dataBits ∧ d.config.width = r.width ∧ d.config.height = r.height ∧
        d.config.resetPin = r.resetPin ∧ d.config.mclkPin = r.mclkPin ∧ d.config.busHandle = r.busHandle ∧
        d.config.engineHandle = r.engineHandle) ∧
      (d.mode.ppc = 8 / r.dataBits ∧ d.mode.borderPx = 2) ∧
      synth s.params ⟨r.vsyncPin, r.hsyncPin, r.pclkPin, r.dataPinBase, r.dataBits, 2, 8 / r.dataBits⟩ = .ok d.held ∧
      (t.pc.toNat = s.params.loadOffset ∧ t.c0 = none ∧ t.c1 = none ∧ t.isr = 0 ∧ t.isrcnt = 0 ∧ t.oq = [] ∧ t.pq = [] ∧
        t.param = none ∧ t.wrapTarget = 6 ∧ t.wrapTop = 16 ∧ t.loaded = true ∧ t.en = false) ∧
      (∀ (k : Nat) (h : k < 32),
        t.imem[k] = if s.params.loadOffset ≤ k then d.held.prog[k - s.params.loadOffset]? else none) ∧
      t.life = .ready ∧ t.phase = .idle ∧ t.returned = some .initOk ∧ t.streaming = false ∧
      t.mem = s.mem ∧ t.busLog = s.busLog ∧ t.faults = s.faults ∧
      (d.config.vsyncPin ≠ d.config.hsyncPin →
        t.signalIs d.config .vsync false = true ∧ t.signalIs d.config .hsync false = true)

/-- An unsupported resolution fails the `init` of a new instance before anything else, with no bus write (R242).
What a failing `init` leaves beside life and the code (log 34), that it is one step (log 13), and that a released
instance may be a new one (log 14), are the model's. -/
def Obligations.InitRejectsResolution : Prop :=
  ∀ (s : State) (r : ConfigRequest) (m : Middle), s.params.admitted = true → s.nextMove = .host (.init r m) →
    s.phase = .idle → s.pending = none → (s.life = .uninit ∨ s.life = .released) →
    (r.width, r.height) ∉ s.params.presets →
    step s = .next { s with
      agenda := s.agenda.tail, tick := s.tick + 1, life := .failed
      returned := some (.initFailed (.error .unsupportedResolution)) }

/-- A data width outside {1, 4, 8} fails `init` next, with the same state left (R243). What a failing
`init` leaves beside life and the code (log 34), that it is one step (log 13), and that a released instance may be a new
one (log 14), are the model's. -/
def Obligations.InitRejectsBitDepth : Prop :=
  ∀ (s : State) (r : ConfigRequest) (m : Middle), s.params.admitted = true → s.nextMove = .host (.init r m) →
    s.phase = .idle → s.pending = none → (s.life = .uninit ∨ s.life = .released) →
    (r.width, r.height) ∈ s.params.presets → (r.dataBits ≠ 1 ∧ r.dataBits ≠ 4 ∧ r.dataBits ≠ 8) →
    step s = .next { s with
      agenda := s.agenda.tail, tick := s.tick + 1, life := .failed
      returned := some (.initFailed (.error .unsupportedBitDepth)) }

/-- A pin that does not exist fails `init` with BadPin, recorded and returned (R246, R253). That the first bad field in
the order of R20's table is named is the model's choice (log 15). What a failing `init` leaves beside life and the code
(log 34), that it is one step (log 13), and that a released instance may be a new one (log 14), are the model's. -/
def Obligations.InitRejectsBadPin : Prop :=
  ∀ (s : State) (r : ConfigRequest) (m : Middle), s.params.admitted = true → s.nextMove = .host (.init r m) →
    s.phase = .idle → s.pending = none → (s.life = .uninit ∨ s.life = .released) →
    (r.width, r.height) ∈ s.params.presets → (r.dataBits = 1 ∨ r.dataBits = 4 ∨ r.dataBits = 8) →
    (s.params.nPins ≤ r.vsyncPin ∨ s.params.nPins ≤ r.hsyncPin ∨ s.params.nPins ≤ r.pclkPin ∨
      s.params.nPins < r.dataPinBase + r.dataBits) →
    ∃ field value, step s = .next { s.consume.raise (.badPin field value) with
      life := .failed, returned := some (.initFailed (.fault (.badPin field value))) }

/-- A failure of the out-of-scope middle of `init`: I5 to I7 do not run, no program is built, and the instance is
FAILED (R244). That the pins and STREAMING stay as they were is the model's choice, R256 and U9 calling that state
unreadable (log 34), and so are the one step (log 13) and the new instance (log 14). -/
def Obligations.InitMiddleFailureBuildsNothing : Prop :=
  ∀ (s : State) (r : ConfigRequest) (m : Middle) (e : InitError),
    s.params.admitted = true → s.nextMove = .host (.init r m) →
    s.phase = .idle → s.pending = none → (s.life = .uninit ∨ s.life = .released) →
    (r.width, r.height) ∈ s.params.presets → (r.dataBits = 1 ∨ r.dataBits = 4 ∨ r.dataBits = 8) →
    r.vsyncPin < s.params.nPins → r.hsyncPin < s.params.nPins → r.pclkPin < s.params.nPins →
    r.dataPinBase + r.dataBits ≤ s.params.nPins →
    ((m = .unexpectedModelId ∧ e = .unexpectedModelId) ∨ (m = .resetTimeout ∧ e = .resetTimeout) ∨
      ∃ detail, m = .busError detail ∧ e = .busError detail) →
    step s = .next { s with
      agenda := s.agenda.tail, tick := s.tick + 1, life := .failed, returned := some (.initFailed (.error e)) }

/-- `deinit` and a second `deinit` right after it (R207, R274): RELEASED, EN and LOADED clear, IMEM unloaded; the
second changes nothing but the model's own counting of moves (log 1). That the discarded records are absent, where R274
calls the configuration unspecified, is the model's choice (log 6), and so is what else stays (log 31). -/
def Obligations.DeinitTwiceIsOnce : Prop :=
  ∀ (s : State) (rest : List Move), s.params.admitted = true → s.phase = .idle → s.pending = none →
    s.agenda = [.host .deinit, .host .deinit] ++ rest →
    ∃ t u, step s = .next t ∧ step t = .next u ∧
      t.life = .released ∧ t.en = false ∧ t.loaded = false ∧ (∀ (k : Nat) (h : k < 32), t.imem[k] = none) ∧
      t.session = none ∧ t.faults = s.faults ∧ t.streaming = s.streaming ∧
      u = { t with agenda := rest, tick := t.tick + 1 }

/-! ## read_frame -/

/-- `read_frame`, from the call through F1 (R184). Not READY: NotReady, whatever the length (R209). A wrong length:
LengthMismatch, never a truncated transfer (R245). Both leave the state as it was before the call, with the fault
recorded. Otherwise BUF and LEN are latched and FCO stands at F2. That the call and its F1 are two moves is the
model's (log 18). -/
def Obligations.ReadFrameChecksThenLatches : Prop :=
  ∀ (s : State) (buffer length : Nat) (a b : Bool) (rest : List Move), s.params.admitted = true →
    s.phase = .idle → s.pending = none →
    s.agenda = [.host (.readFrame buffer length), .fco a b] ++ rest →
    (s.life ≠ .ready → Sys2Proof.core.run 2 s = .next { s with
      agenda := rest, tick := s.tick + 2
      faults := if Fault.notReady s.life ∈ s.faults then s.faults else s.faults ++ [.notReady s.life] }) ∧
    (∀ d expected, s.life = .ready → s.session = some d → expected = d.config.width * d.config.height →
      (length ≠ expected → Sys2Proof.core.run 2 s = .next { s with
        agenda := rest, tick := s.tick + 2
        faults := if Fault.lengthMismatch length expected ∈ s.faults then s.faults
          else s.faults ++ [.lengthMismatch length expected] }) ∧
      (length = expected → Sys2Proof.core.run 2 s = .next { s with
        agenda := rest, tick := s.tick + 2, phase := .f2, buf := buffer, len := length }))

/-- The reload at F2 (R185, R273): the TPX part of the after-init state again, whatever the capture before left; the
records, `life`, BTE and SEN are not touched. That PHASE is F3 after the step is the model's reading (log 36), and so are
which executors SYN's program fits and what a LOAD_OFFSET other than 0 does (log 9). -/
def Obligations.ReloadMakesTpxFresh : Prop :=
  ∀ (s : State) (d : Session) (a b : Bool), s.params.admitted = true → s.nextMove = .fco a b → s.phase = .f2 →
    s.en = false → s.session = some d → SessionSound s.params d → s.params.runsSynth = true →
    step s = .next { s with
      agenda := s.agenda.tail, tick := s.tick + 1, phase := .f3, pc := BitVec.ofNat 5 s.params.loadOffset
      c0 := none, c1 := none, isr := 0, isrcnt := 0, oq := [], pq := [], param := none
      wrapTarget := 6, wrapTop := 16, loaded := true, imem := d.held.image s.params.loadOffset }

/-- F3 (R187): with a channel free it is claimed, not active and not done; with none free FCO holds. That the free
channel is an input of the move (log 19), that a hold answers next (log 2), and what a claim does when CLAIMED is 1
already, as only a claim of HOST's own can make it (log 41), are the model's. -/
def Obligations.ClaimTakesAFreeChannel : Prop :=
  ∀ (s : State) (free delivered : Bool), s.params.admitted = true → s.nextMove = .fco free delivered → s.phase = .f3 →
    step s = .next (if free then
        { s.consume with claimed := true, active := false, done := false, phase := .f4 }
      else s.consume)

/-- F4 and F5 (R188, R189): the transfer is set up for exactly LEN bytes to BUF, source not incrementing and destination
incrementing, and started; a transfer of nothing completes at once. The fields dstBase and count are the model's own
copy of the two arguments (log 12), and moved its own record of the bytes (log 40). -/
def Obligations.ConfigureThenStart : Prop :=
  ∀ (s : State) (a b : Bool), s.params.admitted = true → s.nextMove = .fco a b →
    (s.phase = .f4 → step s = .next { s.consume with
      dst := 0, remain := s.len, done := false, active := false, srcIncrement := false, dstIncrement := true
      trigger := .oqNotEmpty, dstBase := s.buf, count := s.len, moved := [], phase := .f5 }) ∧
    (s.phase = .f5 → step s = .next (if s.remain = 0 then
        { s.consume with active := false, done := true, phase := .f6 }
      else { s.consume with active := true, phase := .f6 }))

/-- F6 and F7 (R190, R192): EN is set; then `width * ppc`, a product over the naturals, goes to the tail of PQ, or FCO
holds while PQ is full (R193). That a hold answers next (log 2), and that the product enters at the width of a counter
where CTR_W is not 32 (log 9), are the model's readings. -/
def Obligations.EnableThenPushLineCount : Prop :=
  ∀ (s : State) (d : Session) (a b : Bool), s.params.admitted = true → s.nextMove = .fco a b → s.session = some d →
    (s.phase = .f6 → s.loaded = true → step s = .next { s.consume with en := true, phase := .f7 }) ∧
    (s.phase = .f7 → s.pq.length < s.params.pqDepth → step s = .next { s.consume with
      pq := s.pq ++ [BitVec.ofNat 32 (d.config.width * d.mode.ppc % 2 ^ s.params.ctrW)], phase := .f8 }) ∧
    (s.phase = .f7 → s.params.pqDepth ≤ s.pq.length → step s = .next s.consume)

/-- F8 and F12 (R194 to R196): one bus write of three bytes, register address most significant byte first, appended to
BUSLOG; the two differ in the last byte (R65); the sensor reacts exactly when the write reaches it, and FCO goes on in
both cases; after F12 the call returns (R203). That the delivery is an input of the move is the model's (log 19), and
so is that STREAMING follows the phase that wrote (log 33). -/
def Obligations.StreamWritesAreLogged : Prop :=
  ∀ (s : State) (free delivered : Bool), s.params.admitted = true → s.nextMove = .fco free delivered →
    (s.phase = .f8 → step s = .next { s.consume with
      busLog := s.busLog ++ [.write s.params.sensorAddr7
        [BitVec.ofNat 8 (s.params.streamReg.toNat / 256), BitVec.ofNat 8 s.params.streamReg.toNat, s.params.streamOn]]
      streaming := delivered || s.streaming, phase := .f9 }) ∧
    (s.phase = .f12 → step s = .next { s.consume with
      busLog := s.busLog ++ [.write s.params.sensorAddr7
        [BitVec.ofNat 8 (s.params.streamReg.toNat / 256), BitVec.ofNat 8 s.params.streamReg.toNat, s.params.streamOff]]
      streaming := !delivered && s.streaming, phase := .idle, returned := some .readFrame }) ∧
    s.params.streamOn ≠ s.params.streamOff

/-- F9, F10 and F11 (R197 to R199): FCO holds until DONE, then stops TPX wherever it is, then releases the channel. That
a hold answers next is the model's reading (log 2). -/
def Obligations.WaitThenStopThenRelease : Prop :=
  ∀ (s : State) (a b : Bool), s.params.admitted = true → s.nextMove = .fco a b →
    (s.phase = .f9 → s.done = false → step s = .next s.consume) ∧
    (s.phase = .f9 → s.done = true → step s = .next { s.consume with phase := .f10 }) ∧
    (s.phase = .f10 → step s = .next { s.consume with en := false, phase := .f11 }) ∧
    (s.phase = .f11 → step s = .next { s.consume with claimed := false, active := false, phase := .f12 })

/-- The HOST calls that have no meaning are refused: any call while a `read_frame` runs (R181); any call but a retry
while an operation of HOST's own holds (log 38); and an `init` of an instance that is READY, SYN running once per
instance (R159, log 14), or FAILED and so dead (R257). That a refusal stops the run is the model's (log 21). -/
def Obligations.CallsWithoutMeaningAreRefused : Prop :=
  ∀ (s : State) (call : HostCall), s.params.admitted = true → s.nextMove = .host call →
    (s.phase ≠ .idle → step s = .refused .overlappingOperation) ∧
    (∀ op, s.phase = .idle → s.pending = some op → call.retries op = false →
      step s = .refused .overlappingOperation) ∧
    (∀ r m, s.phase = .idle → s.pending = none → call = .init r m → (s.life = .ready ∨ s.life = .failed) →
      step s = .refused .instanceUsed)

/-- What a `read_frame` leaves on return (R203, R204): TPX disabled, the channel unclaimed and idle, PHASE IDLE, READY,
and each of the LEN bytes this call's transfer moved at its place in the buffer. The record of the bytes moved is the
model's own (log 40). -/
def Obligations.ReturnReleasesAndFills : Prop :=
  ∀ (s : State) (a b : Bool), StateInv s → DriverInv s → s.nextMove = .fco a b → s.phase = .f12 →
    ∃ t, step s = .next t ∧ t.en = false ∧ t.claimed = false ∧ t.active = false ∧ t.phase = .idle ∧
      t.life = .ready ∧ t.returned = some .readFrame ∧ t.moved = s.moved ∧ s.moved.length = s.len ∧
      ∀ (i : Nat) (h : i < s.moved.length), t.mem.read (s.buf + i) = some s.moved[i]

/-! ## The block-transfer engine and the sensor -/

/-- The BTE step (R200): enabled when ACTIVE, REMAIN above 0 and OQ not empty, it moves the head of OQ to byte DST of the
buffer and completes with the last byte; otherwise nothing happens. Every other byte reads as before. The record of the
bytes moved is the model's own (log 40), and byte DST is host address dstBase + DST (log 10, log 12). -/
def Obligations.BteMovesTheHeadByte : Prop :=
  ∀ s : State, s.params.admitted = true → s.nextMove = .bte → s.dst + s.remain = s.count →
    (s.active = false ∨ s.remain = 0 ∨ s.oq = [] → step s = .next s.consume) ∧
    (∀ b rest, s.active = true → 0 < s.remain → s.oq = b :: rest →
      ∃ mem : Memory,
        mem.read (s.dstBase + s.dst) = some b ∧
        (∀ a, a ≠ s.dstBase + s.dst → mem.read a = s.mem.read a) ∧
        step s = .next { s.consume with
          oq := rest, mem := mem, moved := s.moved ++ [b], dst := s.dst + 1, remain := s.remain - 1
          active := decide (s.remain ≠ 1), done := decide (s.remain = 1) || s.done })

/-- SEN drives pins and nothing else (R220, R60): its step always answers next, and beside its own position and record
(log 23) only pin levels change. Driving a signal puts its active or inactive level on its pin; driving or releasing the
data pins touches no other pin; a released pin has no level (R221); to stop emitting changes no pin, and a sensor that is
at rest, a state SEN enters only so, has vsync and hsync at their inactive levels (R221, R222). -/
def Obligations.SensorDrivesOnlyItsPins : Prop :=
  ∀ (s : State) (d : Session) (e : SenEvent), s.params.admitted = true → s.nextMove = .sen e → s.session = some d →
    ∃ t, step s = .next t ∧
      t = { s.consume with pins := t.pins, senPos := t.senPos, senFrames := t.senFrames } ∧
      (∀ sig active, e = .drive sig active →
        t.pins[(d.config.pin sig).toNat]'((d.config.pin sig).isLt) = some (s.params.active sig == active) ∧
        ∀ (j : Nat) (h : j < 32), j ≠ (d.config.pin sig).toNat → t.pins[j] = s.pins[j]) ∧
      (e = .releasePclk → t.pins[d.config.pclkPin.toNat]'(d.config.pclkPin.isLt) = none ∧
        ∀ (j : Nat) (h : j < 32), j ≠ d.config.pclkPin.toNat → t.pins[j] = s.pins[j]) ∧
      (∀ v, e = .data v ∨ e = .releaseData →
        ∀ (j : Nat) (h : j < 32), d.config.isDataPin j = false → t.pins[j] = s.pins[j]) ∧
      (e = .releaseData → ∀ (j : Nat) (h : j < 32), d.config.isDataPin j = true → t.pins[j] = none) ∧
      (e = .stop → t.pins = s.pins) ∧
      ((s.senPos = .rest → s.syncsInactive d.config = true) → t.senPos = .rest → t.syncsInactive d.config = true)

/-- A value on the data pins is read back line by line: D`i` is pin `data_pin_base + i` and carries bit `i`
(R21, R67), and a sample of all the lines is the value's low bits. -/
def Obligations.DataLinesCarryTheirBits : Prop :=
  ∀ (s : State) (d : Session) (v : Byte), s.params.admitted = true → s.nextMove = .sen (.data v) →
    s.session = some d → SessionSound s.params d →
    ∃ t, step s = .next t ∧
      (∀ i, i < d.config.dataBits.toNat → t.pinLevel (d.config.dataPinBase.toNat + i) = v.getLsbD i) ∧
      t.sample d.config.dataPinBase.toNat d.config.dataBits.toNat = v.toNat % 2 ^ d.config.dataBits.toNat

/-- What the waveform contract asks of SEN's events. Every hsync change that keeps it finds pclk at its inactive level
(R224), wherever SEN stands, a line cut by a stop included; a line begins from hsync inactive, and a line that ends has
had its border and live strobes when it is a live line (R223, R227). An event on a signal that keeps it and changes a
pin has that pin to itself, so a configuration whose pins coincide cannot satisfy it (R22). The position is the model's
record (log 23). -/
def Obligations.ContractBindsSensorEvents : Prop :=
  ∀ (s t : State) (d : Session) (n k : Nat), s.session = some d → step s = .next t → t.senPos ≠ .broken →
    (∀ active, s.nextMove = .sen (.drive .hsync active) → s.signalIs d.config .hsync (!active) = true →
      s.signalIs d.config .pclk false = true) ∧
    (s.nextMove = .sen (.drive .hsync true) → s.senPos = .frame n →
      s.signalIs d.config .pclk false = true ∧ s.signalIs d.config .hsync false = true ∧ t.senPos = .line n 0) ∧
    (s.nextMove = .sen (.drive .hsync false) → s.senPos = .line n k →
      s.signalIs d.config .pclk false = true ∧ t.senPos = .frame (n + 1) ∧
      (d.mode.borderPx ≤ n → n < d.mode.borderPx + d.config.height →
        (d.mode.borderPx + d.config.width) * d.mode.ppc ≤ k)) ∧
    (∀ sig active, s.nextMove = .sen (.drive sig active) → t.pins ≠ s.pins →
      (∀ sig', sig' ≠ sig → d.config.pin sig' ≠ d.config.pin sig) ∧
        d.config.isDataPin (d.config.pin sig).toNat = false)

/-! ## Rules of the whole machine -/

/-- Faults are never cleared (R240): whatever steps next, what was recorded stays recorded. -/
def Obligations.FaultsNeverCleared : Prop :=
  ∀ s t : State, step s = .next t → ∀ f, f ∈ s.faults → f ∈ t.faults

/-- BUSLOG grows only by the two streaming writes of `read_frame` (R42): one entry at F8, one at F12. -/
def Obligations.BusLogGrowsOnlyAtF8AndF12 : Prop :=
  ∀ s t : State, step s = .next t →
    t.busLog = s.busLog ∨
    ((∃ a b, s.nextMove = .fco a b) ∧ (s.phase = .f8 ∨ s.phase = .f12) ∧ ∃ e, t.busLog = s.busLog ++ [e])

/-- The configuration is written once per instance (R20, R23, R24): no step changes the parameters, an `init` writes the
records only where there are none, and only `deinit` discards them. That State carries the parameters (log 8, log 9) and
that the machine after a `deinit` serves as the next instance (log 14) are the model's. -/
def Obligations.ConfigurationIsFixed : Prop :=
  ∀ s t : State, StateInv s → step s = .next t →
    t.params = s.params ∧
    (t.session = s.session ∨ (s.session = none ∧ ∃ r m, s.nextMove = .host (.init r m)) ∨
      (t.session = none ∧ s.nextMove = .host .deinit))

/-- Who writes `life` and STREAMING (R25, R40): `life` changes only in `init`, to READY or FAILED, and in `deinit`, to
RELEASED; STREAMING changes only by a delivered write, to 1 at F8 and to 0 at F12, and to 0 by the middle of an `init`.
That an `init` whose middle fails leaves STREAMING as it was is the model's choice, R256 and U9 calling that state
unreadable (log 34). -/
def Obligations.LifeAndStreamingHaveTheirWriters : Prop :=
  ∀ s t : State, step s = .next t →
    (t.life ≠ s.life →
      ((∃ r m, s.nextMove = .host (.init r m)) ∧ (t.life = .ready ∨ t.life = .failed)) ∨
      (s.nextMove = .host .deinit ∧ t.life = .released)) ∧
    (t.streaming ≠ s.streaming →
      ((∃ a, s.nextMove = .fco a true) ∧
        ((s.phase = .f8 ∧ t.streaming = true) ∨ (s.phase = .f12 ∧ t.streaming = false))) ∨
      ((∃ r, s.nextMove = .host (.init r .ok)) ∧ t.streaming = false))

/-- IMEM is written only by a load, and only while the executor is disabled, or by `deinit` (R61, R79): no instruction,
no transfer and no sensor event writes it. -/
def Obligations.ImemWrittenOnlyByLoad : Prop :=
  ∀ s t : State, step s = .next t → t.imem ≠ s.imem →
    s.nextMove = .host .deinit ∨
    (s.en = false ∧
      (((∃ a b, s.nextMove = .fco a b) ∧ s.phase = .f2) ∨ (∃ r m, s.nextMove = .host (.init r m)) ∨
        ∃ p, s.nextMove = .host (.collaborator (.loadProgram p))))

/-- The frame buffer is written only by BTE (R60, R64): every byte of memory reads as before, but for the one byte a BTE
step moves. -/
def Obligations.BufferWrittenOnlyByBte : Prop :=
  ∀ (s t : State) (a : Nat), step s = .next t → t.mem.read a ≠ s.mem.read a →
    s.nextMove = .bte ∧ s.active = true ∧ a = s.dstBase + s.dst ∧ t.dst = s.dst + 1

/-- Under the invariants the machine never stops with a fault, and refuses only a HOST call made while a `read_frame`
runs (R181) and an `init` of an instance that is READY or FAILED (R159, R257, log 14): every other step answers next, one
that records a fault included (log 3). -/
def Obligations.OnlyRefusedCallsStopTheMachine : Prop :=
  ∀ s : State, StateInv s → DriverInv s →
    (∃ t, step s = .next t) ∨
    (step s = .refused .overlappingOperation ∧ s.nextMove.isHost = true ∧ s.phase ≠ .idle) ∨
    (step s = .refused .instanceUsed ∧ (∃ r m, s.nextMove = .host (.init r m)) ∧ (s.life = .ready ∨ s.life = .failed))

/-! ## Invariants -/

/-- Power-on (R271). -/
def Obligations.PowerOnState : Prop :=
  State.reset.life = .uninit ∧ State.reset.en = false ∧ State.reset.loaded = false ∧
  (∀ (k : Nat) (h : k < 32), State.reset.imem[k] = none) ∧
  State.reset.claimed = false ∧ State.reset.active = false ∧ State.reset.done = false ∧
  State.reset.phase = .idle ∧ State.reset.streaming = false

/-- The machine's invariant holds at power-on, with the parameters at the values R4 gives, where every word the decoder
reads is an instruction of the executor. What R271 leaves unspecified has the values the model chose: ISRCNT, OQ and PQ
(log 4), DST, REMAIN and count (log 5), the absent records (log 6). That the parameters are a record in State (log 8),
and which are admitted (log 9), are the model's too. -/
def Obligations.StateInvAtReset : Prop :=
  StateInv State.reset ∧ ∀ p : Params, p = State.reset.params →
    (p.instrW = 16 ∧ p.progMax = 32 ∧ p.nPins = 32 ∧ p.nCtr = 2 ∧ p.ctrW = 32 ∧ p.immW = 11 ∧ p.isrW = 8 ∧
      p.oqDepth = 4 ∧ p.pqDepth = 4 ∧ p.shiftMsbFirst = true ∧ p.loadOffset = 0) ∧
    p.presets = [(320, 320), (320, 240), (160, 120)] ∧ (∀ sig, p.active sig = true) ∧
    ∀ (w : Word) (i : Instr), p.instrOf w = some i ↔ decode w = .ok i

/-- Every step of every agent keeps the machine's invariant: the parameters as admitted, the memory's canonical form,
the queues within their depths, the counters within CTR_W, ISR and ISRCNT within ISR_W, the transfer's count and its
record, legal words in IMEM, and the records as `init` made them, none before it. -/
def Obligations.StateInvKept : Prop :=
  ∀ s t : State, StateInv s → step s = .next t → StateInv t

/-- The driver's invariant holds at power-on; that no call is in flight is the model's field (log 38). -/
def Obligations.DriverInvAtReset : Prop := DriverInv State.reset

/-- Every step but a collaborator call of HOST's own keeps the driver's invariant (R183 to R204). -/
def Obligations.DriverInvKept : Prop :=
  ∀ s t : State, StateInv s → DriverInv s → s.nextMove.isCollaborator = false → step s = .next t → DriverInv t

/-- The reload of F2 establishes the capture invariant where SYN's absolute targets are those of the load (R75). -/
def Obligations.ReloadEstablishesCapture : Prop :=
  ∀ (s t : State) (d : Session) (a b : Bool), s.session = some d → SessionSound s.params d → s.en = false →
    s.params.runsSynth = true → s.params.loadOffset = 0 →
    s.nextMove = .fco a b → s.phase = .f2 → step s = .next t → CaptureInv t d

/-- Every step but a HOST call keeps the capture invariant: SYN's program stays inside its 17 slots with every counter
written before it is read and whole samples in ISR (R128, R162, R248). -/
def Obligations.CaptureInvKept : Prop :=
  ∀ (s t : State) (d : Session), CaptureInv s d → s.nextMove.isHost = false → step s = .next t → CaptureInv t d

/-- No TPX fault can occur in SYN's program (R247 to R249): under the capture invariant a TPX step answers next and
records nothing. -/
def Obligations.SynthProgramNeverFaults : Prop :=
  ∀ (s : State) (d : Session), CaptureInv s d → s.nextMove = .tpx → ∃ t, step s = .next t ∧ t.faults = s.faults

/-! ## Loops and the capture of live strobes -/

/-- A JNZ that is its own target repeats until the counter is 0 (R127): N times for a counter of N, 2^CTR_W times for a
counter of 0, and then `pc` goes to its successor. That a CTR_W other than 32 takes its place, and which words are
legal there, are the model's (log 9). -/
def Obligations.SelfLoopCountsDown : Prop :=
  ∀ (s : State) (v : Count) (n : Nat) (rest : List Move), s.params.admitted = true → s.loaded = true → s.en = true →
    s.params.instrW = 16 → v.toNat < 2 ^ s.params.ctrW →
    n = (if v = 0 then 2 ^ s.params.ctrW else v.toNat) → s.agenda = List.replicate n .tpx ++ rest →
    ((Instr.jnz .c0 s.pc).fits s.params = true → s.imem[s.pc.toNat]'(s.pc.isLt) = some (encode (.jnz .c0 s.pc)) →
      s.c0 = some v →
      Sys2Proof.core.run n s = .next { s with
        c0 := some 0, pc := if s.pc = s.wrapTop then s.wrapTarget else s.pc + 1, agenda := rest, tick := s.tick + n }) ∧
    ((Instr.jnz .c1 s.pc).fits s.params = true → s.imem[s.pc.toNat]'(s.pc.isLt) = some (encode (.jnz .c1 s.pc)) →
      s.c1 = some v →
      Sys2Proof.core.run n s = .next { s with
        c1 := some 0, pc := if s.pc = s.wrapTop then s.wrapTarget else s.pc + 1, agenda := rest, tick := s.tick + n })

/-- The live part of a line under keep-up (R66, R68, R162 state 3d, R163, R226, R284): from slot 12 with the line's
strobes counted in C0, the strobes of a line of pixels put exactly those pixels' values in the next bytes of the
buffer, in order, at every data width, touch no other byte, and leave TPX at slot 16 with C0 at 0 and nothing over in
ISR or OQ. -/
def Obligations.LiveStrobesFillTheBuffer : Prop :=
  ∀ (s : State) (d : Session) (pixels : List (List Byte)) (rest : List Move), AtLiveStrobe s d →
    pixels ≠ [] → (∀ px ∈ pixels, px.length = d.mode.ppc) → pixels.length ≤ s.remain →
    pixels.length * d.mode.ppc < 2 ^ s.params.ctrW → s.c0 = some (BitVec.ofNat 32 (pixels.length * d.mode.ppc)) →
    s.agenda = pixels.flatten.flatMap strobeMoves ++ rest →
    ∃ t, Sys2Proof.core.run (8 * (pixels.length * d.mode.ppc)) s = .next t ∧
      t.pc = 16 ∧ t.c0 = some 0 ∧ t.isr = 0 ∧ t.isrcnt = 0 ∧ t.oq = [] ∧ t.agenda = rest ∧
      t.dst = s.dst + pixels.length ∧ t.remain = s.remain - pixels.length ∧ t.faults = s.faults ∧
      ∀ a, t.mem.read a =
        match (if s.dstBase + s.dst ≤ a then pixels[a - (s.dstBase + s.dst)]? else none) with
        | some px =>
          some (BitVec.ofNat 8 (pixelValue d.config.dataBits.toNat (px.map (chunkOf d.config.dataBits.toNat))))
        | none => s.mem.read a
end

