-- ==== Sys2Proof/Laws/State.lean ====
section
/-! SUPPORT. What the small updates of State leave and change, field by field, so that later proofs need not unfold
them. -/

namespace Sys2Proof.Machine.State

/-! ### `consume` changes the agenda and the tick -/

@[simp] theorem consume_params (s : State) : (s.consume).params = s.params := rfl
@[simp] theorem consume_c0 (s : State) : (s.consume).c0 = s.c0 := rfl
@[simp] theorem consume_c1 (s : State) : (s.consume).c1 = s.c1 := rfl
@[simp] theorem consume_pc (s : State) : (s.consume).pc = s.pc := rfl
@[simp] theorem consume_en (s : State) : (s.consume).en = s.en := rfl
@[simp] theorem consume_loaded (s : State) : (s.consume).loaded = s.loaded := rfl
@[simp] theorem consume_wrapTarget (s : State) : (s.consume).wrapTarget = s.wrapTarget := rfl
@[simp] theorem consume_wrapTop (s : State) : (s.consume).wrapTop = s.wrapTop := rfl
@[simp] theorem consume_imem (s : State) : (s.consume).imem = s.imem := rfl
@[simp] theorem consume_isr (s : State) : (s.consume).isr = s.isr := rfl
@[simp] theorem consume_isrcnt (s : State) : (s.consume).isrcnt = s.isrcnt := rfl
@[simp] theorem consume_param (s : State) : (s.consume).param = s.param := rfl
@[simp] theorem consume_oq (s : State) : (s.consume).oq = s.oq := rfl
@[simp] theorem consume_pq (s : State) : (s.consume).pq = s.pq := rfl
@[simp] theorem consume_claimed (s : State) : (s.consume).claimed = s.claimed := rfl
@[simp] theorem consume_active (s : State) : (s.consume).active = s.active := rfl
@[simp] theorem consume_done (s : State) : (s.consume).done = s.done := rfl
@[simp] theorem consume_dst (s : State) : (s.consume).dst = s.dst := rfl
@[simp] theorem consume_remain (s : State) : (s.consume).remain = s.remain := rfl
@[simp] theorem consume_dstBase (s : State) : (s.consume).dstBase = s.dstBase := rfl
@[simp] theorem consume_count (s : State) : (s.consume).count = s.count := rfl
@[simp] theorem consume_moved (s : State) : (s.consume).moved = s.moved := rfl
@[simp] theorem consume_srcIncrement (s : State) : (s.consume).srcIncrement = s.srcIncrement := rfl
@[simp] theorem consume_dstIncrement (s : State) : (s.consume).dstIncrement = s.dstIncrement := rfl
@[simp] theorem consume_trigger (s : State) : (s.consume).trigger = s.trigger := rfl
@[simp] theorem consume_phase (s : State) : (s.consume).phase = s.phase := rfl
@[simp] theorem consume_buf (s : State) : (s.consume).buf = s.buf := rfl
@[simp] theorem consume_len (s : State) : (s.consume).len = s.len := rfl
@[simp] theorem consume_life (s : State) : (s.consume).life = s.life := rfl
@[simp] theorem consume_session (s : State) : (s.consume).session = s.session := rfl
@[simp] theorem consume_streaming (s : State) : (s.consume).streaming = s.streaming := rfl
@[simp] theorem consume_pins (s : State) : (s.consume).pins = s.pins := rfl
@[simp] theorem consume_senPos (s : State) : (s.consume).senPos = s.senPos := rfl
@[simp] theorem consume_senFrames (s : State) : (s.consume).senFrames = s.senFrames := rfl
@[simp] theorem consume_mem (s : State) : (s.consume).mem = s.mem := rfl
@[simp] theorem consume_pending (s : State) : (s.consume).pending = s.pending := rfl
@[simp] theorem consume_busLog (s : State) : (s.consume).busLog = s.busLog := rfl
@[simp] theorem consume_returned (s : State) : (s.consume).returned = s.returned := rfl
@[simp] theorem consume_faults (s : State) : (s.consume).faults = s.faults := rfl
@[simp] theorem consume_agenda (s : State) : (s.consume).agenda = s.agenda.tail := rfl
@[simp] theorem consume_tick (s : State) : (s.consume).tick = s.tick + 1 := rfl

/-! ### `advance` changes the program counter -/

@[simp] theorem advance_params (s : State) : (s.advance).params = s.params := rfl
@[simp] theorem advance_c0 (s : State) : (s.advance).c0 = s.c0 := rfl
@[simp] theorem advance_c1 (s : State) : (s.advance).c1 = s.c1 := rfl
@[simp] theorem advance_pc (s : State) : (s.advance).pc = s.nextPc := rfl
@[simp] theorem advance_en (s : State) : (s.advance).en = s.en := rfl
@[simp] theorem advance_loaded (s : State) : (s.advance).loaded = s.loaded := rfl
@[simp] theorem advance_wrapTarget (s : State) : (s.advance).wrapTarget = s.wrapTarget := rfl
@[simp] theorem advance_wrapTop (s : State) : (s.advance).wrapTop = s.wrapTop := rfl
@[simp] theorem advance_imem (s : State) : (s.advance).imem = s.imem := rfl
@[simp] theorem advance_isr (s : State) : (s.advance).isr = s.isr := rfl
@[simp] theorem advance_isrcnt (s : State) : (s.advance).isrcnt = s.isrcnt := rfl
@[simp] theorem advance_param (s : State) : (s.advance).param = s.param := rfl
@[simp] theorem advance_oq (s : State) : (s.advance).oq = s.oq := rfl
@[simp] theorem advance_pq (s : State) : (s.advance).pq = s.pq := rfl
@[simp] theorem advance_claimed (s : State) : (s.advance).claimed = s.claimed := rfl
@[simp] theorem advance_active (s : State) : (s.advance).active = s.active := rfl
@[simp] theorem advance_done (s : State) : (s.advance).done = s.done := rfl
@[simp] theorem advance_dst (s : State) : (s.advance).dst = s.dst := rfl
@[simp] theorem advance_remain (s : State) : (s.advance).remain = s.remain := rfl
@[simp] theorem advance_dstBase (s : State) : (s.advance).dstBase = s.dstBase := rfl
@[simp] theorem advance_count (s : State) : (s.advance).count = s.count := rfl
@[simp] theorem advance_moved (s : State) : (s.advance).moved = s.moved := rfl
@[simp] theorem advance_srcIncrement (s : State) : (s.advance).srcIncrement = s.srcIncrement := rfl
@[simp] theorem advance_dstIncrement (s : State) : (s.advance).dstIncrement = s.dstIncrement := rfl
@[simp] theorem advance_trigger (s : State) : (s.advance).trigger = s.trigger := rfl
@[simp] theorem advance_phase (s : State) : (s.advance).phase = s.phase := rfl
@[simp] theorem advance_buf (s : State) : (s.advance).buf = s.buf := rfl
@[simp] theorem advance_len (s : State) : (s.advance).len = s.len := rfl
@[simp] theorem advance_life (s : State) : (s.advance).life = s.life := rfl
@[simp] theorem advance_session (s : State) : (s.advance).session = s.session := rfl
@[simp] theorem advance_streaming (s : State) : (s.advance).streaming = s.streaming := rfl
@[simp] theorem advance_pins (s : State) : (s.advance).pins = s.pins := rfl
@[simp] theorem advance_senPos (s : State) : (s.advance).senPos = s.senPos := rfl
@[simp] theorem advance_senFrames (s : State) : (s.advance).senFrames = s.senFrames := rfl
@[simp] theorem advance_mem (s : State) : (s.advance).mem = s.mem := rfl
@[simp] theorem advance_pending (s : State) : (s.advance).pending = s.pending := rfl
@[simp] theorem advance_busLog (s : State) : (s.advance).busLog = s.busLog := rfl
@[simp] theorem advance_returned (s : State) : (s.advance).returned = s.returned := rfl
@[simp] theorem advance_faults (s : State) : (s.advance).faults = s.faults := rfl
@[simp] theorem advance_agenda (s : State) : (s.advance).agenda = s.agenda := rfl
@[simp] theorem advance_tick (s : State) : (s.advance).tick = s.tick := rfl

/-! ### `setCounter` changes a counter -/

@[simp] theorem setCounter_params (s : State) (c : Counter) (v : Count) : (s.setCounter c v).params = s.params := by cases c <;> rfl
@[simp] theorem setCounter_pc (s : State) (c : Counter) (v : Count) : (s.setCounter c v).pc = s.pc := by cases c <;> rfl
@[simp] theorem setCounter_en (s : State) (c : Counter) (v : Count) : (s.setCounter c v).en = s.en := by cases c <;> rfl
@[simp] theorem setCounter_loaded (s : State) (c : Counter) (v : Count) : (s.setCounter c v).loaded = s.loaded := by cases c <;> rfl
@[simp] theorem setCounter_wrapTarget (s : State) (c : Counter) (v : Count) : (s.setCounter c v).wrapTarget = s.wrapTarget := by cases c <;> rfl
@[simp] theorem setCounter_wrapTop (s : State) (c : Counter) (v : Count) : (s.setCounter c v).wrapTop = s.wrapTop := by cases c <;> rfl
@[simp] theorem setCounter_imem (s : State) (c : Counter) (v : Count) : (s.setCounter c v).imem = s.imem := by cases c <;> rfl
@[simp] theorem setCounter_isr (s : State) (c : Counter) (v : Count) : (s.setCounter c v).isr = s.isr := by cases c <;> rfl
@[simp] theorem setCounter_isrcnt (s : State) (c : Counter) (v : Count) : (s.setCounter c v).isrcnt = s.isrcnt := by cases c <;> rfl
@[simp] theorem setCounter_param (s : State) (c : Counter) (v : Count) : (s.setCounter c v).param = s.param := by cases c <;> rfl
@[simp] theorem setCounter_oq (s : State) (c : Counter) (v : Count) : (s.setCounter c v).oq = s.oq := by cases c <;> rfl
@[simp] theorem setCounter_pq (s : State) (c : Counter) (v : Count) : (s.setCounter c v).pq = s.pq := by cases c <;> rfl
@[simp] theorem setCounter_claimed (s : State) (c : Counter) (v : Count) : (s.setCounter c v).claimed = s.claimed := by cases c <;> rfl
@[simp] theorem setCounter_active (s : State) (c : Counter) (v : Count) : (s.setCounter c v).active = s.active := by cases c <;> rfl
@[simp] theorem setCounter_done (s : State) (c : Counter) (v : Count) : (s.setCounter c v).done = s.done := by cases c <;> rfl
@[simp] theorem setCounter_dst (s : State) (c : Counter) (v : Count) : (s.setCounter c v).dst = s.dst := by cases c <;> rfl
@[simp] theorem setCounter_remain (s : State) (c : Counter) (v : Count) : (s.setCounter c v).remain = s.remain := by cases c <;> rfl
@[simp] theorem setCounter_dstBase (s : State) (c : Counter) (v : Count) : (s.setCounter c v).dstBase = s.dstBase := by cases c <;> rfl
@[simp] theorem setCounter_count (s : State) (c : Counter) (v : Count) : (s.setCounter c v).count = s.count := by cases c <;> rfl
@[simp] theorem setCounter_moved (s : State) (c : Counter) (v : Count) : (s.setCounter c v).moved = s.moved := by cases c <;> rfl
@[simp] theorem setCounter_srcIncrement (s : State) (c : Counter) (v : Count) : (s.setCounter c v).srcIncrement = s.srcIncrement := by cases c <;> rfl
@[simp] theorem setCounter_dstIncrement (s : State) (c : Counter) (v : Count) : (s.setCounter c v).dstIncrement = s.dstIncrement := by cases c <;> rfl
@[simp] theorem setCounter_trigger (s : State) (c : Counter) (v : Count) : (s.setCounter c v).trigger = s.trigger := by cases c <;> rfl
@[simp] theorem setCounter_phase (s : State) (c : Counter) (v : Count) : (s.setCounter c v).phase = s.phase := by cases c <;> rfl
@[simp] theorem setCounter_buf (s : State) (c : Counter) (v : Count) : (s.setCounter c v).buf = s.buf := by cases c <;> rfl
@[simp] theorem setCounter_len (s : State) (c : Counter) (v : Count) : (s.setCounter c v).len = s.len := by cases c <;> rfl
@[simp] theorem setCounter_life (s : State) (c : Counter) (v : Count) : (s.setCounter c v).life = s.life := by cases c <;> rfl
@[simp] theorem setCounter_session (s : State) (c : Counter) (v : Count) : (s.setCounter c v).session = s.session := by cases c <;> rfl
@[simp] theorem setCounter_streaming (s : State) (c : Counter) (v : Count) : (s.setCounter c v).streaming = s.streaming := by cases c <;> rfl
@[simp] theorem setCounter_pins (s : State) (c : Counter) (v : Count) : (s.setCounter c v).pins = s.pins := by cases c <;> rfl
@[simp] theorem setCounter_senPos (s : State) (c : Counter) (v : Count) : (s.setCounter c v).senPos = s.senPos := by cases c <;> rfl
@[simp] theorem setCounter_senFrames (s : State) (c : Counter) (v : Count) : (s.setCounter c v).senFrames = s.senFrames := by cases c <;> rfl
@[simp] theorem setCounter_mem (s : State) (c : Counter) (v : Count) : (s.setCounter c v).mem = s.mem := by cases c <;> rfl
@[simp] theorem setCounter_pending (s : State) (c : Counter) (v : Count) : (s.setCounter c v).pending = s.pending := by cases c <;> rfl
@[simp] theorem setCounter_busLog (s : State) (c : Counter) (v : Count) : (s.setCounter c v).busLog = s.busLog := by cases c <;> rfl
@[simp] theorem setCounter_returned (s : State) (c : Counter) (v : Count) : (s.setCounter c v).returned = s.returned := by cases c <;> rfl
@[simp] theorem setCounter_faults (s : State) (c : Counter) (v : Count) : (s.setCounter c v).faults = s.faults := by cases c <;> rfl
@[simp] theorem setCounter_agenda (s : State) (c : Counter) (v : Count) : (s.setCounter c v).agenda = s.agenda := by cases c <;> rfl
@[simp] theorem setCounter_tick (s : State) (c : Counter) (v : Count) : (s.setCounter c v).tick = s.tick := by cases c <;> rfl

/-! ### `raise` changes the record of faults -/

@[simp] theorem raise_params (s : State) (f : Fault) : (s.raise f).params = s.params := by unfold raise; split <;> rfl
@[simp] theorem raise_c0 (s : State) (f : Fault) : (s.raise f).c0 = s.c0 := by unfold raise; split <;> rfl
@[simp] theorem raise_c1 (s : State) (f : Fault) : (s.raise f).c1 = s.c1 := by unfold raise; split <;> rfl
@[simp] theorem raise_pc (s : State) (f : Fault) : (s.raise f).pc = s.pc := by unfold raise; split <;> rfl
@[simp] theorem raise_en (s : State) (f : Fault) : (s.raise f).en = s.en := by unfold raise; split <;> rfl
@[simp] theorem raise_loaded (s : State) (f : Fault) : (s.raise f).loaded = s.loaded := by unfold raise; split <;> rfl
@[simp] theorem raise_wrapTarget (s : State) (f : Fault) : (s.raise f).wrapTarget = s.wrapTarget := by unfold raise; split <;> rfl
@[simp] theorem raise_wrapTop (s : State) (f : Fault) : (s.raise f).wrapTop = s.wrapTop := by unfold raise; split <;> rfl
@[simp] theorem raise_imem (s : State) (f : Fault) : (s.raise f).imem = s.imem := by unfold raise; split <;> rfl
@[simp] theorem raise_isr (s : State) (f : Fault) : (s.raise f).isr = s.isr := by unfold raise; split <;> rfl
@[simp] theorem raise_isrcnt (s : State) (f : Fault) : (s.raise f).isrcnt = s.isrcnt := by unfold raise; split <;> rfl
@[simp] theorem raise_param (s : State) (f : Fault) : (s.raise f).param = s.param := by unfold raise; split <;> rfl
@[simp] theorem raise_oq (s : State) (f : Fault) : (s.raise f).oq = s.oq := by unfold raise; split <;> rfl
@[simp] theorem raise_pq (s : State) (f : Fault) : (s.raise f).pq = s.pq := by unfold raise; split <;> rfl
@[simp] theorem raise_claimed (s : State) (f : Fault) : (s.raise f).claimed = s.claimed := by unfold raise; split <;> rfl
@[simp] theorem raise_active (s : State) (f : Fault) : (s.raise f).active = s.active := by unfold raise; split <;> rfl
@[simp] theorem raise_done (s : State) (f : Fault) : (s.raise f).done = s.done := by unfold raise; split <;> rfl
@[simp] theorem raise_dst (s : State) (f : Fault) : (s.raise f).dst = s.dst := by unfold raise; split <;> rfl
@[simp] theorem raise_remain (s : State) (f : Fault) : (s.raise f).remain = s.remain := by unfold raise; split <;> rfl
@[simp] theorem raise_dstBase (s : State) (f : Fault) : (s.raise f).dstBase = s.dstBase := by unfold raise; split <;> rfl
@[simp] theorem raise_count (s : State) (f : Fault) : (s.raise f).count = s.count := by unfold raise; split <;> rfl
@[simp] theorem raise_moved (s : State) (f : Fault) : (s.raise f).moved = s.moved := by unfold raise; split <;> rfl
@[simp] theorem raise_srcIncrement (s : State) (f : Fault) : (s.raise f).srcIncrement = s.srcIncrement := by unfold raise; split <;> rfl
@[simp] theorem raise_dstIncrement (s : State) (f : Fault) : (s.raise f).dstIncrement = s.dstIncrement := by unfold raise; split <;> rfl
@[simp] theorem raise_trigger (s : State) (f : Fault) : (s.raise f).trigger = s.trigger := by unfold raise; split <;> rfl
@[simp] theorem raise_phase (s : State) (f : Fault) : (s.raise f).phase = s.phase := by unfold raise; split <;> rfl
@[simp] theorem raise_buf (s : State) (f : Fault) : (s.raise f).buf = s.buf := by unfold raise; split <;> rfl
@[simp] theorem raise_len (s : State) (f : Fault) : (s.raise f).len = s.len := by unfold raise; split <;> rfl
@[simp] theorem raise_life (s : State) (f : Fault) : (s.raise f).life = s.life := by unfold raise; split <;> rfl
@[simp] theorem raise_session (s : State) (f : Fault) : (s.raise f).session = s.session := by unfold raise; split <;> rfl
@[simp] theorem raise_streaming (s : State) (f : Fault) : (s.raise f).streaming = s.streaming := by unfold raise; split <;> rfl
@[simp] theorem raise_pins (s : State) (f : Fault) : (s.raise f).pins = s.pins := by unfold raise; split <;> rfl
@[simp] theorem raise_senPos (s : State) (f : Fault) : (s.raise f).senPos = s.senPos := by unfold raise; split <;> rfl
@[simp] theorem raise_senFrames (s : State) (f : Fault) : (s.raise f).senFrames = s.senFrames := by unfold raise; split <;> rfl
@[simp] theorem raise_mem (s : State) (f : Fault) : (s.raise f).mem = s.mem := by unfold raise; split <;> rfl
@[simp] theorem raise_pending (s : State) (f : Fault) : (s.raise f).pending = s.pending := by unfold raise; split <;> rfl
@[simp] theorem raise_busLog (s : State) (f : Fault) : (s.raise f).busLog = s.busLog := by unfold raise; split <;> rfl
@[simp] theorem raise_returned (s : State) (f : Fault) : (s.raise f).returned = s.returned := by unfold raise; split <;> rfl
@[simp] theorem raise_agenda (s : State) (f : Fault) : (s.raise f).agenda = s.agenda := by unfold raise; split <;> rfl
@[simp] theorem raise_tick (s : State) (f : Fault) : (s.raise f).tick = s.tick := by unfold raise; split <;> rfl

@[simp] theorem setCounter_counter (s : State) (c : Counter) (v : Count) : (s.setCounter c v).counter c = some v := by
  cases c <;> rfl

theorem setCounter_counter_other (s : State) (c c' : Counter) (v : Count) (h : c' ≠ c) :
    (s.setCounter c v).counter c' = s.counter c' := by
  cases c <;> cases c' <;> first | rfl | exact absurd rfl h

theorem setCounter_c0 (s : State) (c : Counter) (v : Count) :
    (s.setCounter c v).c0 = if c = .c0 then some v else s.c0 := by
  cases c <;> rfl

theorem setCounter_c1 (s : State) (c : Counter) (v : Count) :
    (s.setCounter c v).c1 = if c = .c1 then some v else s.c1 := by
  cases c <;> rfl

@[simp] theorem advance_counter (s : State) (c : Counter) : s.advance.counter c = s.counter c := by cases c <;> rfl

@[simp] theorem consume_counter (s : State) (c : Counter) : s.consume.counter c = s.counter c := by cases c <;> rfl

@[simp] theorem setCounter_nextPc (s : State) (c : Counter) (v : Count) : (s.setCounter c v).nextPc = s.nextPc := by
  cases c <;> rfl

@[simp] theorem consume_nextPc (s : State) : s.consume.nextPc = s.nextPc := rfl

@[simp] theorem consume_slot (s : State) : s.consume.slot = s.slot := rfl

@[simp] theorem consume_fetch (s : State) : s.consume.fetch = s.fetch := rfl

@[simp] theorem consume_tpxRuns (s : State) : s.consume.tpxRuns = s.tpxRuns := rfl

@[simp] theorem consume_bteRuns (s : State) : s.consume.bteRuns = s.bteRuns := rfl

/-- A raised fault stands in the record, and what stood there stands there still (R240). -/
theorem mem_raise_faults (s : State) (f g : Fault) : g ∈ (s.raise f).faults ↔ g = f ∨ g ∈ s.faults := by
  unfold raise
  split
  · constructor
    · exact .inr
    · rintro (rfl | h) <;> assumption
  · simp [or_comm]

/-- Raising a fault changes the record and nothing else (R256). -/
theorem raise_eq (s : State) (f : Fault) : s.raise f = { s with faults := (s.raise f).faults } := by
  unfold raise; split <;> rfl

end Sys2Proof.Machine.State
end

