-- ==== Sys2Proof/Laws/Exec.lean ====
section
/-! SUPPORT. What each instruction can do, said once: exec always answers a next state, and the next state is one of
those listed. Proofs cite these instead of unfolding the meanings. -/

namespace Sys2Proof.Machine

/-- An outcome that is a next state determines it. -/
@[simp] theorem next_inj {s t : State} :
    (Host.Outcome.next s : Host.Outcome State Fault Refusal) = .next t ↔ s = t :=
  ⟨fun h => by injection h, fun h => by rw [h]⟩

/-- WAIT: completes at its level, holds at the other (R124). -/
theorem exec_wait_cases {level : Bool} {pin : PinIndex} {s t : State} (h : exec (.wait level pin) s = .next t) :
    (s.pinLevel pin.toNat = level ∧ t = s.advance) ∨ (s.pinLevel pin.toNat ≠ level ∧ t = s) := by
  simp only [exec, execWait, next_inj] at h
  split at h
  · exact .inl ⟨‹_›, h.symm⟩
  · exact .inr ⟨‹_›, h.symm⟩

/-- SETC: loads the immediate (R125). -/
theorem exec_setc_eq (c : Counter) (imm : BitVec 11) (s : State) :
    exec (.setc c imm) s = .next (s.setCounter c (immediate s.params imm)).advance := rfl

/-- LATCH: takes a queued word, or copies the present parameter, or holds (R126). -/
theorem exec_latch_cases {c : Counter} {s t : State} (h : exec (.latch c) s = .next t) :
    (∃ v rest, s.pq = v :: rest ∧
      t = ((({ s with param := some v, pq := rest } : State).setCounter c v).advance)) ∨
    (s.pq = [] ∧ ∃ v, s.param = some v ∧ t = (s.setCounter c v).advance) ∨
    (s.pq = [] ∧ s.param = none ∧ t = s) := by
  simp only [exec, execLatch, next_inj] at h
  cases hq : s.pq with
  | cons v rest => exact .inl ⟨v, rest, rfl, by simpa [State.latchParameter, State.latchCopy, hq] using h.symm⟩
  | nil =>
    cases hp : s.param with
    | some v => exact .inr (.inl ⟨rfl, v, rfl, by simpa [State.latchParameter, State.latchCopy, hq, hp] using h.symm⟩)
    | none => exact .inr (.inr ⟨rfl, rfl, by simpa [State.latchParameter, State.latchCopy, hq, hp] using h.symm⟩)

/-- JNZ: raises the fault of an unwritten counter, or counts and jumps, or counts and falls through (R127). -/
theorem exec_jnz_cases {c : Counter} {target : Slot} {s t : State} (h : exec (.jnz c target) s = .next t) :
    (s.counter c = none ∧ t = s.raise (.unwrittenCounter s.pc c)) ∨
    (∃ v, s.counter c = some v ∧ decremented s.params v ≠ 0 ∧
      t = { s.setCounter c (decremented s.params v) with pc := target }) ∨
    (∃ v, s.counter c = some v ∧ decremented s.params v = 0 ∧
      t = (s.setCounter c (decremented s.params v)).advance) := by
  simp only [exec, execJnz, next_inj] at h
  cases hc : s.counter c with
  | none => exact .inl ⟨rfl, by simpa [hc] using h.symm⟩
  | some v =>
    simp only [hc, State.countDown, jumpTaken, decide_eq_true_eq] at h
    by_cases hv : decremented s.params v = 0
    · exact .inr (.inr ⟨v, rfl, hv, by rw [if_neg (not_not.2 hv)] at h; exact h.symm⟩)
    · exact .inr (.inl ⟨v, rfl, hv, by rw [if_pos hv] at h; exact h.symm⟩)

/-- The shift: what it can do (R128). -/
theorem shin_cases (s : State) (i : Instr) (base : PinIndex) (n : Nat) :
    (shinInRange base n = false ∧ s.shin i base n = s.raise (.illegalInstruction s.pc (encode i))) ∨
    (shinInRange base n = true ∧ s.shinHeld n = true ∧ s.shin i base n = s) ∨
    (shinInRange base n = true ∧ s.byteDue n = true ∧ s.oqFull = false ∧
      s.shin i base n =
        State.advance { s with oq := s.oq ++ [s.shifted base.toNat n], isr := 0, isrcnt := 0 }) ∨
    (shinInRange base n = true ∧ s.byteDue n = false ∧
      s.shin i base n =
        State.advance { s with
          isr := s.shifted base.toNat n, isrcnt := BitVec.ofNat 4 (s.isrcnt.toNat + n) }) := by
  unfold State.shin State.shinHeld State.shiftIn
  cases shinInRange base n <;> cases s.byteDue n <;> cases s.oqFull <;> simp

/-- SHIN of one, four and eight lines is the shift of that count. -/
theorem exec_shin_eq (base : PinIndex) (s : State) :
    exec (.shin1 base) s = .next (s.shin (.shin1 base) base 1) ∧
    exec (.shin4 base) s = .next (s.shin (.shin4 base) base 4) ∧
    exec (.shin8 base) s = .next (s.shin (.shin8 base) base 8) := ⟨rfl, rfl, rfl⟩

/-- What any instruction leaves unchanged: everything but TPX's own registers, the two queues and the record of
faults. -/
structure TpxFrame (s t : State) : Prop where
  params : t.params = s.params
  en : t.en = s.en
  loaded : t.loaded = s.loaded
  wrap : t.wrapTarget = s.wrapTarget ∧ t.wrapTop = s.wrapTop
  imem : t.imem = s.imem
  channel : t.claimed = s.claimed ∧ t.active = s.active ∧ t.done = s.done
  transfer : t.dst = s.dst ∧ t.remain = s.remain ∧ t.dstBase = s.dstBase ∧ t.count = s.count
  fixed : t.srcIncrement = s.srcIncrement ∧ t.dstIncrement = s.dstIncrement ∧ t.trigger = s.trigger
  fco : t.phase = s.phase ∧ t.buf = s.buf ∧ t.len = s.len
  driver : t.life = s.life ∧ t.session = s.session
  sensor : t.streaming = s.streaming ∧ t.pins = s.pins ∧ t.senPos = s.senPos ∧ t.senFrames = s.senFrames
  record : t.moved = s.moved ∧ t.pending = s.pending
  outputs : t.mem = s.mem ∧ t.busLog = s.busLog ∧ t.returned = s.returned
  moves : t.agenda = s.agenda ∧ t.tick = s.tick

theorem TpxFrame.refl (s : State) : TpxFrame s s := by constructor <;> simp

/-- A raised fault keeps the frame. -/
theorem TpxFrame.raise (s : State) (f : Fault) : TpxFrame s (s.raise f) := by constructor <;> simp

/-- The shift keeps the frame. -/
theorem TpxFrame.shin (s : State) (i : Instr) (base : PinIndex) (n : Nat) : TpxFrame s (s.shin i base n) := by
  obtain ⟨-, h⟩ | ⟨-, -, h⟩ | ⟨-, -, -, h⟩ | ⟨-, -, h⟩ := shin_cases s i base n <;> rw [h]
  · exact .raise s _
  · exact .refl s
  · constructor <;> simp
  · constructor <;> simp

/-- Every instruction answers a next state and keeps the frame. -/
theorem exec_frame (i : Instr) (s : State) : ∃ t, exec i s = .next t ∧ TpxFrame s t := by
  cases i with
  | wait level pin => exact ⟨_, rfl, by split <;> constructor <;> simp⟩
  | shin1 base => exact ⟨_, rfl, .shin ..⟩
  | shin4 base => exact ⟨_, rfl, .shin ..⟩
  | shin8 base => exact ⟨_, rfl, .shin ..⟩
  | setc c imm => exact ⟨_, rfl, by constructor <;> simp⟩
  | latch c =>
    refine ⟨_, rfl, ?_⟩
    obtain ⟨v, rest, -, h⟩ | ⟨-, v, -, h⟩ | ⟨-, -, h⟩ := exec_latch_cases (c := c) (s := s) rfl <;> rw [h] <;>
      constructor <;> simp
  | jnz c target =>
    refine ⟨_, rfl, ?_⟩
    obtain ⟨-, h⟩ | ⟨v, -, -, h⟩ | ⟨v, -, -, h⟩ := exec_jnz_cases (c := c) (target := target) (s := s) rfl <;> rw [h]
    · exact .raise s _
    · constructor <;> simp
    · constructor <;> simp

end Sys2Proof.Machine
end

