-- ==== Sys2Proof/Laws/Step.lean ====
section
/-! SUPPORT. What a step of each agent can do, said once (inversion lemmas): proofs about the machine cite these instead
of unfolding step. -/

namespace Sys2Proof.Machine

/-- Under admitted parameters the step is the step of the next move's agent (R4, R7). -/
theorem step_eq (s : State) (h : s.params.admitted = true) : step s = s.consume.runMove s.nextMove := by
  simp [step, State.takeMove, h]

/-- A step that answers next is taken under admitted parameters, and is the step of the next move's agent. -/
theorem step_next {s t : State} (h : step s = .next t) :
    s.params.admitted = true ∧ s.consume.runMove s.nextMove = .next t := by
  cases ha : s.params.admitted <;> simp [step, State.takeMove, ha] at h
  exact ⟨rfl, h⟩

/-- A TPX step always answers a next state: idle, the fault of the fetch, or the instruction (R120, R121). -/
theorem tpxStep_cases (s : State) :
    (s.tpxRuns = false ∧ s.tpxStep = .next s) ∨
    (s.tpxRuns = true ∧ ∃ f, s.fetch = .error f ∧ s.tpxStep = .next (s.raise f)) ∨
    (s.tpxRuns = true ∧ ∃ i t, s.fetch = .ok i ∧ exec i s = .next t ∧ TpxFrame s t ∧ s.tpxStep = .next t) := by
  unfold State.tpxStep
  cases hr : s.tpxRuns with
  | false => exact .inl ⟨rfl, rfl⟩
  | true =>
    cases hf : s.fetch with
    | error f => exact .inr (.inl ⟨rfl, f, rfl, rfl⟩)
    | ok i =>
      obtain ⟨t, ht, hfr⟩ := exec_frame i s
      exact .inr (.inr ⟨rfl, i, t, rfl, ht, hfr, ht⟩)

/-- A TPX step keeps the frame of an instruction. -/
theorem tpxStep_frame (s : State) : ∃ t, s.tpxStep = .next t ∧ TpxFrame s t := by
  obtain ⟨-, h⟩ | ⟨-, f, -, h⟩ | ⟨-, i, t, -, -, hf, h⟩ := tpxStep_cases s
  · exact ⟨s, h, .refl s⟩
  · exact ⟨_, h, .raise s f⟩
  · exact ⟨t, h, hf⟩

/-- What a fetch can answer (R121). -/
theorem fetch_cases (s : State) :
    (s.slot = none ∧ s.fetch = .error (.fetchUnloaded s.pc)) ∨
    (∃ w, s.slot = some w ∧ s.params.instrOf w = none ∧ s.fetch = .error (.illegalInstruction s.pc w)) ∨
    (∃ w i, s.slot = some w ∧ s.params.instrOf w = some i ∧ s.fetch = .ok i) := by
  unfold State.fetch
  cases hs : s.slot with
  | none => exact .inl ⟨rfl, rfl⟩
  | some w =>
    cases hi : s.params.instrOf w with
    | none => exact .inr (.inl ⟨w, rfl, hi, by simp [hi]⟩)
    | some i => exact .inr (.inr ⟨w, i, rfl, hi, by simp [hi]⟩)

/-- A BTE step: nothing, one byte moved, or the stop outside the frame buffer (R200). -/
theorem bteStep_cases (s : State) :
    (s.bteRuns = false ∧ s.bteStep = .next s) ∨
    (s.active = true ∧ 0 < s.remain ∧ ∃ b rest, s.oq = b :: rest ∧
      ((s.dst < s.count ∧ s.bteStep = .next
        { s with
          oq := rest
          mem := s.mem.write (s.dstBase + s.dst) b
          moved := s.moved ++ [b]
          dst := s.dst + 1
          remain := s.remain - 1
          active := if s.remain - 1 = 0 then false else s.active
          done := if s.remain - 1 = 0 then true else s.done }) ∨
       (s.count ≤ s.dst ∧ s.bteStep = .fault (.outsideFrameBuffer s.dst s.count)))) := by
  unfold State.bteStep State.transferByte
  cases hr : s.bteRuns with
  | false => exact .inl ⟨rfl, rfl⟩
  | true =>
    have h := hr
    simp only [State.bteRuns, Bool.and_eq_true, decide_eq_true_eq, Bool.not_eq_true'] at h
    obtain ⟨⟨ha, hm⟩, hq⟩ := h
    refine .inr ⟨ha, hm, ?_⟩
    cases hoq : s.oq with
    | nil => simp [hoq] at hq
    | cons b rest =>
      refine ⟨b, rest, rfl, ?_⟩
      by_cases hd : s.dst < s.count
      · exact .inl ⟨hd, by simp [hd]⟩
      · exact .inr ⟨by omega, by simp [hd]⟩

/-- When a HOST call has a meaning (R181, R257): no phase runs, and it is the first try or a retry of the operation in
flight, an `init` being the instance's first. -/
theorem callRefused_none (s : State) (call : HostCall) :
    s.callRefused call = none ↔
      s.phase = .idle ∧ (∀ op, s.pending = some op → call.retries op = true) ∧
        (s.pending = none → ∀ r m, call = .init r m → s.life = .uninit ∨ s.life = .released) := by
  unfold State.callRefused
  by_cases hp : s.phase = .idle
  · cases hq : s.pending with
    | some op => simp [hp]
    | none => cases call <;> simp [hp, or_iff_not_imp_left]
  · simp [hp]

/-- The reasons a HOST call is refused for: an operation in flight, or an `init` of an instance in use. -/
theorem callRefused_some {s : State} {call : HostCall} {why : Refusal} (h : s.callRefused call = some why) :
    (why = .overlappingOperation ∧
      (s.phase ≠ .idle ∨ ∃ op, s.pending = some op ∧ call.retries op = false)) ∨
    (why = .instanceUsed ∧ s.phase = .idle ∧ s.pending = none ∧ (∃ r m, call = .init r m) ∧
      s.life ≠ .uninit ∧ s.life ≠ .released) := by
  unfold State.callRefused at h
  by_cases hp : s.phase = .idle
  · cases hq : s.pending with
    | some op =>
      simp only [hp, ne_eq, not_true_eq_false, if_false, hq] at h
      cases hr : call.retries op <;> simp [hr] at h
      exact .inl ⟨h.symm, .inr ⟨op, rfl, hr⟩⟩
    | none =>
      cases call <;> simp [hp, hq] at h
      exact .inr ⟨h.2.symm, hp, rfl, ⟨_, _, rfl⟩, h.1⟩
  · simp [hp] at h
    exact .inl ⟨h.symm, .inl hp⟩

/-- A HOST call: it is made where it has a meaning, or refused (R181, R257). -/
theorem hostStep_cases (s : State) (call : HostCall) :
    (s.callRefused call = none ∧ s.hostStep call = .next (s.callIdle call)) ∨
    (∃ why, s.callRefused call = some why ∧ s.hostStep call = .refused why) := by
  unfold State.hostStep
  cases h : s.callRefused call with
  | none => exact .inl ⟨rfl, rfl⟩
  | some why => exact .inr ⟨why, rfl, rfl⟩

/-- A step that answers next, by the move that was taken. -/
theorem step_cases {s t : State} (h : step s = .next t) :
    (s.nextMove = .tpx ∧ s.consume.tpxStep = .next t) ∨
    (s.nextMove = .bte ∧ s.consume.bteStep = .next t) ∨
    (∃ free delivered, s.nextMove = .fco free delivered ∧ s.consume.fcoStep free delivered = .next t) ∨
    (∃ e, s.nextMove = .sen e ∧ t = s.consume.senStep e) ∨
    (∃ call, s.nextMove = .host call ∧ s.callRefused call = none ∧ t = s.consume.callIdle call) := by
  replace h := (step_next h).2
  unfold State.runMove at h
  cases hm : s.nextMove with
  | tpx => rw [hm] at h; exact .inl ⟨rfl, h⟩
  | bte => rw [hm] at h; exact .inr (.inl ⟨rfl, h⟩)
  | fco a b => rw [hm] at h; exact .inr (.inr (.inl ⟨a, b, rfl, h⟩))
  | sen e =>
    rw [hm] at h
    exact .inr (.inr (.inr (.inl ⟨e, rfl, (next_inj.1 h).symm⟩)))
  | host call =>
    rw [hm] at h
    obtain ⟨hp, hc⟩ | ⟨why, -, hc⟩ := hostStep_cases s.consume call
    · exact .inr (.inr (.inr (.inr ⟨call, rfl, hp, by simpa [hc] using h.symm⟩)))
    · simp [hc] at h

/-- An FCO phase that may fault (R256). -/
theorem orFault_cases (s : State) (r : Except Fault State) (next : Phase) :
    (∃ f, r = .error f ∧ s.orFault r next = s.raise f) ∨
    (∃ t, r = .ok t ∧ s.orFault r next = { t with phase := next }) := by
  cases r with
  | error f => exact .inl ⟨f, rfl, rfl⟩
  | ok t => exact .inr ⟨t, rfl, rfl⟩

/-- An FCO phase that may hold. -/
theorem orHold_cases (s : State) (r : Option State) (next : Phase) :
    (r = none ∧ s.orHold r next = s) ∨ (∃ t, r = some t ∧ s.orHold r next = { t with phase := next }) := by
  cases r with
  | none => exact .inl ⟨rfl, rfl⟩
  | some t => exact .inr ⟨t, rfl, rfl⟩

/-- What `load_program` can answer (R186). -/
theorem loadProgram_cases (s : State) (p : TimingProgram) :
    (s.en = true ∧ s.loadProgram p = .error .loadWhileEnabled) ∨
    (s.en = false ∧ ∃ o, p.offence s.params = some (.illegalProgram o) ∧ s.loadProgram p = .error (.illegalProgram o)) ∨
    (s.en = false ∧ p.offence s.params = none ∧ s.loadProgram p = .ok (s.install p)) := by
  unfold State.loadProgram
  cases hen : s.en with
  | true => exact .inl ⟨rfl, rfl⟩
  | false =>
    have ho : p.offence s.params = none ∨ ∃ o, p.offence s.params = some (.illegalProgram o) := by
      unfold TimingProgram.offence
      split
      · exact .inr ⟨_, rfl⟩
      · split
        · exact .inl rfl
        · exact .inr ⟨_, rfl⟩
    obtain h | ⟨o, h⟩ := ho
    · exact .inr (.inr ⟨rfl, h, by simp [h]⟩)
    · exact .inr (.inl ⟨rfl, o, h, by simp [h]⟩)

/-- What `enable` can answer (R191). -/
theorem enable_cases (s : State) (b : Bool) :
    (b = true ∧ s.loaded = false ∧ s.enable b = .error .notLoaded) ∨
    ((b = true → s.loaded = true) ∧ s.enable b = .ok { s with en := b }) := by
  unfold State.enable
  cases b <;> cases s.loaded <;> simp

/-- What `push_parameter` can do (R193). -/
theorem pushParameter_cases (s : State) (v : Count) :
    (s.params.pqDepth ≤ s.pq.length ∧ s.pushParameter v = none) ∨
    (s.pq.length < s.params.pqDepth ∧ s.pushParameter v = some { s with pq := s.pq ++ [narrow s.params v.toNat] }) := by
  unfold State.pushParameter State.pqFull
  by_cases h : s.params.pqDepth ≤ s.pq.length
  · exact .inl ⟨h, by simp [h]⟩
  · exact .inr ⟨by omega, by simp [h]⟩

/-- The position after a SEN event is broken, or it is the event's own line's, no other line having moved (R22). -/
theorem senPosAfter_cases (s : State) (d : Session) (e : SenEvent) :
    (s.movesAnotherLine d e = true ∧ s.senPosAfter d e = .broken) ∨
    (s.movesAnotherLine d e = false ∧ s.senPosAfter d e = s.lineAfter d e) := by
  unfold State.senPosAfter
  cases s.movesAnotherLine d e <;> simp

/-- The position after hsync is driven is broken, or it is the one the lines of the frame tell and hsync did not change
over a pclk that is not at its inactive level (R224). -/
theorem afterHsync_cases (s : State) (d : Session) (active : Bool) :
    (s.hsyncOverPclk d.config active = true ∧ s.afterHsync d active = .broken) ∨
    (s.hsyncOverPclk d.config active = false ∧ s.afterHsync d active = s.hsyncPos d active) := by
  unfold State.afterHsync
  cases s.hsyncOverPclk d.config active <;> simp

/-- No other line moves: a pin that changes has no role but the event's (R22). -/
theorem movesAnotherLine_false (s : State) (d : Session) (e : SenEvent) :
    s.movesAnotherLine d e = false ↔
      ∀ j, j < 32 → (s.pinsAfter d e)[j]? ≠ s.pins[j]? → d.config.otherRole e j = false := by
  simp only [State.movesAnotherLine, List.any_eq_false, List.mem_range, Bool.and_eq_true, decide_eq_true_eq, not_and]
  refine forall₂_congr fun j _ => ?_
  cases d.config.otherRole e j <;> simp

/-- What the SEN step leaves unchanged: everything but the pins and SEN's own record. -/
theorem senStep_eq (s : State) (e : SenEvent) :
    s.senStep e = { s with
      pins := (s.senStep e).pins, senPos := (s.senStep e).senPos, senFrames := (s.senStep e).senFrames } := by
  obtain h | ⟨d, h⟩ : s.session = none ∨ ∃ d, s.session = some d := by cases s.session <;> simp
  · rw [show s.senStep e = s by simp only [State.senStep, h]]
  · simp only [State.senStep, h]

end Sys2Proof.Machine
end

