-- ==== Sys2Proof/Laws/Load.lean ====
section
/-! SUPPORT. Loading a program: what the checks of R99 accept, and what IMEM holds afterwards. -/

namespace Sys2Proof.Machine

/-- Slot `i` of the image is the program's word that stands there, or unloaded (R31, R75, R186). -/
@[simp] theorem image_getElem (p : TimingProgram) (offset i : Nat) (h : i < 32) :
    (p.image offset)[i] = if offset ≤ i then p.prog[i - offset]? else none := by
  simp [TimingProgram.image]

/-- No slot offends exactly when every word is allowed. -/
theorem firstOffence_none (q : Params) (len k : Nat) (ws : List Word) :
    firstOffence q len k ws = none ↔ ∀ w ∈ ws, wordAllowed q len w = true := by
  induction ws generalizing k with
  | nil => simp [firstOffence]
  | cons w rest ih =>
    simp only [firstOffence, List.forall_mem_cons]
    split
    · simp [*]
    · simp [*]

/-- The slot reported is the lowest one whose word is not allowed (R255). -/
theorem firstOffence_some (q : Params) (len k j : Nat) (w : Word) (ws : List Word) (h : firstOffence q len k ws = some (j, w)) :
    k ≤ j ∧ ws[j - k]? = some w ∧ wordAllowed q len w = false ∧
      ∀ i, i < j - k → ∀ v, ws[i]? = some v → wordAllowed q len v = true := by
  induction ws generalizing k with
  | nil => simp [firstOffence] at h
  | cons v rest ih =>
    simp only [firstOffence] at h
    cases ha : wordAllowed q len v with
    | true =>
      rw [if_pos ha] at h
      obtain ⟨hk, hw, hb, hl⟩ := ih (k + 1) h
      have e : j - k = j - (k + 1) + 1 := by omega
      refine ⟨by omega, by rw [e]; simpa using hw, hb, fun i hi x hx => ?_⟩
      cases i with
      | zero =>
        obtain rfl : v = x := by simpa using hx
        exact ha
      | succ i => exact hl i (by omega) x (by simpa using hx)
    | false =>
      simp only [ha, Bool.false_eq_true, if_false, Option.some.injEq, Prod.mk.injEq] at h
      obtain ⟨rfl, rfl⟩ := h
      exact ⟨le_refl _, by simp, ha, fun i hi => by omega⟩

/-- The checks of R99 pass exactly on the well-formed programs. -/
theorem offence_none (q : Params) (p : TimingProgram) :
    p.offence q = none ↔
      (∀ w ∈ p.prog, wordAllowed q p.prog.length w = true) ∧
        1 ≤ p.prog.length ∧ p.prog.length + q.loadOffset ≤ q.progMax ∧ p.wrapTarget ≤ p.wrapTop ∧
          p.wrapTop < p.prog.length := by
  unfold TimingProgram.offence
  rw [← firstOffence_none q p.prog.length 0]
  cases h : firstOffence q p.prog.length 0 p.prog with
  | some o => simp
  | none =>
    simp only [true_and]
    by_cases hb : 1 ≤ p.prog.length ∧ p.prog.length + q.loadOffset ≤ q.progMax ∧ p.wrapTarget ≤ p.wrapTop ∧
        p.wrapTop < p.prog.length
    · rw [if_pos hb]; exact iff_of_true rfl hb
    · rw [if_neg hb]; exact iff_of_false nofun hb

/-- An allowed word is legal (R99). -/
theorem wordAllowed_legal {q : Params} {len : Nat} {w : Word} (h : wordAllowed q len w = true) :
    (q.instrOf w).isSome = true := by
  unfold wordAllowed at h
  split at h <;> simp_all

/-- The image of a program that passes the checks holds legal words only (R121). -/
theorem image_legal (q : Params) (p : TimingProgram) (h : p.offence q = none) (i : Nat) (hi : i < 32) :
    (match (p.image q.loadOffset)[i] with
      | none => true
      | some w => (q.instrOf w).isSome) = true := by
  rw [image_getElem]
  split
  · rfl
  · rename_i w hw
    obtain ⟨-, hw⟩ := Option.ite_none_right_eq_some.1 hw
    exact wordAllowed_legal (((offence_none q p).1 h).1 w (List.mem_of_getElem? hw))

end Sys2Proof.Machine
end

