-- ==== Sys2Proof/Laws/Memory.lean ====
section
/-! SUPPORT. The laws of the frame-buffer memory: read after write, and every write keeps the canonical form. -/

namespace Sys2Proof.Machine

/-- A read after a write: the byte written at its address, and every other address as before. -/
theorem Memory.read_write (m : Memory) (a x : Nat) (b : Byte) :
    (Memory.write m a b).read x = if x = a then some b else Memory.read m x := by
  induction m with
  | nil => simp [Memory.write, Memory.read, eq_comm]
  | cons c rest ih =>
    obtain ⟨k, v⟩ := c
    simp only [Memory.write]
    split
    · simp [Memory.read, eq_comm]
    · split
      · subst k
        simp only [Memory.read]
        split <;> simp_all [eq_comm]
      · simp only [Memory.read, ih]
        split
        · subst x; split
          · omega
          · rfl
        · rfl

@[simp] theorem Memory.read_write_same (m : Memory) (a : Nat) (b : Byte) : (Memory.write m a b).read a = some b := by
  simp [Memory.read_write]

theorem Memory.read_write_other (m : Memory) {a x : Nat} (b : Byte) (h : x ≠ a) :
    (Memory.write m a b).read x = Memory.read m x := by
  simp [Memory.read_write, h]

/-- The canonical form, seen from its first entry. -/
theorem Memory.wf_cons (k : Nat) (v : Byte) (rest : Memory) :
    Memory.wf ((k, v) :: rest) = true ↔ (∀ c ∈ rest.head?, k < c.1) ∧ rest.wf = true := by
  cases rest with
  | nil => simp [Memory.wf]
  | cons c rest => obtain ⟨k', v'⟩ := c; simp [Memory.wf]

/-- The first address after a write is the one written or the one that stood first. -/
theorem Memory.head_write (m : Memory) (a : Nat) (b : Byte) :
    ∀ c ∈ (Memory.write m a b).head?, c.1 = a ∨ ∃ d ∈ m.head?, c.1 = d.1 := by
  cases m with
  | nil => simp [Memory.write]
  | cons d rest =>
    obtain ⟨k, v⟩ := d
    simp only [Memory.write]
    split
    · simp
    · split <;> simp

/-- A write keeps the canonical form. -/
theorem Memory.write_wf (m : Memory) (a : Nat) (b : Byte) (h : m.wf = true) : (Memory.write m a b).wf = true := by
  induction m with
  | nil => rfl
  | cons c rest ih =>
    obtain ⟨k, v⟩ := c
    have hr := (Memory.wf_cons k v rest).1 h
    simp only [Memory.write]
    split
    · exact (Memory.wf_cons ..).2 ⟨by simpa using ‹a < k›, h⟩
    · split
      · subst k; exact (Memory.wf_cons ..).2 hr
      · refine (Memory.wf_cons ..).2 ⟨fun c hc => ?_, ih hr.2⟩
        obtain h | ⟨d, hd, h⟩ := Memory.head_write rest a b c hc
        · omega
        · have := hr.1 d hd; omega

/-- The empty memory has the canonical form and holds no byte. -/
theorem Memory.read_nil (a : Nat) : Memory.read [] a = none := rfl

end Sys2Proof.Machine
end

