-- ==== Sys2Proof/Laws/Orchestrator.lean ====
section
/-! SUPPORT. What each phase of FCO does, one lemma a phase (spec/42_orchestrator.md rule R183), and what `init` can
answer. -/

namespace Sys2Proof.Machine

variable {s : State} (a b : Bool)

theorem fcoStep_idle (h : s.phase = .idle) : s.fcoStep a b = .next s := by simp only [State.fcoStep, h]

theorem fcoStep_f1 {buffer length : Nat} (h : s.phase = .f1 buffer length) :
    (s.life ≠ .ready ∧ s.fcoStep a b = .next { s.raise (.notReady s.life) with phase := .idle }) ∨
    (s.life = .ready ∧ s.session = none ∧ s.fcoStep a b = .refused .noSession) ∨
    (s.life = .ready ∧ ∃ d, s.session = some d ∧ s.fcoStep a b = .next (s.checkCall d buffer length)) := by
  simp only [State.fcoStep, h]
  by_cases hl : s.life = .ready
  · cases hs : s.session <;> simp [hl]
  · simp [hl]

theorem fcoStep_f2 (h : s.phase = .f2) :
    (s.session = none ∧ s.fcoStep a b = .refused .noSession) ∨
    (∃ d, s.session = some d ∧ s.fcoStep a b = .next (s.orFault (s.loadProgram d.held) .f3)) := by
  simp only [State.fcoStep, h]
  cases hs : s.session <;> simp

theorem fcoStep_f3 (h : s.phase = .f3) : s.fcoStep a b = .next (s.orHold (s.claimChannel a) .f4) := by
  simp only [State.fcoStep, h]

theorem fcoStep_f4 (h : s.phase = .f4) : s.fcoStep a b = .next { s.configure s.buf s.len with phase := .f5 } := by
  simp only [State.fcoStep, h]

theorem fcoStep_f5 (h : s.phase = .f5) : s.fcoStep a b = .next { s.start with phase := .f6 } := by
  simp only [State.fcoStep, h]

theorem fcoStep_f6 (h : s.phase = .f6) : s.fcoStep a b = .next (s.orFault (s.enable true) .f7) := by
  simp only [State.fcoStep, h]

theorem fcoStep_f7 (h : s.phase = .f7) :
    (s.session = none ∧ s.fcoStep a b = .refused .noSession) ∨
    (∃ d, s.session = some d ∧ s.fcoStep a b = .next (s.orHold (s.pushParameter d.lineCount) .f8)) := by
  simp only [State.fcoStep, h]
  cases hs : s.session <;> simp

theorem fcoStep_f8 (h : s.phase = .f8) : s.fcoStep a b = .next { s.streamWrite true b with phase := .f9 } := by
  simp only [State.fcoStep, h]

theorem fcoStep_f9 (h : s.phase = .f9) : s.fcoStep a b = .next (if s.done then { s with phase := .f10 } else s) := by
  simp only [State.fcoStep, h]

theorem fcoStep_f10 (h : s.phase = .f10) : s.fcoStep a b = .next { s with en := false, phase := .f11 } := by
  simp [State.fcoStep, h, State.enable, State.orFault]

theorem fcoStep_f11 (h : s.phase = .f11) : s.fcoStep a b = .next { s.releaseChannel with phase := .f12 } := by
  simp only [State.fcoStep, h]

theorem fcoStep_f12 (h : s.phase = .f12) :
    s.fcoStep a b = .next { s.streamWrite false b with phase := .idle, returned := some .readFrame } := by
  simp only [State.fcoStep, h]

/-- The two streaming values differ, so the two bus writes of a `read_frame` do (R65, D11). -/
theorem streamOff_ne_streamOn (p : Params) : p.streamOff ≠ p.streamOn := by
  have h := p.streamGap.isLt
  unfold Params.streamOff
  bv_omega

/-- A TPX or BTE operation HOST calls itself: it faults and only the record changes, or it holds and only `pending`
changes, or it returns from the state of the operation (R186 to R200, R240). -/
theorem collaborate_cases (s : State) (op : Collaborator) :
    (∃ f, s.collaborate op = s.raise f) ∨ s.collaborate op = s.collaboratorHolds op ∨
    ∃ t, s.collaborate op = t.collaboratorReturns ∧
      ((∃ p, op = .loadProgram p ∧ s.loadProgram p = .ok t) ∨ (∃ b, op = .enable b ∧ s.enable b = .ok t) ∨
        (∃ v, op = .pushParameter v ∧ s.pushParameter v = some t) ∨
        (∃ free, op = .claimChannel free ∧ s.claimChannel free = some t) ∨
        (∃ dst count, op = .configure dst count ∧ t = s.configure dst count) ∨ (op = .start ∧ t = s.start) ∨
        (op = .waitForCompletion ∧ s.done = true ∧ t = s) ∨ (op = .releaseChannel ∧ t = s.releaseChannel)) := by
  cases op with
  | loadProgram p => cases h : s.loadProgram p <;> simp [State.collaborate, h]
  | enable b => cases h : s.enable b <;> simp [State.collaborate, h]
  | pushParameter v => cases h : s.pushParameter v <;> simp [State.collaborate, h]
  | claimChannel free => cases h : s.claimChannel free <;> simp [State.collaborate, h]
  | configure dst count => exact .inr (.inr ⟨_, rfl, by simp⟩)
  | start => exact .inr (.inr ⟨_, rfl, by simp⟩)
  | waitForCompletion => cases h : s.done <;> simp [State.collaborate, h]
  | releaseChannel => exact .inr (.inr ⟨_, rfl, by simp⟩)

/-- F1 on a ready instance (R184): the length is wrong and the call is over, or the capture begins. -/
theorem checkCall_cases (s : State) (d : Session) (buffer length : Nat) :
    (length ≠ d.config.width * d.config.height ∧ s.checkCall d buffer length =
      { s.raise (.lengthMismatch length (d.config.width * d.config.height)) with phase := .idle }) ∨
    (length = d.config.width * d.config.height ∧
      s.checkCall d buffer length = { s with buf := buffer, len := length, phase := .f2 }) := by
  unfold State.checkCall
  by_cases h : length = d.config.width * d.config.height <;> simp [h]

/-- What `init` can leave (R182, R256): a failed instance that was not touched beyond its sensor and its records, or a
ready one with SYN's program installed. -/
theorem init_cases (s : State) (r : ConfigRequest) (m : Middle) :
    (∃ why, s.init r m = s.initFails why) ∨
    (∃ f, s.init r m = s.initFaults f) ∨
    ((r.width, r.height) ∈ s.params.presets ∧ r.dataBits ∈ Config.dataWidths ∧ r.synthInput.pinFault s.params = none ∧
      m.error = none ∧
      ((∃ f, synth s.params r.synthInput = .error f ∧ s.init r m = (s.sensorIdle r.stored).initFaults f) ∨
       (∃ p, synth s.params r.synthInput = .ok p ∧
         s.init r m =
           State.initLoad { s.sensorIdle r.stored with session := some ⟨r.stored, r.resolved, p⟩ } p))) := by
  unfold State.init
  split
  · exact .inl ⟨_, rfl⟩
  · split
    · exact .inl ⟨_, rfl⟩
    · cases hp : r.synthInput.pinFault s.params with
      | some f => exact .inr (.inl ⟨f, by simp⟩)
      | none =>
        cases hm : m.error with
        | some e => exact .inl ⟨.error e, by simp⟩
        | none =>
          refine .inr (.inr ⟨not_not.1 ‹_›, not_not.1 ‹_›, rfl, rfl, ?_⟩)
          cases hy : synth s.params r.synthInput with
          | error f => exact .inl ⟨f, rfl, by simp [State.initSynth, State.sensorIdle, hy]⟩
          | ok p => exact .inr ⟨p, rfl, by simp [State.initSynth, State.sensorIdle, hy]⟩

/-- What the load at the end of `init` can leave. -/
theorem initLoad_cases (s : State) (p : TimingProgram) :
    (∃ f, s.initLoad p = s.initFaults f) ∨
    (s.en = false ∧ p.offence s.params = none ∧
      s.initLoad p = { s.install p with life := .ready, returned := some .initOk }) := by
  unfold State.initLoad
  obtain ⟨-, h⟩ | ⟨-, o, -, h⟩ | ⟨he, ho, h⟩ := loadProgram_cases s p <;> rw [h]
  · exact .inl ⟨_, rfl⟩
  · exact .inl ⟨_, rfl⟩
  · exact .inr ⟨he, ho, rfl⟩

end Sys2Proof.Machine
end

