-- ==== Sys2Proof/Laws/Params.lean ====
section
/-! SUPPORT. What the parameters of R4 do to the words, the counters and SYN, said once each. -/

namespace Sys2Proof.Machine

/-- Which configurations are admitted, as a proposition (R4, log 9). -/
theorem admitted_iff (p : Params) :
    p.admitted = true ↔
      p.instrW ≤ 16 ∧ p.progMax ≤ 32 ∧ p.nPins ≤ 32 ∧ p.nCtr ≤ 2 ∧ p.immW ≤ 11 ∧ p.immW ≤ p.ctrW ∧ p.ctrW ≤ 32 ∧
        1 ≤ p.isrW ∧ p.isrW ≤ 8 ∧ 1 ≤ p.oqDepth ∧ 1 ≤ p.pqDepth := by
  simp [Params.admitted, and_assoc]

/-- On which executors SYN's program can be loaded, as a proposition (R157, log 9). -/
theorem runsSynth_iff (p : Params) :
    p.runsSynth = true ↔ p.instrW = 16 ∧ p.nCtr = 2 ∧ 17 + p.loadOffset ≤ p.progMax := by
  simp [Params.runsSynth, and_assoc]

/-- A word is an instruction of the executor exactly when it decodes to one and fits the parameters (R97, R98). -/
theorem instrOf_eq_some (p : Params) (w : Word) (i : Instr) :
    p.instrOf w = some i ↔ decode w = .ok i ∧ w.toNat < 2 ^ p.instrW ∧ i.fits p = true := by
  unfold Params.instrOf
  cases h : decode w with
  | error e => simp
  | ok j =>
    simp only [Option.ite_none_right_eq_some, Bool.and_eq_true, decide_eq_true_eq, Option.some.injEq, Except.ok.injEq]
    exact ⟨fun ⟨hf, e⟩ => ⟨e, hf.1, e ▸ hf.2⟩, fun ⟨e, hf⟩ => ⟨⟨hf.1, e ▸ hf.2⟩, e⟩⟩

/-- Every legal instruction fits the parameters when they have the values of R4. -/
theorem fits_decided {p : Params} (hs : p.progMax = 32) (hn : p.nPins = 32) (hc : p.nCtr = 2) (hi : p.immW = 11)
    (i : Instr) (hw : i.wf = true) : i.fits p = true := by
  have hctr : ∀ c : Counter, c.fits p = true := fun c => by cases c <;> simp [Counter.fits, Counter.isC1, hc]
  cases i with
  | wait level pin => simpa [Instr.fits, hn] using pin.isLt
  | shin1 base => simpa [Instr.fits, Instr.wf, shinInRange, hn] using hw
  | shin4 base => simpa [Instr.fits, Instr.wf, shinInRange, hn] using hw
  | shin8 base => simpa [Instr.fits, Instr.wf, shinInRange, hn] using hw
  | setc c imm => simpa [Instr.fits, hctr, Params.immMax, hi] using Nat.le_of_lt_succ imm.isLt
  | latch c => exact hctr c
  | jnz c target => simpa [Instr.fits, hctr, hs] using target.isLt

/-- A narrowed number is below 2^CTR_W (R26). -/
theorem narrow_lt (p : Params) (n : Nat) : (narrow p n).toNat < 2 ^ p.ctrW := by
  rw [narrow, BitVec.toNat_ofNat]
  exact lt_of_le_of_lt (Nat.mod_le _ _) (Nat.mod_lt _ (by positivity))

/-- A narrowed number is the number mod 2^CTR_W, the words of a counter having at most 32 bits (R129). -/
theorem narrow_toNat {p : Params} (h : p.ctrW ≤ 32) (n : Nat) : (narrow p n).toNat = n % 2 ^ p.ctrW := by
  rw [narrow, BitVec.toNat_ofNat]
  exact Nat.mod_eq_of_lt
    (lt_of_lt_of_le (Nat.mod_lt _ (by positivity)) (Nat.pow_le_pow_right (by decide) h))

/-- What SYN accepts, and what it then answers (R155 to R157). -/
theorem synth_eq_ok {p : Params} {x : SynthInput} {prog : TimingProgram} (h : synth p x = .ok prog) :
    x.pinFault p = none ∧ x.inputFault p = none ∧
      prog = { prog := (x.instrs p).map encode, wrapTarget := 6, wrapTop := 16 } := by
  unfold synth at h
  cases hp : x.pinFault p <;> cases hi : x.inputFault p <;> simp [hp, hi] at h
  exact ⟨rfl, rfl, h.symm⟩

end Sys2Proof.Machine
end

