-- ==== Sys2Proof/Laws/PerInstr.lean ====
section
/-! SUPPORT. A statement about every instruction as syntax, one lemma per constructor: its word matches its row of
spec/opcode_table.json (spec/30_encoding.md rule R97), whatever its operands are. -/

namespace Sys2Proof.Laws

/-- The mask and the match value of each instruction's row (R97). -/
def rowOf : Instr → Word × Word
  | .wait _ _ => (0xEFE0, 0x2000)
  | .shin1 _ => (0xFE0F, 0x4001)
  | .shin4 _ => (0xFE0F, 0x4004)
  | .shin8 _ => (0xFE0F, 0x4008)
  | .setc _ _ => (0xE800, 0x6000)
  | .latch _ => (0xEFFF, 0x6800)
  | .jnz _ _ => (0xEFE0, 0x8000)

/-- The encoding of the instruction has the fixed bits of its row. -/
def TableRow.Statement (i : Instr) : Prop := encode i &&& (rowOf i).1 = (rowOf i).2

theorem TableRow.wait (level : Bool) (pin : PinIndex) : TableRow.Statement (.wait level pin) := by
  revert level pin; unfold TableRow.Statement; decide

theorem TableRow.shin1 (base : PinIndex) : TableRow.Statement (.shin1 base) := by
  revert base; unfold TableRow.Statement; decide

theorem TableRow.shin4 (base : PinIndex) : TableRow.Statement (.shin4 base) := by
  revert base; unfold TableRow.Statement; decide

theorem TableRow.shin8 (base : PinIndex) : TableRow.Statement (.shin8 base) := by
  revert base; unfold TableRow.Statement; decide

/-- Bits 15 to 13 and bit 11 are fixed; bit 12 is the counter and bits 10 to 0 are the immediate. -/
theorem TableRow.setc (c : Counter) (imm : BitVec 11) : TableRow.Statement (.setc c imm) := by
  unfold TableRow.Statement rowOf encode
  refine BitVec.eq_of_getLsbD_eq fun k hk => ?_
  rw [BitVec.getLsbD_and, BitVec.getLsbD_append]
  cases c <;> interval_cases k <;> first | rfl | simp [Counter.isC1]

theorem TableRow.latch (c : Counter) : TableRow.Statement (.latch c) := by
  cases c <;> unfold TableRow.Statement <;> decide

theorem TableRow.jnz (c : Counter) (target : Slot) : TableRow.Statement (.jnz c target) := by
  cases c <;> revert target <;> unfold TableRow.Statement <;> decide

end Sys2Proof.Laws
end

