-- ==== Sys2Proof/Tests/Slice0.lean ====
section
/-! SUPPORT. The model's own tests: the smoke test of WellFormed, words written out from the spec's encodings, one-step
tests with the results of spec/95_test_vectors.md, and for each obligation with hypotheses a state that meets them. -/

open Sys2Proof Sys2Proof.Machine

namespace Sys2Proof.Tests

/-! ## WellFormed (R95, R98) -/

theorem test_wf_shin1_all : ∀ base : PinIndex, (Instr.shin1 base).wf = true := by decide
theorem test_wf_refuses_shin4_past_pin_31 : (Instr.shin4 29).wf = false ∧ (Instr.shin4 28).wf = true := by decide
theorem test_wf_refuses_shin8_past_pin_31 : (Instr.shin8 25).wf = false ∧ (Instr.shin8 24).wf = true := by decide

/-! ## Decoding: the words of T20, T21 and R104 -/

theorem test_decode_wait : decode 0x2000 = .ok (.wait false 0) ∧ decode 0x2010 = .ok (.wait false 16) ∧
    decode 0x3010 = .ok (.wait true 16) ∧ decode 0x301F = .ok (.wait true 31) := by decide
theorem test_decode_shin1 : decode 0x4001 = .ok (.shin1 0) ∧ decode 0x41F1 = .ok (.shin1 31) := by decide
theorem test_decode_shin4 : decode 0x4064 = .ok (.shin4 6) ∧ decode 0x41C4 = .ok (.shin4 28) := by decide
theorem test_decode_shin8 : decode 0x4068 = .ok (.shin8 6) ∧ decode 0x4188 = .ok (.shin8 24) := by decide
theorem test_decode_setc : decode 0x6000 = .ok (.setc .c0 0) ∧ decode 0x67FF = .ok (.setc .c0 2047) ∧
    decode 0x7002 = .ok (.setc .c1 2) ∧ decode 0x77FF = .ok (.setc .c1 2047) := by decide
theorem test_decode_latch : decode 0x6800 = .ok (.latch .c0) ∧ decode 0x7800 = .ok (.latch .c1) := by decide
theorem test_decode_jnz : decode 0x8000 = .ok (.jnz .c0 0) ∧ decode 0x800C = .ok (.jnz .c0 12) ∧
    decode 0x9003 = .ok (.jnz .c1 3) ∧ decode 0x901F = .ok (.jnz .c1 31) := by decide
theorem test_decode_bad_opcode :
    decode 0x0000 = .error .badOpcode ∧ decode 0x1FFF = .error .badOpcode ∧ decode 0xA000 = .error .badOpcode ∧
    decode 0xC000 = .error .badOpcode ∧ decode 0xE000 = .error .badOpcode ∧ decode 0xFFFF = .error .badOpcode := by
  decide
theorem test_decode_reserved_bits :
    decode 0x2020 = .error .waitReserved ∧ decode 0x2800 = .error .waitReserved ∧
    decode 0x4268 = .error .shinReserved ∧ decode 0x5000 = .error .shinReserved ∧
    decode 0x6801 = .error .latchReserved ∧ decode 0x6FFF = .error .latchReserved ∧
    decode 0x7FFF = .error .latchReserved ∧ decode 0x8020 = .error .jnzReserved := by decide
theorem test_decode_bad_shin :
    decode 0x4000 = .error .shinCount ∧ decode 0x4002 = .error .shinCount ∧ decode 0x4067 = .error .shinCount ∧
    decode 0x41D4 = .error .shinRange ∧ decode 0x4198 = .error .shinRange := by decide
theorem test_decodeTableWord : decodeTableWord 16 0x9003 = some (.jnz .c1 3) ∧ decodeTableWord 16 0x2020 = none := by
  decide

/-! ## States the tests use -/

/-- Parameters with every OPEN value given a number. -/
def params : Params :=
  { Config.defaultParams with
    presets := [(3, 2)], streamReg := 0x0100, streamOn := 1, streamGap := 254, sensorAddr7 := 0x24 }

/-- Other values of the parameters than those of R4: fewer slots and pins, narrower counters and immediates, the other
shift direction, and programs loaded from slot 3 on. -/
def small : Params :=
  { params with progMax := 20, nPins := 20, ctrW := 12, immW := 8, shiftMsbFirst := false, loadOffset := 3 }

/-- An executor that SYN's program does not fit: words of 15 bits, one counter, an ISR of 4 bits. -/
def tiny : Params := { params with instrW := 15, nCtr := 1, isrW := 4 }

/-- Power-on with the parameters of R4. -/
def bare : State := { State.reset with params := params }

/-- The pins 16, 15, 14 and base 6 of R158. -/
def request (dataBits : Nat) : ConfigRequest :=
  { vsyncPin := 16, hsyncPin := 15, pclkPin := 14, dataPinBase := 6, dataBits := dataBits, width := 3, height := 2
    resetPin := none, mclkPin := none, busHandle := 0, engineHandle := 0 }

/-- The first program of R158, written out. -/
def program : TimingProgram :=
  { prog := [0x2010, 0x3010, 0x7002, 0x300F, 0x200F, 0x9003, 0x6800, 0x300F, 0x7002, 0x300E, 0x200E, 0x9009, 0x300E,
      0x4068, 0x200E, 0x800C, 0x200F]
    wrapTarget := 6, wrapTop := 16 }

/-- The records of an instance with data width 8. -/
def session : Session := { config := (request 8).stored, mode := { ppc := 1, borderPx := 2 }, held := program }

/-- A ready instance, idle. -/
def ready : State := { bare.install program with life := .ready, session := some session }

/-- A ready instance at a phase with the next move FCO's. -/
def atPhase (phase : Phase) : State := { ready with phase := phase, agenda := [.fco true true] }

/-- A READY instance is running no call; one in each other state of `life` has no records. -/
def lived (life : Life) : State := { bare with life := life }

/-- The same with the next move given. -/
def moving (s : State) (m : Move) : State := { s with agenda := [m] }

/-- TPX at slot `pc` with a word there, loaded and enabled, its step next; wrap range 6 to 16. -/
def running (pc : Slot) (w : Word) : State :=
  { bare with
    pc := pc, wrapTarget := 6, wrapTop := 16, loaded := true, en := true
    imem := (Vector.replicate 32 none).set pc.toNat (some w) pc.isLt
    agenda := [.tpx] }

/-- Pins 6 to 13 driven with a byte, pin 6 its bit 0, and pins 14 to 16 with the levels given. -/
def driven (s : State) (b : Byte) (pclk hsync vsync : Bool) : State :=
  { s with
    pins := Vector.ofFn fun i =>
      if i.val = 14 then some pclk else if i.val = 15 then some hsync else if i.val = 16 then some vsync
      else if 6 ≤ i.val ∧ i.val < 14 then some (b.getLsbD (i.val - 6)) else none }

/-- What a step answers, as far as a predicate tells. -/
def stepGives (s : State) (p : State → Bool) : Bool :=
  match step s with
  | .next t => p t
  | _ => false

/-! ## One step of each instruction -/

/-- T23. -/
theorem test_wait_completes_and_holds :
    stepGives (driven (running 3 0x300F) 0 false true false) (fun t => t.pc = 4) ∧
    stepGives (driven (running 3 0x300F) 0 false false false) (fun t => t.pc = 3) := by decide
/-- T23, at the wrap top. -/
theorem test_wait_wraps : stepGives (driven (running 16 0x200F) 0 false false false) (fun t => t.pc = 6) := by decide
/-- T24. -/
theorem test_setc_zero_extends :
    stepGives (running 2 0x67FF) (fun t => t.c0 = some 0x7FF ∧ t.c1 = none ∧ t.pc = 3) ∧
    stepGives { running 8 0x7010 with c1 := some 0 } (fun t => t.c1 = some 16 ∧ t.c0 = none ∧ t.pc = 9) := by decide
/-- T25, fourth and first row. -/
theorem test_latch_takes_the_head :
    stepGives { running 6 0x6800 with pq := [7, 9], param := some 320, c0 := some 0 }
      (fun t => t.pq = [9] ∧ t.param = some 7 ∧ t.c0 = some 7 ∧ t.pc = 7) ∧
    stepGives (running 6 0x6800) (fun t => t.c0 = none ∧ t.param = none ∧ t.pc = 6) := by decide
/-- T25, third row. -/
theorem test_latch_keeps_the_parameter :
    stepGives { running 6 0x6800 with param := some 320, c0 := some 0 }
      (fun t => t.pq = [] ∧ t.param = some 320 ∧ t.c0 = some 320 ∧ t.pc = 7) := by decide
/-- T26, rows 1 to 3. -/
theorem test_jnz_decrements_first :
    stepGives { running 5 0x9003 with c1 := some 2 } (fun t => t.c1 = some 1 ∧ t.pc = 3) ∧
    stepGives { running 5 0x9003 with c1 := some 1 } (fun t => t.c1 = some 0 ∧ t.pc = 6) ∧
    stepGives { running 5 0x9003 with c1 := some 0 } (fun t => t.c1 = some 0xFFFFFFFF ∧ t.pc = 3) := by decide
/-- T26, last row. -/
theorem test_jnz_unwritten_counter :
    stepGives (running 5 0x9003) (fun t => t.c1 = none ∧ t.pc = 5 ∧ t.faults = [.unwrittenCounter 5 .c1]) := by decide
/-- T27 and T31. -/
theorem test_shin8_pushes_the_byte :
    stepGives (driven (running 13 0x4068) 0xA5 true true false)
      (fun t => t.oq = [0xA5] ∧ t.isr = 0 ∧ t.isrcnt = 0 ∧ t.pc = 14) ∧
    stepGives (driven { running 13 0x4068 with isr := 0x0A, isrcnt := 4 } 0xFF true true false)
      (fun t => t.oq = [0xFF] ∧ t.isr = 0 ∧ t.isrcnt = 0) := by decide
/-- T30, the hold on a full queue. -/
theorem test_shin8_holds : stepGives (driven { running 13 0x4068 with oq := [1, 2, 3, 4] } 0xA5 true true false)
    (fun t => t.oq = [1, 2, 3, 4] ∧ t.isr = 0 ∧ t.pc = 13) := by decide
/-- T28. -/
theorem test_shin4_high_nibble_first :
    stepGives (driven (running 13 0x4064) 0x0A true true false)
      (fun t => t.oq = [] ∧ t.isr = 0x0A ∧ t.isrcnt = 4 ∧ t.pc = 14) ∧
    stepGives (driven { running 13 0x4064 with isr := 0x0A, isrcnt := 4 } 0x05 true true false)
      (fun t => t.oq = [0xA5] ∧ t.isr = 0 ∧ t.isrcnt = 0) := by decide
/-- T30, last sentence. -/
theorem test_shin4_holds_only_when_it_would_push :
    stepGives (driven { running 13 0x4064 with oq := [1, 2, 3, 4] } 0x0A true true false) (fun t => t.pc = 14) ∧
    stepGives (driven { running 13 0x4064 with oq := [1, 2, 3, 4], isrcnt := 4 } 0x0A true true false)
      (fun t => t.pc = 13) := by decide
/-- T29, the third and the eighth strobe. -/
theorem test_shin1_first_bit_is_bit_7 :
    stepGives (driven { running 13 0x4061 with isr := 0x02, isrcnt := 2 } 0x01 true true false)
      (fun t => t.oq = [] ∧ t.isr = 0x05 ∧ t.isrcnt = 3) ∧
    stepGives (driven { running 13 0x4061 with isr := 0x52, isrcnt := 7 } 0x01 true true false)
      (fun t => t.oq = [0xA5] ∧ t.isr = 0 ∧ t.isrcnt = 0) := by decide
/-- withFetchWord puts the word where the next step fetches it. -/
theorem test_withFetchWord : stepGives (bare.withFetchWord 16 0x7002) (fun t => t.c1 = some 2) := by decide

/-! ## The parameters of R4 -/

/-- Each bound of what is admitted. -/
theorem test_admitted :
    params.admitted = true ∧ small.admitted = true ∧ tiny.admitted = true ∧
    { params with isrW := 0 }.admitted = false ∧ { params with isrW := 9 }.admitted = false ∧
    { params with nCtr := 3 }.admitted = false ∧ { params with progMax := 33 }.admitted = false ∧
    { params with nPins := 33 }.admitted = false ∧
    { params with immW := 12 }.admitted = false ∧ { params with ctrW := 33 }.admitted = false ∧
    { params with ctrW := 10 }.admitted = false ∧ { params with instrW := 17 }.admitted = false ∧
    { params with pqDepth := 0 }.admitted = false := by decide
/-- SYN's program fits 20 slots from slot 3 on, and neither from slot 4 on nor `tiny`. -/
theorem test_runsSynth : params.runsSynth = true ∧ small.runsSynth = true ∧
    { small with loadOffset := 4 }.runsSynth = false ∧ tiny.runsSynth = false := by decide
/-- The last operand of each kind that exists, and the first that does not. -/
theorem test_small_words :
    (small.instrOf 0x3013).isSome = true ∧ small.instrOf 0x3014 = none ∧
    (small.instrOf 0x40C8).isSome = true ∧ small.instrOf 0x40D8 = none ∧
    (small.instrOf 0x60FF).isSome = true ∧ small.instrOf 0x6100 = none ∧
    (small.instrOf 0x8013).isSome = true ∧ small.instrOf 0x8014 = none := by decide
/-- A counter of 12 bits wraps at 4096. -/
theorem test_small_jnz_wraps :
    stepGives { running 5 0x9003 with params := small, c1 := some 0 } (fun t => t.c1 = some 4095 ∧ t.pc = 3) := by
  decide
/-- Least significant part first: the strobes A and 5 make the byte 5A. -/
theorem test_small_low_nibble_first :
    stepGives (driven { running 13 0x4064 with params := small } 0x0A true true false)
      (fun t => t.oq = [] ∧ t.isr = 0xA0 ∧ t.isrcnt = 4) ∧
    stepGives (driven { running 13 0x4064 with params := small, isr := 0xA0, isrcnt := 4 } 0x05 true true false)
      (fun t => t.oq = [0x5A] ∧ t.isr = 0 ∧ t.isrcnt = 0) := by decide
/-- Words of 15 bits have no JNZ, and with one counter SETC and LATCH name C0 only. -/
theorem test_tiny_words :
    (tiny.instrOf 0x7FFF).isSome = false ∧ tiny.instrOf 0x8000 = none ∧ tiny.instrOf 0x7002 = none ∧
    tiny.instrOf 0x7800 = none ∧ tiny.instrOf 0x6002 = some (.setc .c0 2) ∧ tiny.instrOf 0x6800 = some (.latch .c0) := by
  decide
/-- With an ISR of 4 bits a nibble is pushed at once, and of a sample of eight lines what passes the top is lost, or what
passes the low end in the other shift direction. -/
theorem test_tiny_shift :
    stepGives (driven { running 13 0x4064 with params := tiny } 0x0A true true false)
      (fun t => t.oq = [0x0A] ∧ t.isr = 0 ∧ t.isrcnt = 0) ∧
    stepGives (driven { running 13 0x4068 with params := tiny } 0xA5 true true false) (fun t => t.oq = [0x05]) ∧
    stepGives (driven { running 13 0x4068 with params := { tiny with shiftMsbFirst := false } } 0xA5 true true false)
      (fun t => t.oq = [0x0A]) := by decide
/-- A load from slot 3 on. -/
theorem test_small_load :
    let t := { bare with params := small }.install ⟨[0x6002, 0x8000], 0, 1⟩
    t.pc = 3 ∧ t.imem[2] = none ∧ t.imem[3] = some 0x6002 ∧ t.imem[4] = some 0x8000 ∧ t.imem[5] = none := by decide

/-! ## The other agents -/

/-- T37. -/
theorem test_bte_moves_the_last_byte :
    stepGives { moving bare .bte with active := true, dst := 5, remain := 1, count := 6, oq := [0x81, 0x77] }
      (fun t => t.mem.read 5 = some 0x81 ∧ t.dst = 6 ∧ t.remain = 0 ∧ t.active = false ∧ t.done = true ∧
        t.oq = [0x77]) := by decide
/-- T38. -/
theorem test_load_refusals :
    (bare.loadProgram ⟨[0x6002, 0x0000], 0, 1⟩).toOption = none ∧
    (TimingProgram.mk [0x6002, 0x0000] 0 1).offence params = some (.illegalProgram (some (1, 0x0000))) ∧
    (TimingProgram.mk [0x6002, 0x8002] 0 1).offence params = some (.illegalProgram (some (1, 0x8002))) ∧
    (TimingProgram.mk [0x6002, 0x6002, 0x6002] 0 3).offence params = some (.illegalProgram none) ∧
    (TimingProgram.mk [] 0 0).offence params = some (.illegalProgram none) := by decide
/-- T32: SYN gives the program written out above, and refuses base 25 and margin 0. -/
theorem test_synth :
    (synth params (request 8).synthInput).toOption = some program ∧
    (SynthInput.pinFault params { (request 8).synthInput with dataPinBase := 25 }) = some (.badPin .dataPinBase 25) ∧
    (SynthInput.inputFault params { (request 8).synthInput with borderPx := 0 }) = some (.badSynthInput .borderPx) := by
  decide
/-- T34: not ready, whatever the length. -/
theorem test_read_frame_not_ready :
    stepGives { moving bare (.fco true true) with phase := .f1 0 6 }
      (fun t => t.phase = .idle ∧ t.faults = [.notReady .uninit]) := by decide
/-- T33: one byte short. -/
theorem test_read_frame_wrong_length :
    stepGives (atPhase (.f1 0 5)) (fun t => t.phase = .idle ∧ t.faults = [.lengthMismatch 5 6] ∧ t.en = false) := by
  decide

/-- R25, R257: an `init` of an instance that failed, and of one that is ready, has no meaning. -/
theorem test_init_of_a_used_instance :
    step (moving (lived .failed) (.host (.init (request 8) .ok))) = .refused .instanceUsed ∧
    step (moving ready (.host (.init (request 8) .ok))) = .refused .instanceUsed := ⟨rfl, rfl⟩
/-- R193, R240: HOST's own push on a full PQ stays in flight, is not final, and is met by its retry. -/
theorem test_held_call_stays_in_flight :
    stepGives { moving bare (.host (.collaborator (.pushParameter 7))) with pq := [1, 2, 3, 4] }
      (fun t => t.pending = some (.pushParameter 7) ∧ t.final = false ∧ t.pq = [1, 2, 3, 4]) ∧
    stepGives { moving bare (.host (.collaborator (.pushParameter 7))) with
        pq := [2, 3, 4], pending := some (.pushParameter 7) }
      (fun t => t.pending = none ∧ t.pq = [2, 3, 4, 7]) := by decide
/-- R123: TPX enabled and holding at its LATCH is no final state. -/
theorem test_a_hold_is_not_final :
    stepGives (running 6 0x6800) (fun t => t.pc = 6 ∧ t.final = false) ∧ bare.final = true := by decide
/-- R65, R196: the two writes of a call, and that they differ. -/
theorem test_stream_writes :
    stepGives (atPhase .f8) (fun t => t.busLog = [.write 0x24 [0x01, 0x00, 0x01]] ∧ t.streaming = true) ∧
    stepGives (atPhase .f12) (fun t => t.busLog = [.write 0x24 [0x01, 0x00, 0x00]] ∧ t.streaming = false) := by decide

/-! ## States that meet the hypotheses of the statements, clause by clause -/

theorem witness_DecodeInvertsEncode : (Instr.shin1 31).wf = true ∧ (Instr.shin4 28).wf = true ∧
    (Instr.shin8 24).wf = true ∧ (Instr.setc .c1 2047).wf = true := by decide
theorem witness_EncodeInvertsDecode : decode 0x901F = .ok (.jnz .c1 31) ∧ decode 0x4188 = .ok (.shin8 24) := by decide
/-- A pin driven at either level, and a pin nobody drives. -/
theorem witness_WaitCompletesAtItsLevel :
    (∃ v, (match (driven bare 0 false true false).pins[(15 : PinIndex).toNat]'(by decide) with
      | some driven => v = driven
      | none => v = Config.undrivenLevel bare.tick 15)) ∧
    ∃ v, (match bare.pins[(31 : PinIndex).toNat]'(by decide) with
      | some driven => v = driven
      | none => v = Config.undrivenLevel bare.tick 31) := ⟨⟨true, rfl⟩, ⟨_, rfl⟩⟩
theorem witness_LatchTakesThenCopies :
    (∃ s : State, s.pq = 7 :: [9]) ∧ (∃ s : State, s.pq = [] ∧ s.param = some 320) ∧
    (bare.pq = [] ∧ bare.param = none) :=
  ⟨⟨{ bare with pq := [7, 9] }, rfl⟩, ⟨{ bare with param := some 320 }, rfl, rfl⟩, rfl, rfl⟩
/-- The counter at 1, where the jump is not taken, and at 0, where it wraps, at two widths. -/
theorem witness_JnzCountsThenTests :
    (∃ s : State, s.c0 = some 1 ∧ s.c1 = some 0 ∧ s.pc = s.wrapTop ∧
      (0 : Count) = BitVec.ofNat 32 ((1 + (2 ^ s.params.ctrW - 1)) % 2 ^ s.params.ctrW)) ∧
    ∃ s : State, s.c1 = some 0 ∧ (4095 : Count) = BitVec.ofNat 32 ((0 + (2 ^ s.params.ctrW - 1)) % 2 ^ s.params.ctrW) :=
  ⟨⟨{ bare with c0 := some 1, c1 := some 0 }, rfl, rfl, rfl, by decide⟩,
   ⟨{ bare with params := small, c1 := some 0 }, rfl, by decide⟩⟩
theorem witness_JnzOnUnwrittenCounterFaults : bare.counter .c0 = none ∧ bare.counter .c1 = none := by decide
/-- Each count at its last legal base, and the value the shift gives. -/
theorem witness_ShinShiftsAndPushes :
    (31 : PinIndex).toNat + 1 ≤ 32 ∧ (28 : PinIndex).toNat + 4 ≤ 32 ∧ (24 : PinIndex).toNat + 8 ≤ 32 ∧
    (∃ isr' : Byte, isr'.toNat = (if params.shiftMsbFirst then (bare.isr.toNat * 2 ^ 8 +
        ∑ i ∈ Finset.range 8, ((driven bare 0xA5 true true false).pinLevel (6 + i)).toNat * 2 ^ i) else 0) %
          2 ^ params.isrW % 256) ∧
    ∃ isr' : Byte, isr'.toNat = (if small.shiftMsbFirst then 0 else (bare.isr.toNat +
        (∑ i ∈ Finset.range 4, ((driven bare 0x0A true true false).pinLevel (6 + i)).toNat * 2 ^ i) *
          2 ^ small.isrW) / 2 ^ 4) % 2 ^ small.isrW % 256 :=
  ⟨by decide, by decide, by decide, ⟨0xA5, by decide⟩, ⟨0xA0, by decide⟩⟩
theorem witness_ShinPastTheLastPinFaults : 28 < (29 : PinIndex).toNat ∧ 24 < (25 : PinIndex).toNat := by decide
/-- An instruction of each clause: held, no instruction, a fault, a jump taken, and one that completes at each end of the
wrap range. -/
theorem witness_PcMovesByRule :
    ((driven bare 0 false false false).pinLevel (15 : PinIndex).toNat ≠ true ∧
      (bare.pq = [] ∧ bare.param = none) ∧
      ((31 : PinIndex).toNat + 1 ≤ 32 ∧ bare.params.isrW ≤ { bare with isrcnt := 7 }.isrcnt.toNat + 1 ∧
        { bare with oq := [1, 2, 3, 4] }.params.oqDepth ≤ { bare with oq := [1, 2, 3, 4] }.oq.length)) ∧
    (Instr.shin8 25).wf = false ∧
    (bare.counter .c0 = none ∧ { bare with c0 := some 0 }.counter .c0 = some 0 ∧
      (0 + (2 ^ bare.params.ctrW - 1)) % 2 ^ bare.params.ctrW ≠ 0) ∧
    ((Instr.jnz .c0 3).wf = true ∧ { bare with c0 := some 1 }.counter .c0 = some 1 ∧
      (1 + (2 ^ bare.params.ctrW - 1)) % 2 ^ bare.params.ctrW = 0) ∧
    ((Instr.setc .c0 2047).wf = true ∧ ready.wrapTop = 16 ∧ (running 16 0).pc = (running 16 0).wrapTop) := by decide
theorem witness_TpxStepsOnlyWhenEnabled :
    ((moving bare .tpx).params.admitted = true ∧ (moving bare .tpx).nextMove = .tpx ∧
      (moving bare .tpx).loaded = false) ∧
    ((running 0 0).nextMove = .tpx ∧ (running 0 0).loaded = true ∧ (running 0 0).en = true) := by decide
/-- Also in the last slot. -/
theorem witness_StepRunsDecodedInstruction :
    (running 31 0x9003).params.admitted = true ∧ (running 31 0x9003).nextMove = .tpx ∧
    (running 31 0x9003).loaded = true ∧ (running 31 0x9003).en = true ∧
    (running 31 0x9003).imem[(running 31 0x9003).pc.toNat]'((running 31 0x9003).pc.isLt) = some 0x9003 ∧
    decode 0x9003 = .ok (.jnz .c1 3) ∧ (0x9003 : Word).toNat < 2 ^ (running 31 0x9003).params.instrW ∧
    (Instr.jnz .c1 3).fits (running 31 0x9003).params = true := by decide
/-- An unloaded slot, a word that decodes to nothing, and one whose pin is not among the 20 of `small`. -/
theorem witness_FetchFaultsAreRecorded :
    ((running 0 0x2020).params.admitted = true ∧ (running 0 0x2020).nextMove = .tpx ∧ (running 0 0x2020).loaded = true ∧
      (running 0 0x2020).en = true ∧ (running 0 0x2020).imem[0] = some 0x2020 ∧ decode 0x2020 = .error .waitReserved) ∧
    { running 0 0x2020 with pc := 1 }.imem[1] = none ∧
    (small.admitted = true ∧ (running 0 0x2014).imem[0] = some 0x2014 ∧ decode 0x2014 = .ok (.wait false 20) ∧
      (Instr.wait false 20).fits small = false) := by decide
/-- The well-formed program of one word, the empty one, and each state of EN. -/
theorem witness_LoadProgramChecksAndInstalls :
    bare.en = false ∧ (running 0 0).en = true ∧
    ((1 ≤ [(0x6800 : Word)].length ∧ [(0x6800 : Word)].length + bare.params.loadOffset ≤ bare.params.progMax) ∧
      (∀ w ∈ [(0x6800 : Word)], ∃ i, decode w = .ok i ∧
        (w.toNat < 2 ^ bare.params.instrW ∧ i.fits bare.params = true) ∧
        ∀ c target, i = .jnz c target → target.toNat < 1) ∧
      0 ≤ 0 ∧ 0 < [(0x6800 : Word)].length) ∧
    ¬(1 ≤ ([] : List Word).length) :=
  ⟨rfl, rfl, ⟨by decide, fun w hw => ⟨.latch .c0, by
    obtain rfl := List.mem_singleton.1 hw
    exact ⟨rfl, by decide, nofun⟩⟩, le_refl 0, by decide⟩, by decide⟩
/-- T38: an illegal word in slot 1, and a jump past the end in slot 1, each with a legal word below it. -/
theorem witness_IllegalProgramNamesLowestSlot :
    bare.en = false ∧ [(0x6002 : Word), 0x0000][1]? = some 0x0000 ∧ decode 0x0000 = .error .badOpcode ∧
    [(0x6002 : Word), 0x8002][1]? = some 0x8002 ∧ decode 0x8002 = .ok (.jnz .c0 2) ∧ 2 ≤ (2 : Slot).toNat ∧
    (decode 0x6002 = .ok (.setc .c0 2) ∧ (0x6002 : Word).toNat < 2 ^ bare.params.instrW ∧
      (Instr.setc .c0 2).fits bare.params = true) := by decide
theorem witness_EnableWritesEnOnly : bare.loaded = false ∧ ready.loaded = true := by decide
/-- The queue full, and with one place left. -/
theorem witness_PushParameterQueuesOrHolds :
    ({ bare with pq := [1, 2, 3, 4] } : State).params.pqDepth ≤ ({ bare with pq := [1, 2, 3, 4] } : State).pq.length ∧
    ({ bare with pq := [1, 2, 3] } : State).pq.length < ({ bare with pq := [1, 2, 3] } : State).params.pqDepth := by
  decide
/-- Pins and margin at their largest values, at each data width. -/
theorem witness_SynthBuildsTheListedWords :
    (∀ x ∈ [SynthInput.mk 31 30 29 24 8 2047 1, SynthInput.mk 31 30 29 28 4 1023 2, SynthInput.mk 31 30 29 31 1 255 8],
      x.vsyncPin < params.nPins ∧ x.hsyncPin < params.nPins ∧ x.pclkPin < params.nPins ∧
      x.dataPinBase + x.dataBits ≤ params.nPins ∧ (x.dataBits = 1 ∨ x.dataBits = 4 ∨ x.dataBits = 8) ∧
      x.ppc = 8 / x.dataBits ∧ 1 ≤ x.borderPx ∧ x.borderPx * x.ppc < 2 ^ params.immW) ∧ params.admitted = true ∧
    ((0x3000, 0x2000) = if params.activeVsync then (0x3000, 0x2000) else (0x2000, 0x3000)) := by decide
theorem witness_SynthWorkedPrograms :
    ∀ p ∈ [params, small], p.activeVsync = true ∧ p.activeHsync = true ∧ p.activePclk = true ∧ 16 < p.nPins ∧
      16 < 2 ^ p.immW := by decide
/-- Base 25 at width 8; then a width of 2, a margin of 0, and a margin that does not fit, with good pins. -/
theorem witness_SynthRefusesBadInputs :
    (params.nPins < (SynthInput.mk 16 15 14 25 8 2 1).dataPinBase + (SynthInput.mk 16 15 14 25 8 2 1).dataBits) ∧
    ∀ x ∈ [SynthInput.mk 16 15 14 6 2 2 4, SynthInput.mk 16 15 14 6 8 0 1, SynthInput.mk 16 15 14 6 1 256 8],
      x.vsyncPin < params.nPins ∧ x.hsyncPin < params.nPins ∧ x.pclkPin < params.nPins ∧ x.dataPinBase < params.nPins ∧
      x.dataPinBase + x.dataBits ≤ params.nPins ∧
      ((x.dataBits ≠ 1 ∧ x.dataBits ≠ 4 ∧ x.dataBits ≠ 8) ∨ x.borderPx = 0 ∨ 2 ^ params.immW ≤ x.borderPx * x.ppc) := by
  decide
theorem witness_SynthProgramAlwaysLoads :
    1 ≤ (request 8).synthInput.ppc ∧ bare.params.admitted = true ∧ bare.en = false ∧
    synth bare.params (request 8).synthInput = .ok program ∧ synth small (request 8).synthInput = .ok program ∧
    synth tiny (request 8).synthInput = .ok program ∧
    bare.params.runsSynth = true ∧ small.runsSynth = true ∧ tiny.runsSynth = false :=
  ⟨by decide, by decide, rfl, rfl, rfl, rfl, by decide, by decide, by decide⟩

/-- A new machine whose next move is an `init`, its middle ending as given. -/
def initializing (life : Life) (r : ConfigRequest) (m : Middle) : State := moving (lived life) (.host (.init r m))

/-- What every statement about a new instance's `init` asks of the state. -/
def fresh (s : State) : Bool :=
  s.params.admitted && decide (s.phase = .idle) && s.pending.isNone && !s.en &&
    decide (s.life = .uninit ∨ s.life = .released)

theorem new_instances :
    ∀ life ∈ [Life.uninit, .released], ∀ m ∈ [Middle.ok, .unexpectedModelId, .resetTimeout, .busError 7],
      ∀ r ∈ [request 8, request 2, { request 8 with width := 4 }, { request 8 with vsyncPin := 32 }],
        fresh (initializing life r m) = true ∧ (initializing life r m).nextMove = .host (.init r m) := by decide

/-- At each data width. -/
theorem witness_InitSucceeds :
    ∀ bits ∈ [1, 4, 8], fresh (initializing .uninit (request bits) .ok) = true ∧
      ((request bits).width, (request bits).height) ∈ params.presets ∧
      (request bits).vsyncPin < params.nPins ∧ (request bits).hsyncPin < params.nPins ∧
      (request bits).pclkPin < params.nPins ∧ (request bits).dataPinBase + (request bits).dataBits ≤ params.nPins ∧
      2 * (8 / (request bits).dataBits) < 2 ^ params.immW ∧ params.runsSynth = true ∧
      (request bits).stored.vsyncPin ≠ (request bits).stored.hsyncPin := by decide
theorem witness_InitRejectsResolution :
    fresh (initializing .released { request 8 with width := 4 } .ok) = true ∧ (4, 2) ∉ params.presets := by decide
theorem witness_InitRejectsBitDepth :
    fresh (initializing .uninit (request 2) .ok) = true ∧
    ((request 2).width, (request 2).height) ∈ params.presets ∧ (request 2).dataBits = 2 := by decide
/-- Each pin field at its first bad value. -/
theorem witness_InitRejectsBadPin :
    ∀ r ∈ [{ request 8 with vsyncPin := 32 }, { request 8 with hsyncPin := 32 }, { request 8 with pclkPin := 32 },
        { request 8 with dataPinBase := 25 }],
      fresh (initializing .uninit r .ok) = true ∧ (r.width, r.height) ∈ params.presets ∧ r.dataBits = 8 ∧
      (params.nPins ≤ r.vsyncPin ∨ params.nPins ≤ r.hsyncPin ∨ params.nPins ≤ r.pclkPin ∨
        params.nPins < r.dataPinBase + r.dataBits) := by decide
/-- Each way the middle of `init` fails. -/
theorem witness_InitMiddleFailureBuildsNothing :
    (∀ m ∈ [Middle.unexpectedModelId, .resetTimeout, .busError 7],
      fresh (initializing .uninit (request 8) m) = true ∧
      (initializing .uninit (request 8) m).nextMove = .host (.init (request 8) m)) ∧
    ((request 8).width, (request 8).height) ∈ params.presets ∧ (request 8).dataBits = 8 ∧
    (request 8).vsyncPin < params.nPins ∧ (request 8).hsyncPin < params.nPins ∧ (request 8).pclkPin < params.nPins ∧
    (request 8).dataPinBase + (request 8).dataBits ≤ params.nPins := by decide
theorem witness_DeinitTwiceIsOnce :
    ready.params.admitted = true ∧ ready.phase = .idle ∧ ready.pending = none ∧
    ({ ready with agenda := [.host .deinit, .host .deinit] } : State).agenda =
      [.host .deinit, .host .deinit] ++ [] := by decide
/-- Not ready; and ready with a length one short, and with the frame's own. -/
theorem witness_ReadFrameChecksThenLatches :
    (bare.params.admitted = true ∧ bare.phase = .idle ∧ bare.pending = none ∧ bare.life ≠ .ready) ∧
    (ready.params.admitted = true ∧ ready.phase = .idle ∧ ready.pending = none ∧ ready.life = .ready ∧
      ready.session = some session ∧ 6 = session.config.width * session.config.height ∧ 5 ≠ 6 ∧
      ({ ready with agenda := [.host (.readFrame 0 6), .fco true true] } : State).agenda =
        [.host (.readFrame 0 6), .fco true true] ++ []) := by decide

/-! ### The invariants at concrete states -/

theorem session_sound : SessionSound params session where
  preset := by decide
  width := by decide
  dataPins := by decide
  ppc := by decide
  border := by decide
  held := by decide

/-- The machine's invariant at `ready`. -/
theorem ready_inv : StateInv ready where
  admitted := by decide
  memory := rfl
  isrcnt := by decide
  isrBits := by decide
  oqRoom := by decide
  pqRoom := by decide
  fixed := ⟨rfl, rfl, rfl⟩
  transferIndex := rfl
  movedLength := rfl
  transferActive := by decide
  transferDone := by decide
  enabledLoaded := by decide
  slotsLegal := by decide
  counts := by simp [ready, bare, State.install, State.reset]
  session := fun d h => by obtain rfl : session = d := by simpa [ready] using h
                           exact session_sound
  ready := by decide
  unwritten := by decide

/-- The end of a call: six bytes moved, FCO at F12. -/
def finishing : State :=
  { ready with
    phase := .f12, buf := 100, len := 6, dstBase := 100, count := 6, dst := 6, remain := 0, done := true
    moved := [0x12, 0x34, 0xA5, 0xFF, 0x00, 0x81]
    mem := [(100, 0x12), (101, 0x34), (102, 0xA5), (103, 0xFF), (104, 0x00), (105, 0x81)]
    agenda := [.fco true true] }

theorem finishing_inv : StateInv finishing where
  admitted := by decide
  memory := by decide
  isrcnt := by decide
  isrBits := by decide
  oqRoom := by decide
  pqRoom := by decide
  fixed := ⟨rfl, rfl, rfl⟩
  transferIndex := rfl
  movedLength := rfl
  transferActive := by decide
  transferDone := by decide
  enabledLoaded := by decide
  slotsLegal := ready_inv.slotsLegal
  counts := ready_inv.counts
  session := ready_inv.session
  ready := by decide
  unwritten := by decide

theorem finishing_driver : DriverInv finishing where
  enabled := by decide
  claimed := by decide
  active := by decide
  running := fun _ => ⟨rfl, fun d h => by obtain rfl : session = d := by simpa [finishing, ready] using h
                                          rfl⟩
  installed := fun _ => ⟨rfl, rfl, rfl, fun d h => by obtain rfl : session = d := by simpa [finishing, ready] using h
                                                      rfl⟩
  reloaded := fun _ h => absurd h (by decide)
  pqEmpty := by decide
  transfer := by decide
  fresh := by decide
  started := by decide
  complete := by decide
  filled := fun _ i b h => by
    have hi : i < 6 := (List.getElem?_eq_some_iff.1 h).1
    interval_cases i <;> (obtain rfl := Option.some.inj h; decide)
  calls := rfl

theorem witness_ReturnReleasesAndFills :
    StateInv finishing ∧ DriverInv finishing ∧ finishing.nextMove = .fco true true ∧ finishing.phase = .f12 :=
  ⟨finishing_inv, finishing_driver, rfl, rfl⟩
/-- A call while one runs, and an `init` of a READY instance, in states with both invariants: both refusals are met. -/
theorem witness_OnlyRefusedCallsStopTheMachine :
    (StateInv finishing ∧ DriverInv finishing ∧
      step { finishing with agenda := [.host .deinit] } = .refused .overlappingOperation) ∧
    step { ready with agenda := [.host (.init (request 8) .ok)] } = .refused .instanceUsed :=
  ⟨⟨finishing_inv, finishing_driver, rfl⟩, rfl⟩
theorem witness_StateInvKept : StateInv finishing ∧ ∃ t, step finishing = .next t := ⟨finishing_inv, _, rfl⟩
theorem witness_DriverInvKept : StateInv finishing ∧ DriverInv finishing ∧
    finishing.nextMove.isCollaborator = false ∧ ∃ t, step finishing = .next t :=
  ⟨finishing_inv, finishing_driver, rfl, _, rfl⟩

/-! ### The phases of read_frame -/

/-- Whatever the phase, the parameters are as admitted. -/
theorem atPhase_admitted (p : Phase) : (atPhase p).params.admitted = true := by
  show params.admitted = true; decide

theorem witness_ReloadMakesTpxFresh :
    (atPhase .f2).nextMove = .fco true true ∧ (atPhase .f2).phase = .f2 ∧ (atPhase .f2).en = false ∧
    (atPhase .f2).session = some session ∧ SessionSound (atPhase .f2).params session ∧
    (atPhase .f2).params.runsSynth = true :=
  ⟨rfl, rfl, rfl, rfl, session_sound, rfl⟩
/-- With a channel free, and with none. -/
theorem witness_ClaimTakesAFreeChannel :
    ((atPhase .f3).nextMove = .fco true true ∧ (atPhase .f3).phase = .f3) ∧
    (moving (atPhase .f3) (.fco false true)).nextMove = .fco false true := by decide
theorem witness_ConfigureThenStart :
    (atPhase .f4).nextMove = .fco true true ∧ (atPhase .f4).phase = .f4 ∧
    (atPhase .f5).nextMove = .fco true true ∧ (atPhase .f5).phase = .f5 := by decide
theorem witness_EnableThenPushLineCount :
    ((atPhase .f6).nextMove = .fco true true ∧ (atPhase .f6).phase = .f6 ∧ (atPhase .f6).loaded = true ∧
      (atPhase .f6).session = some session) ∧
    ((atPhase .f7).nextMove = .fco true true ∧ (atPhase .f7).phase = .f7 ∧ (atPhase .f7).session = some session ∧
      (atPhase .f7).pq.length < (atPhase .f7).params.pqDepth) ∧
    { atPhase .f7 with pq := [1, 2, 3, 4] }.params.pqDepth ≤ { atPhase .f7 with pq := [1, 2, 3, 4] }.pq.length := by
  decide
theorem witness_StreamWritesAreLogged :
    (atPhase .f8).nextMove = .fco true true ∧ (atPhase .f8).phase = .f8 ∧
    (atPhase .f12).nextMove = .fco true true ∧ (atPhase .f12).phase = .f12 := by decide
theorem witness_WaitThenStopThenRelease :
    ((atPhase .f9).nextMove = .fco true true ∧ (atPhase .f9).phase = .f9 ∧ (atPhase .f9).done = false) ∧
    ({ atPhase .f9 with done := true }.phase = .f9 ∧ { atPhase .f9 with done := true }.done = true) ∧
    (atPhase .f10).phase = .f10 ∧ (atPhase .f11).phase = .f11 := by decide
/-- Each kind of call without a meaning. -/
theorem witness_CallsWithoutMeaningAreRefused :
    ((moving (atPhase .f9) (.host .deinit)).nextMove = .host .deinit ∧
      (moving (atPhase .f9) (.host .deinit)).phase ≠ .idle) ∧
    (ready.phase = .idle ∧ { ready with pending := some .waitForCompletion }.pending = some .waitForCompletion ∧
      HostCall.deinit.retries .waitForCompletion = false ∧
      (HostCall.collaborator .start).retries .waitForCompletion = false) ∧
    (ready.pending = none ∧ ready.life = .ready) ∧ ((lived .failed).pending = none ∧ (lived .failed).life = .failed) := by
  decide

/-! ### BTE and SEN -/

theorem witness_BteMovesTheHeadByte :
    let s : State := { moving bare .bte with active := true, dst := 5, remain := 1, count := 6, oq := [0x81, 0x77] }
    (s.params.admitted = true ∧ s.nextMove = .bte ∧ s.dst + s.remain = s.count ∧ s.active = true ∧ 0 < s.remain ∧
      s.oq = 0x81 :: [0x77]) ∧
    ((moving bare .bte).nextMove = .bte ∧ (moving bare .bte).dst + (moving bare .bte).remain = (moving bare .bte).count ∧
      (moving bare .bte).active = false) := by decide
/-- Each event, with the pins as it finds them, and a sensor that comes to rest. -/
theorem witness_SensorDrivesOnlyItsPins :
    (∀ e ∈ [SenEvent.drive .vsync true, .drive .hsync false, .drive .pclk true, .data 0xA5, .releasePclk, .releaseData,
        .stop],
      (moving ready (.sen e)).params.admitted = true ∧ (moving ready (.sen e)).nextMove = .sen e ∧
      (moving ready (.sen e)).session = some session) ∧
    (session.config.isDataPin 5 = false ∧ session.config.isDataPin 6 = true ∧ session.config.isDataPin 14 = false) ∧
    stepGives { driven ready 0 false true false with senPos := .stopping, agenda := [.sen (.drive .hsync false)] }
      (fun t => t.senPos = .rest ∧ t.syncsInactive session.config = true) := by decide
/-- R221, R222: a sensor that stops in a live line brings hsync and vsync to rest one after the other. -/
theorem test_stop_is_one_pin_at_a_time :
    stepGives { driven ready 0 false true true with senPos := .line 2 1, agenda := [.sen .stop] }
      (fun t => t.senPos = .stopping) ∧
    stepGives { driven ready 0 false true true with senPos := .stopping, agenda := [.sen (.drive .hsync false)] }
      (fun t => t.senPos = .stopping) ∧
    stepGives { driven ready 0 false false true with senPos := .stopping, agenda := [.sen (.drive .vsync false)] }
      (fun t => t.senPos = .rest) := by decide
/-- R224: in a line cut by a stop too, hsync changes only while pclk is at its inactive level. -/
theorem test_hsync_over_pclk_breaks_the_contract :
    stepGives { driven ready 0 true true true with senPos := .stopping, agenda := [.sen (.drive .hsync false)] }
      (fun t => t.senPos = .broken) ∧
    stepGives { driven ready 0 true true true with senPos := .stopping, agenda := [.sen (.drive .pclk false)] }
      (fun t => t.senPos = .stopping) := by decide
/-- R22: with vsync and hsync on one pin, a line breaks the contract. -/
theorem test_shared_pins_break_the_contract :
    stepGives { driven ready 0 false false true with
        session := some { session with config := { session.config with hsyncPin := 16 } }
        senPos := .frame 2, agenda := [.sen (.drive .hsync false)] }
      (fun t => t.senPos = .broken) := by decide
theorem witness_DataLinesCarryTheirBits :
    (moving ready (.sen (.data 0xA5))).params.admitted = true ∧
    (moving ready (.sen (.data 0xA5))).nextMove = .sen (.data 0xA5) ∧
    (moving ready (.sen (.data 0xA5))).session = some session ∧
    SessionSound (moving ready (.sen (.data 0xA5))).params session := ⟨by decide, rfl, rfl, session_sound⟩
/-- A line about to begin: pclk quiet, two lines over. -/
def beginning : State :=
  { driven ready 0 false false false with senPos := .frame 2, agenda := [.sen (.drive .hsync true)] }

/-- The first live line about to end after its five strobes. -/
def ending : State :=
  { driven ready 0 false true false with senPos := .line 2 5, agenda := [.sen (.drive .hsync false)] }

/-- A line cut by a stop about to end, its strobe over. -/
def cut : State :=
  { driven ready 0 false true true with senPos := .stopping, agenda := [.sen (.drive .hsync false)] }

/-- A line that begins, a live line that ends, a line cut by a stop that ends, and an event that changes its own pin. -/
theorem witness_ContractBindsSensorEvents :
    (beginning.session = some session ∧
      stepGives beginning (fun t => decide (t.senPos ≠ .broken) && decide (t.pins ≠ beginning.pins)) ∧
      beginning.nextMove = .sen (.drive .hsync true) ∧ beginning.senPos = .frame 2) ∧
    (ending.session = some session ∧ stepGives ending (fun t => t.senPos ≠ .broken) ∧
      ending.nextMove = .sen (.drive .hsync false) ∧ ending.senPos = .line 2 5 ∧
      session.mode.borderPx ≤ 2 ∧ 2 < session.mode.borderPx + session.config.height) ∧
    (cut.session = some session ∧ stepGives cut (fun t => t.senPos ≠ .broken) ∧
      cut.nextMove = .sen (.drive .hsync false) ∧ cut.signalIs session.config .hsync true = true) := by decide

/-! ### The rules of the whole machine -/

/-- A step that answers next with a fault already recorded. -/
theorem witness_FaultsNeverCleared :
    (∃ t, step { running 0 0x6800 with faults := [.notLoaded] } = .next t) ∧
    Fault.notLoaded ∈ ({ running 0 0x6800 with faults := [.notLoaded] } : State).faults := ⟨⟨_, rfl⟩, by decide⟩
theorem witness_BusLogGrowsOnlyAtF8AndF12 : ∃ t, step (atPhase .f8) = .next t := ⟨_, rfl⟩
/-- A step of an instance with records, and the `init` of a machine without. -/
theorem witness_ConfigurationIsFixed :
    (StateInv finishing ∧ ∃ t, step finishing = .next t) ∧
    stepGives (initializing .uninit (request 8) .ok) (fun t => t.session.isSome && (lived .uninit).session.isNone) :=
  ⟨⟨finishing_inv, _, rfl⟩, by decide⟩
/-- A step that changes `life`, and steps that change STREAMING at F8, at F12 and in `init`. -/
theorem witness_LifeAndStreamingHaveTheirWriters :
    stepGives (initializing .uninit (request 8) .ok) (fun t => t.life = .ready) ∧
    stepGives (moving ready (.host .deinit)) (fun t => t.life = .released) ∧
    stepGives (atPhase .f8) (fun t => t.streaming && !(atPhase .f8).streaming) ∧
    stepGives { atPhase .f12 with streaming := true } (fun t => !t.streaming) ∧
    stepGives { initializing .uninit (request 8) .ok with streaming := true } (fun t => !t.streaming) := by decide
/-- A reload writes IMEM. -/
theorem witness_ImemWrittenOnlyByLoad :
    stepGives { atPhase .f2 with imem := Vector.replicate 32 none } (fun t => t.imem ≠ Vector.replicate 32 none) := by
  decide
/-- A transfer writes a byte that was not there. -/
theorem witness_BufferWrittenOnlyByBte :
    stepGives { moving bare .bte with active := true, dst := 5, remain := 1, count := 6, oq := [0x81] }
      (fun t => decide (t.mem.read 5 ≠ bare.mem.read 5)) := by decide

/-! ### The capture -/

/-- TPX at slot 12, the width-8 program, pclk quiet, three bytes still to move. -/
def strobing : State :=
  { driven ready 0 false true false with
    pc := 12, en := true, phase := .f9, c0 := some 3, c1 := some 0, claimed := true, active := true
    buf := 100, len := 6, dstBase := 100, count := 6, dst := 3, remain := 3
    agenda := ([[0x12], [0x34], [0xA5]] : List (List Byte)).flatten.flatMap strobeMoves ++ [] }

theorem strobing_at : AtLiveStrobe strobing session where
  admitted := by decide
  room := rfl
  session := rfl
  sound := session_sound
  offset := rfl
  program := rfl
  wrapTop := rfl
  pc := rfl
  runs := ⟨rfl, rfl⟩
  msbFirst := rfl
  wholeByte := rfl
  boundary := ⟨rfl, rfl⟩
  drained := rfl
  transfer := ⟨rfl, rfl⟩
  quiet := by decide
  wiring := by decide

theorem witness_LiveStrobesFillTheBuffer :
    AtLiveStrobe strobing session ∧ (∀ px ∈ ([[0x12], [0x34], [0xA5]] : List (List Byte)), px.length = session.mode.ppc) ∧
    3 ≤ strobing.remain ∧ 3 * session.mode.ppc < 2 ^ strobing.params.ctrW ∧
    strobing.c0 = some (BitVec.ofNat 32 (3 * session.mode.ppc)) ∧
    strobing.agenda = ([[0x12], [0x34], [0xA5]] : List (List Byte)).flatten.flatMap strobeMoves ++ [] :=
  ⟨strobing_at, by decide, by decide, by decide, by decide, rfl⟩

/-- The records of an instance with another data width, SYN's program among them. -/
def sessionOf (bits : Nat) : Session :=
  { config := (request bits).stored, mode := (request bits).resolved
    held := ⟨((request bits).synthInput.instrs params).map encode, 6, 16⟩ }

theorem sessionOf_sound : ∀ bits ∈ [4, 1], SessionSound params (sessionOf bits) := fun bits h =>
  { preset := by fin_cases h <;> decide
    width := by fin_cases h <;> decide
    dataPins := by fin_cases h <;> decide
    ppc := by fin_cases h <;> decide
    border := rfl
    held := by fin_cases h <;> decide }

/-- The same place with another data width: the strobes of one pixel ahead. -/
def strobingNarrow (bits : Nat) : State :=
  { driven (bare.install (sessionOf bits).held) 0 false true false with
    session := some (sessionOf bits), life := .ready, pc := 12, en := true, phase := .f9
    c0 := some (BitVec.ofNat 32 (8 / bits)), claimed := true, active := true, count := 6, dst := 3, remain := 3
    agenda := (List.replicate (8 / bits) (0xA5 : Byte)).flatMap strobeMoves ++ [] }

/-- Data widths 4 and 1. -/
theorem witness_LiveStrobesFillTheBuffer_narrow : ∀ bits ∈ [4, 1],
    AtLiveStrobe (strobingNarrow bits) (sessionOf bits) ∧ 8 / bits = (sessionOf bits).mode.ppc ∧
    1 * (sessionOf bits).mode.ppc < 2 ^ (strobingNarrow bits).params.ctrW ∧
    (strobingNarrow bits).c0 = some (BitVec.ofNat 32 (1 * (sessionOf bits).mode.ppc)) := fun bits h =>
  ⟨{ admitted := by show params.admitted = true; decide
     room := rfl
     session := rfl
     sound := sessionOf_sound bits h
     offset := rfl
     program := rfl
     wrapTop := rfl
     pc := rfl
     runs := ⟨rfl, rfl⟩
     msbFirst := rfl
     wholeByte := rfl
     boundary := ⟨rfl, rfl⟩
     drained := rfl
     transfer := ⟨rfl, rfl⟩
     quiet := by fin_cases h <;> decide
     wiring := by fin_cases h <;> decide }, by fin_cases h <;> decide⟩

/-- The capture invariant at the same state. -/
theorem strobing_capture : CaptureInv strobing session where
  admitted := by decide
  room := rfl
  session := rfl
  sound := session_sound
  offset := rfl
  program := rfl
  wrap := ⟨rfl, rfl⟩
  inside := by decide
  c1Written := by decide
  c0Written := by decide
  packing := by decide

theorem witness_CaptureInvKept :
    CaptureInv strobing session ∧ strobing.nextMove.isHost = false ∧ ∃ t, step strobing = .next t :=
  ⟨strobing_capture, rfl, _, rfl⟩
theorem witness_SynthProgramNeverFaults :
    CaptureInv (moving strobing .tpx) session ∧ (moving strobing .tpx).nextMove = .tpx :=
  ⟨{ strobing_capture with }, rfl⟩
theorem witness_ReloadEstablishesCapture :
    (atPhase .f2).session = some session ∧ SessionSound (atPhase .f2).params session ∧ (atPhase .f2).en = false ∧
    (atPhase .f2).params.runsSynth = true ∧ (atPhase .f2).params.loadOffset = 0 ∧
    (atPhase .f2).nextMove = .fco true true ∧ (atPhase .f2).phase = .f2 ∧ ∃ t, step (atPhase .f2) = .next t :=
  ⟨rfl, session_sound, rfl, rfl, rfl, rfl, rfl, _, rfl⟩
/-- A counter of 2 in C0 takes two steps; one of 0 in C1 takes 2^32, and 2^12 where CTR_W is 12. -/
theorem witness_SelfLoopCountsDown :
    (∃ s : State, s.params.admitted = true ∧ s.loaded = true ∧ s.en = true ∧ s.params.instrW = 16 ∧
      2 < 2 ^ s.params.ctrW ∧ s.agenda = List.replicate 2 .tpx ++ [] ∧ (Instr.jnz .c0 s.pc).fits s.params = true ∧
      s.imem[s.pc.toNat]'(s.pc.isLt) = some (encode (.jnz .c0 s.pc)) ∧ s.c0 = some 2) ∧
    ∀ p ∈ [params, small], ∃ s : State, s.params = p ∧ p.admitted = true ∧ s.loaded = true ∧ s.en = true ∧
      p.instrW = 16 ∧ s.agenda = List.replicate (2 ^ p.ctrW) .tpx ++ [] ∧ (Instr.jnz .c1 s.pc).fits p = true ∧
      s.imem[s.pc.toNat]'(s.pc.isLt) = some (encode (.jnz .c1 s.pc)) ∧ s.c1 = some 0 :=
  ⟨⟨{ running 4 0x8004 with c0 := some 2, agenda := List.replicate 2 .tpx ++ [] },
      by decide, rfl, rfl, rfl, by decide, rfl, by decide, by decide, rfl⟩,
   fun p hp => ⟨{ running 4 0x9004 with params := p, c1 := some 0, agenda := List.replicate (2 ^ p.ctrW) .tpx ++ [] },
      rfl, by fin_cases hp <;> decide, rfl, rfl, by fin_cases hp <;> rfl, rfl, by fin_cases hp <;> decide,
      by fin_cases hp <;> decide, rfl⟩⟩

end Sys2Proof.Tests
end

