-- ==== Sys2Proof/Proofs/StateInvariant.lean ====
section
/-! PROOFS. The machine's invariant StateInv, one rule per operation of the state, then one per agent, then the step
(spec/10_state.md). -/

namespace Sys2Proof.Machine

variable {s t : State}

/-! ### The operations of TPX -/

namespace StateInv

theorem consume (h : StateInv s) : StateInv s.consume := { h with }

theorem advance (h : StateInv s) : StateInv s.advance := { h with }

/-- The record of faults is no part of the invariant (R240). -/
theorem raise (h : StateInv s) (f : Fault) : StateInv (s.raise f) := by
  rw [State.raise_eq]
  exact { h with }

/-- A counter may take any value of CTR_W bits (R26). -/
theorem setCounter (h : StateInv s) (c : Counter) {v : Count} (hv : v.toNat < 2 ^ s.params.ctrW) :
    StateInv (s.setCounter c v) := by
  cases c with
  | c0 =>
    refine { h with counts := fun u hu => ?_ }
    obtain hu | hu := hu
    · exact Option.some.inj hu ▸ hv
    · exact h.counts u (.inr hu)
  | c1 =>
    refine { h with counts := fun u hu => ?_ }
    obtain hu | hu | hu := hu
    · exact h.counts u (.inl hu)
    · exact Option.some.inj hu ▸ hv
    · exact h.counts u (.inr (.inr hu))

/-- A word LATCH takes out of PQ becomes PARAM (R126). -/
theorem takeParameter (h : StateInv s) {v : Count} {rest : List Count} (hq : s.pq = v :: rest) :
    StateInv { s with param := some v, pq := rest } := by
  have hroom := h.pqRoom
  refine { h with pqRoom := ?_, counts := fun u hu => ?_ }
  · rw [hq, List.length_cons] at hroom
    exact (Nat.le_succ _).trans hroom
  · apply h.counts
    rw [hq, List.mem_cons]
    obtain hu | hu | hu | hu := hu
    · exact .inl hu
    · exact .inr (.inl hu)
    · exact .inr (.inr (.inr (.inl (Option.some.inj hu).symm)))
    · exact .inr (.inr (.inr (.inr hu)))

end StateInv

/-- ISR after a shift has ISR_W bits (R33, R129). -/
theorem shifted_lt (s : State) (base n : Nat) : (s.shifted base n).toNat < 2 ^ s.params.isrW := by
  rw [State.shifted, BitVec.toNat_ofNat]
  exact (Nat.mod_le _ _).trans_lt (Nat.mod_lt _ (by positivity))

/-- IMEM after a load that was allowed holds legal words only (R99, R186). -/
theorem legalSlot_image {q : Params} {p : TimingProgram} (ho : p.offence q = none) (i : Fin 32) :
    legalSlot q (p.image q.loadOffset)[i] = true := by
  rw [Fin.getElem_fin, image_getElem]
  split
  · cases hw : p.prog[i.val - q.loadOffset]? with
    | none => rfl
    | some w => exact wordAllowed_legal (((offence_none q p).1 ho).1 w (List.mem_of_getElem? hw))
  · rfl

namespace StateInv

/-- SHIN: a complete byte leaves ISR empty and enters an OQ with room; an incomplete one leaves ISRCNT below ISR_W
(R128). -/
theorem shin (h : StateInv s) (i : Instr) (base : PinIndex) (n : Nat) : StateInv (s.shin i base n) := by
  have hp := (admitted_iff _).1 h.admitted
  obtain ⟨-, e⟩ | ⟨-, -, e⟩ | ⟨-, -, hroom, e⟩ | ⟨-, hdue, e⟩ := shin_cases s i base n <;> rw [e]
  · exact h.raise _
  · exact h
  · refine advance { h with isrcnt := ?_, isrBits := ?_, oqRoom := ?_ }
    · show 0 < s.params.isrW
      omega
    · exact Nat.two_pow_pos _
    · simpa [State.oqFull] using hroom
  · refine advance { h with isrcnt := ?_, isrBits := shifted_lt .. }
    have hlt : s.isrcnt.toNat + n < s.params.isrW := by simpa [State.byteDue] using hdue
    show (BitVec.ofNat 4 (s.isrcnt.toNat + n)).toNat < s.params.isrW
    rw [BitVec.toNat_ofNat]
    omega

/-- Every instruction keeps the invariant. -/
theorem exec (h : StateInv s) {i : Instr} (e : exec i s = .next t) : StateInv t := by
  cases i with
  | wait level pin =>
    obtain ⟨-, rfl⟩ | ⟨-, rfl⟩ := exec_wait_cases e
    · exact h.advance
    · exact h
  | shin1 base => exact next_inj.1 e ▸ h.shin ..
  | shin4 base => exact next_inj.1 e ▸ h.shin ..
  | shin8 base => exact next_inj.1 e ▸ h.shin ..
  | setc c imm => exact next_inj.1 e ▸ (h.setCounter c (narrow_lt ..)).advance
  | latch c =>
    obtain ⟨v, rest, hq, rfl⟩ | ⟨-, v, hv, rfl⟩ | ⟨-, -, rfl⟩ := exec_latch_cases e
    · have hv := h.counts v (.inr (.inr (.inr (by simp [hq]))))
      exact ((h.takeParameter hq).setCounter c hv).advance
    · exact (h.setCounter c (h.counts v (.inr (.inr (.inl hv))))).advance
    · exact h
  | jnz c target =>
    obtain ⟨-, rfl⟩ | ⟨v, -, -, rfl⟩ | ⟨v, -, -, rfl⟩ := exec_jnz_cases e
    · exact h.raise _
    · exact { h.setCounter c (narrow_lt ..) with }
    · exact (h.setCounter c (narrow_lt ..)).advance

/-- A step of TPX (R120, R121). -/
theorem tpxStep (h : StateInv s) (e : s.tpxStep = .next t) : StateInv t := by
  obtain ⟨-, e'⟩ | ⟨-, f, -, e'⟩ | ⟨-, i, u, -, hu, -, e'⟩ := tpxStep_cases s <;>
    obtain rfl := next_inj.1 (e'.symm.trans e)
  · exact h
  · exact h.raise f
  · exact h.exec hu

/-! ### The interface operations of TPX -/

/-- A load that is allowed leaves legal words, empty queues and no counter written (R99, R186). -/
theorem install (h : StateInv s) {p : TimingProgram} (ho : p.offence s.params = none) : StateInv (s.install p) where
  __ := h
  isrcnt := by
    have := (admitted_iff _).1 h.admitted
    show 0 < s.params.isrW
    omega
  isrBits := Nat.two_pow_pos _
  oqRoom := Nat.zero_le _
  pqRoom := Nat.zero_le _
  enabledLoaded := fun _ => rfl
  slotsLegal := fun i => legalSlot_image ho i
  counts := by simp [State.install]

theorem loadProgram (h : StateInv s) {p : TimingProgram} (e : s.loadProgram p = .ok t) : StateInv t := by
  obtain ⟨-, e'⟩ | ⟨-, o, -, e'⟩ | ⟨-, ho, e'⟩ := loadProgram_cases s p <;> rw [e'] at e <;> cases e
  exact h.install ho

/-- EN is set only where a program is loaded (R191). -/
theorem enable (h : StateInv s) {b : Bool} (e : s.enable b = .ok t) : StateInv t := by
  obtain ⟨-, -, e'⟩ | ⟨hl, e'⟩ := enable_cases s b <;> rw [e'] at e <;> cases e
  exact { h with enabledLoaded := hl }

/-- A word is pushed where PQ has room, with the width of a counter (R193). -/
theorem pushParameter (h : StateInv s) {v : Count} (e : s.pushParameter v = some t) : StateInv t := by
  obtain ⟨-, e'⟩ | ⟨hroom, e'⟩ := pushParameter_cases s v <;> rw [e'] at e <;> cases e
  refine { h with pqRoom := by simpa using hroom, counts := fun u hu => ?_ }
  simp only [List.mem_append, List.mem_singleton, ← or_assoc] at hu
  obtain hu | rfl := hu
  · exact h.counts u (by simpa only [or_assoc] using hu)
  · exact narrow_lt ..

/-! ### The operations of BTE -/

theorem claimChannel (h : StateInv s) {free : Bool} (e : s.claimChannel free = some t) : StateInv t := by
  obtain ⟨-, rfl⟩ : free = true ∧ { s with claimed := true, active := false, done := false } = t := by
    simpa [State.claimChannel] using e
  exact { h with transferActive := nofun, transferDone := nofun }

/-- A configured transfer has all its bytes to move and is not started (R188). -/
theorem configure (h : StateInv s) (dst count : Nat) : StateInv (s.configure dst count) where
  __ := h
  fixed := ⟨rfl, rfl, rfl⟩
  transferIndex := Nat.zero_add _
  movedLength := rfl
  transferActive := nofun
  transferDone := nofun

/-- A started transfer is complete when there is nothing to move, and active when there is (R189). -/
theorem start (h : StateInv s) : StateInv s.start := by
  unfold State.start
  split
  case isTrue hzero => exact { h with transferActive := nofun, transferDone := fun _ => ⟨rfl, hzero⟩ }
  case isFalse hpos =>
    exact { h with
      transferActive := fun _ => Nat.pos_of_ne_zero hpos
      transferDone := fun hd => absurd (h.transferDone hd).2 hpos }

theorem releaseChannel (h : StateInv s) : StateInv s.releaseChannel :=
  { h with transferActive := nofun, transferDone := fun hd => ⟨rfl, (h.transferDone hd).2⟩ }

/-- A step of BTE moves one byte from what remains to what is moved, and ends the transfer with the last one (R200,
R201). -/
theorem bteStep (h : StateInv s) (e : s.bteStep = .next t) : StateInv t := by
  obtain ⟨-, e'⟩ | ⟨-, hpos, b, rest, hq, ⟨-, e'⟩ | ⟨-, e'⟩⟩ := bteStep_cases s <;> rw [e'] at e <;> cases e
  · exact h
  · have hroom := h.oqRoom
    have hsum := h.transferIndex
    exact { h with
      memory := s.mem.write_wf _ _ h.memory
      oqRoom := by
        rw [hq, List.length_cons] at hroom
        exact (Nat.le_succ _).trans hroom
      transferIndex := by
        show s.dst + 1 + (s.remain - 1) = s.count
        omega
      movedLength := by simp [h.movedLength]
      transferActive := fun ha => by
        by_cases hlast : s.remain - 1 = 0
        · simp [hlast] at ha
        · exact Nat.pos_of_ne_zero hlast
      transferDone := fun hd => by
        by_cases hlast : s.remain - 1 = 0
        · simp [hlast]
        · have hold : s.done = true := by simpa [hlast] using hd
          exact absurd (h.transferDone hold).2 hpos.ne' }

/-! ### The orchestrator -/

theorem setPhase (h : StateInv s) (p : Phase) : StateInv { s with phase := p } := { h with }

theorem orFault (h : StateInv s) {r : Except Fault State} (hr : ∀ u, r = .ok u → StateInv u) (next : Phase) :
    StateInv (s.orFault r next) := by
  obtain ⟨f, -, e⟩ | ⟨u, hu, e⟩ := orFault_cases s r next <;> rw [e]
  · exact h.raise f
  · exact (hr u hu).setPhase next

theorem orHold (h : StateInv s) {r : Option State} (hr : ∀ u, r = some u → StateInv u) (next : Phase) :
    StateInv (s.orHold r next) := by
  obtain ⟨-, e⟩ | ⟨u, hu, e⟩ := orHold_cases s r next <;> rw [e]
  · exact h
  · exact (hr u hu).setPhase next

theorem checkCall (h : StateInv s) (d : Session) (buffer length : Nat) : StateInv (s.checkCall d buffer length) := by
  obtain ⟨-, e⟩ | ⟨-, e⟩ := checkCall_cases s d buffer length <;> rw [e]
  · exact (h.raise _).setPhase _
  · exact { h with }

theorem streamWrite (h : StateInv s) (on delivered : Bool) : StateInv (s.streamWrite on delivered) := { h with }

/-- Every phase of `read_frame` (R183). -/
theorem fcoStep (h : StateInv s) {a b : Bool} (e : s.fcoStep a b = .next t) : StateInv t := by
  cases hp : s.phase with
  | idle => exact next_inj.1 ((fcoStep_idle a b hp).symm.trans e) ▸ h
  | f1 buffer length =>
    obtain ⟨-, e'⟩ | ⟨-, -, e'⟩ | ⟨-, d, -, e'⟩ := fcoStep_f1 a b hp <;> rw [e'] at e <;> cases e
    · exact (h.raise _).setPhase _
    · exact h.checkCall ..
  | f2 =>
    obtain ⟨-, e'⟩ | ⟨d, -, e'⟩ := fcoStep_f2 a b hp <;> rw [e'] at e <;> cases e
    exact h.orFault (fun _ => h.loadProgram) _
  | f3 => exact next_inj.1 ((fcoStep_f3 a b hp).symm.trans e) ▸ h.orHold (fun _ => h.claimChannel) _
  | f4 => exact next_inj.1 ((fcoStep_f4 a b hp).symm.trans e) ▸ (h.configure ..).setPhase _
  | f5 => exact next_inj.1 ((fcoStep_f5 a b hp).symm.trans e) ▸ h.start.setPhase _
  | f6 => exact next_inj.1 ((fcoStep_f6 a b hp).symm.trans e) ▸ h.orFault (fun _ => h.enable) _
  | f7 =>
    obtain ⟨-, e'⟩ | ⟨d, -, e'⟩ := fcoStep_f7 a b hp <;> rw [e'] at e <;> cases e
    exact h.orHold (fun _ => h.pushParameter) _
  | f8 => exact next_inj.1 ((fcoStep_f8 a b hp).symm.trans e) ▸ (h.streamWrite ..).setPhase _
  | f9 =>
    rw [fcoStep_f9 a b hp, next_inj] at e
    split at e <;> subst e
    · exact h.setPhase _
    · exact h
  | f10 => exact next_inj.1 ((fcoStep_f10 a b hp).symm.trans e) ▸ { h with enabledLoaded := nofun }
  | f11 => exact next_inj.1 ((fcoStep_f11 a b hp).symm.trans e) ▸ h.releaseChannel.setPhase _
  | f12 => exact next_inj.1 ((fcoStep_f12 a b hp).symm.trans e) ▸ { h.streamWrite false b with }

/-! ### The sensor -/

theorem senStep (h : StateInv s) (e : SenEvent) : StateInv (s.senStep e) := by
  rw [senStep_eq]
  exact { h with }

end StateInv

/-! ### The records `init` makes -/

/-- The pin check of SYN passes exactly when every pin of the request exists (R21, R246). -/
theorem pinFault_none (p : Params) (x : SynthInput) :
    x.pinFault p = none ↔
      x.vsyncPin < p.nPins ∧ x.hsyncPin < p.nPins ∧ x.pclkPin < p.nPins ∧ x.dataPinBase < p.nPins ∧
        x.dataPinBase + x.dataBits ≤ p.nPins := by
  unfold SynthInput.pinFault
  split_ifs <;> simp <;> omega

/-- The records of a request that passed the checks stand for the very input SYN was given: no field was cut (R20). -/
theorem synthInput_stored {p : Params} (hp : p.nPins ≤ 32) {r : ConfigRequest} (hb : r.dataBits ∈ Config.dataWidths)
    (hf : r.synthInput.pinFault p = none) (prog : TimingProgram) :
    Session.synthInput ⟨r.stored, r.resolved, prog⟩ = r.synthInput := by
  obtain ⟨hv, hh, hk, hd, -⟩ := (pinFault_none ..).1 hf
  have hb : r.dataBits < 16 := by
    simp only [Config.dataWidths, List.mem_cons, List.not_mem_nil, or_false] at hb
    omega
  simp only [ConfigRequest.synthInput] at hv hh hk hd
  simp only [Session.synthInput, ConfigRequest.stored, ConfigRequest.resolved, ConfigRequest.synthInput,
    BitVec.toNat_ofNat, SynthInput.mk.injEq, and_true]
  omega

/-- What `init` stores is sound (R20, R23, R24). -/
theorem sessionSound_stored {p : Params} (hp : p.nPins ≤ 32) {r : ConfigRequest} {prog : TimingProgram}
    (hr : (r.width, r.height) ∈ p.presets) (hb : r.dataBits ∈ Config.dataWidths)
    (hf : r.synthInput.pinFault p = none) (hs : synth p r.synthInput = .ok prog) :
    SessionSound p ⟨r.stored, r.resolved, prog⟩ := by
  have hx := synthInput_stored hp hb hf prog
  have hbits : r.stored.dataBits.toNat = r.dataBits := congrArg SynthInput.dataBits hx
  have hbase : r.stored.dataPinBase.toNat = r.dataPinBase := congrArg SynthInput.dataPinBase hx
  obtain ⟨-, -, -, -, hd⟩ := (pinFault_none ..).1 hf
  exact
    { preset := hr
      width := hbits ▸ hb
      dataPins := by
        show r.stored.dataPinBase.toNat + r.stored.dataBits.toNat ≤ p.nPins
        rw [hbits, hbase]
        exact hd
      ppc := by rw [hbits]; rfl
      border := rfl
      held := hx ▸ hs }

namespace StateInv

theorem initFails (h : StateInv s) (why : InitFailure) : StateInv (s.initFails why) :=
  { h with ready := nofun, unwritten := by simp [State.initFails] }

theorem initFaults (h : StateInv s) (f : Fault) : StateInv (s.initFaults f) := (h.raise f).initFails _

theorem sensorIdle (h : StateInv s) (c : SensorConfig) : StateInv (s.sensorIdle c) := { h with }

/-- The last steps of `init` write sound records and leave READY or FAILED, the two values of `life` that allow records
(R25, R182, R256). -/
theorem initLoad (h : StateInv s) {d : Session} (hd : SessionSound s.params d) (p : TimingProgram) :
    StateInv (State.initLoad { s with session := some d } p) := by
  have hsession : ∀ d', some d = some d' → SessionSound s.params d' := fun _ e => Option.some.inj e ▸ hd
  obtain ⟨f, e⟩ | ⟨-, ho, e⟩ := initLoad_cases { s with session := some d } p <;> rw [e]
  · rw [State.initFaults, State.raise_eq]
    exact { h with session := hsession, ready := nofun, unwritten := by simp [State.initFails] }
  · exact { h.install ho with session := hsession, ready := fun _ => rfl, unwritten := by simp }

/-- `init` (R182). -/
theorem init (h : StateInv s) (r : ConfigRequest) (m : Middle) : StateInv (s.init r m) := by
  obtain ⟨-, -, hpins, -⟩ := (admitted_iff _).1 h.admitted
  obtain ⟨why, e⟩ | ⟨f, e⟩ | ⟨hr, hb, hf, -, ⟨f, -, e⟩ | ⟨p, hs, e⟩⟩ := init_cases s r m <;> rw [e]
  · exact h.initFails why
  · exact h.initFaults f
  · exact (h.sensorIdle _).initFaults f
  · exact (h.sensorIdle _).initLoad (sessionSound_stored hpins hr hb hf hs) p

/-- `deinit` unloads TPX and discards the records (R207, R274). -/
theorem deinit (h : StateInv s) : StateInv s.deinit where
  __ := h
  enabledLoaded := nofun
  slotsLegal := fun i => by simp [State.deinit, legalSlot]
  session := nofun
  ready := nofun
  unwritten := fun _ => rfl

/-! ### The calls of HOST -/

theorem collaboratorReturns (h : StateInv s) : StateInv s.collaboratorReturns := { h with }

theorem collaboratorHolds (h : StateInv s) (op : Collaborator) : StateInv (s.collaboratorHolds op) := { h with }

theorem collaborate (h : StateInv s) (op : Collaborator) : StateInv (s.collaborate op) := by
  obtain ⟨f, e⟩ | e | ⟨u, e, hu⟩ := collaborate_cases s op <;> rw [e]
  · exact h.raise f
  · exact h.collaboratorHolds op
  · refine collaboratorReturns ?_
    obtain ⟨p, -, hu⟩ | ⟨b, -, hu⟩ | ⟨v, -, hu⟩ | ⟨free, -, hu⟩ | ⟨dst, count, -, rfl⟩ | ⟨-, rfl⟩ | ⟨-, -, rfl⟩ |
      ⟨-, rfl⟩ := hu
    · exact h.loadProgram hu
    · exact h.enable hu
    · exact h.pushParameter hu
    · exact h.claimChannel hu
    · exact h.configure dst count
    · exact h.start
    · exact h
    · exact h.releaseChannel

theorem callIdle (h : StateInv s) (call : HostCall) : StateInv (s.callIdle call) := by
  cases call with
  | init r m => exact h.init r m
  | readFrame buffer length => exact h.setPhase _
  | deinit => exact h.deinit
  | setCoarseIntegration lines => exact { h with }
  | collaborator op => exact h.collaborate op

/-! ### The step -/

theorem step (h : StateInv s) (e : step s = .next t) : StateInv t := by
  obtain ⟨-, e⟩ | ⟨-, e⟩ | ⟨a, b, -, e⟩ | ⟨ev, -, rfl⟩ | ⟨call, -, -, rfl⟩ := step_cases e
  · exact h.consume.tpxStep e
  · exact h.consume.bteStep e
  · exact h.consume.fcoStep e
  · exact h.consume.senStep ev
  · exact h.consume.callIdle call

end StateInv

/-- Settles O52: the step is the step of one agent, and each agent's step is made of operations that keep the
invariant. -/
theorem stateInvKept : Obligations.StateInvKept := fun _ _ h e => h.step e

end Sys2Proof.Machine
end

