-- ==== Sys2Proof/Proofs/Writers.lean ====
section
/-! PROOFS. Who writes the parameters, the records, `life` and STREAMING: every operation but a streaming write, `init`
and `deinit` leaves all four as they were (spec/10_state.md sections 1 to 4 and 13). -/

namespace Sys2Proof.Machine

/-- The parameters, `life`, the records and STREAMING are as they were. -/
structure DriverFrame (s t : State) : Prop where
  params : t.params = s.params
  life : t.life = s.life
  session : t.session = s.session
  streaming : t.streaming = s.streaming

variable {s t : State}

namespace DriverFrame

theorem refl (s : State) : DriverFrame s s := ⟨rfl, rfl, rfl, rfl⟩

theorem raise (s : State) (f : Fault) : DriverFrame s (s.raise f) := by constructor <;> simp

theorem ofTpx (h : TpxFrame s t) : DriverFrame s t := ⟨h.params, h.driver.1, h.driver.2, h.sensor.1⟩

/-! ### The operations of TPX and BTE -/

theorem loadProgram {p : TimingProgram} (e : s.loadProgram p = .ok t) : DriverFrame s t := by
  obtain ⟨-, e'⟩ | ⟨-, o, -, e'⟩ | ⟨-, -, e'⟩ := loadProgram_cases s p <;> rw [e'] at e <;> cases e
  exact ⟨rfl, rfl, rfl, rfl⟩

theorem enable {b : Bool} (e : s.enable b = .ok t) : DriverFrame s t := by
  obtain ⟨-, -, e'⟩ | ⟨-, e'⟩ := enable_cases s b <;> rw [e'] at e <;> cases e
  exact ⟨rfl, rfl, rfl, rfl⟩

theorem pushParameter {v : Count} (e : s.pushParameter v = some t) : DriverFrame s t := by
  obtain ⟨-, e'⟩ | ⟨-, e'⟩ := pushParameter_cases s v <;> rw [e'] at e <;> cases e
  exact ⟨rfl, rfl, rfl, rfl⟩

theorem claimChannel {free : Bool} (e : s.claimChannel free = some t) : DriverFrame s t := by
  obtain ⟨-, rfl⟩ : free = true ∧ { s with claimed := true, active := false, done := false } = t := by
    simpa [State.claimChannel] using e
  exact ⟨rfl, rfl, rfl, rfl⟩

theorem start (s : State) : DriverFrame s s.start := by
  unfold State.start
  split <;> exact ⟨rfl, rfl, rfl, rfl⟩

theorem tpxStep (e : s.tpxStep = .next t) : DriverFrame s t := by
  obtain ⟨u, hu, hf⟩ := tpxStep_frame s
  exact next_inj.1 (hu.symm.trans e) ▸ ofTpx hf

theorem bteStep (e : s.bteStep = .next t) : DriverFrame s t := by
  obtain ⟨-, e'⟩ | ⟨-, -, b, rest, -, ⟨-, e'⟩ | ⟨-, e'⟩⟩ := bteStep_cases s <;> rw [e'] at e <;> cases e
  · exact refl s
  · exact ⟨rfl, rfl, rfl, rfl⟩

/-! ### The orchestrator, the sensor and HOST's own calls -/

theorem setPhase (h : DriverFrame s t) (p : Phase) : DriverFrame s { t with phase := p } := { h with }

theorem orFault {r : Except Fault State} (hr : ∀ u, r = .ok u → DriverFrame s u) (next : Phase) :
    DriverFrame s (s.orFault r next) := by
  obtain ⟨f, -, e⟩ | ⟨u, hu, e⟩ := orFault_cases s r next <;> rw [e]
  · exact raise s f
  · exact (hr u hu).setPhase next

theorem orHold {r : Option State} (hr : ∀ u, r = some u → DriverFrame s u) (next : Phase) :
    DriverFrame s (s.orHold r next) := by
  obtain ⟨-, e⟩ | ⟨u, hu, e⟩ := orHold_cases s r next <;> rw [e]
  · exact refl s
  · exact (hr u hu).setPhase next

theorem checkCall (s : State) (d : Session) (buffer length : Nat) :
    DriverFrame s (s.checkCall d buffer length) := by
  obtain ⟨-, e⟩ | ⟨-, e⟩ := checkCall_cases s d buffer length <;> rw [e]
  · exact (raise s _).setPhase _
  · exact ⟨rfl, rfl, rfl, rfl⟩

theorem senStep (s : State) (e : SenEvent) : DriverFrame s (s.senStep e) := by
  rw [senStep_eq]
  exact ⟨rfl, rfl, rfl, rfl⟩

theorem collaborate (s : State) (op : Collaborator) : DriverFrame s (s.collaborate op) := by
  obtain ⟨f, e⟩ | e | ⟨u, e, hu⟩ := collaborate_cases s op <;> rw [e]
  · exact raise s f
  · exact ⟨rfl, rfl, rfl, rfl⟩
  · have hf : DriverFrame s u := by
      obtain ⟨p, -, hu⟩ | ⟨b, -, hu⟩ | ⟨v, -, hu⟩ | ⟨free, -, hu⟩ | ⟨dst, count, -, rfl⟩ | ⟨-, rfl⟩ | ⟨-, -, rfl⟩ |
        ⟨-, rfl⟩ := hu
      · exact loadProgram hu
      · exact enable hu
      · exact pushParameter hu
      · exact claimChannel hu
      · exact ⟨rfl, rfl, rfl, rfl⟩
      · exact start s
      · exact refl _
      · exact ⟨rfl, rfl, rfl, rfl⟩
    exact { hf with }

end DriverFrame

/-- The streaming write of a phase (R40, R194, R195): the delivered write of F8 turns STREAMING on, that of F12 off. -/
def streamingWrite : Phase → Option Bool
  | .f8 => some true
  | .f12 => some false
  | _ => none

@[simp] theorem streamingWrite_eq_true (p : Phase) : streamingWrite p = some true ↔ p = .f8 := by
  cases p <;> simp [streamingWrite]

@[simp] theorem streamingWrite_eq_false (p : Phase) : streamingWrite p = some false ↔ p = .f12 := by
  cases p <;> simp [streamingWrite]

/-- A streaming write that is not delivered changes none of the four; a delivered one sets STREAMING (R194 to R196). -/
theorem streamWrite_cases (s : State) (on delivered : Bool) :
    DriverFrame s (s.streamWrite on delivered) ∨
      (delivered = true ∧ DriverFrame { s with streaming := on } (s.streamWrite on delivered)) := by
  cases delivered with
  | false => exact .inl ⟨rfl, rfl, rfl, rfl⟩
  | true => exact .inr ⟨rfl, rfl, rfl, rfl, rfl⟩

/-- A phase of `read_frame` changes none of the four but STREAMING, and that by the delivered write of F8 or F12. -/
theorem fcoStep_driver {a b : Bool} (e : s.fcoStep a b = .next t) :
    DriverFrame s t ∨
      (b = true ∧ ∃ on, streamingWrite s.phase = some on ∧ DriverFrame { s with streaming := on } t) := by
  cases hp : s.phase with
  | f8 =>
    obtain rfl := next_inj.1 ((fcoStep_f8 a b hp).symm.trans e)
    exact (streamWrite_cases s true b).imp (·.setPhase _) fun ⟨hb, h⟩ => ⟨hb, true, rfl, { h with }⟩
  | f12 =>
    obtain rfl := next_inj.1 ((fcoStep_f12 a b hp).symm.trans e)
    exact (streamWrite_cases s false b).imp (fun h => { h with }) fun ⟨hb, h⟩ => ⟨hb, false, rfl, { h with }⟩
  | idle => exact .inl (next_inj.1 ((fcoStep_idle a b hp).symm.trans e) ▸ .refl s)
  | f1 buffer length =>
    obtain ⟨-, e'⟩ | ⟨-, -, e'⟩ | ⟨-, d, -, e'⟩ := fcoStep_f1 a b hp <;> rw [e'] at e <;> cases e
    · exact .inl ((DriverFrame.raise s _).setPhase _)
    · exact .inl (.checkCall ..)
  | f2 =>
    obtain ⟨-, e'⟩ | ⟨d, -, e'⟩ := fcoStep_f2 a b hp <;> rw [e'] at e <;> cases e
    exact .inl (.orFault (fun _ => .loadProgram) _)
  | f3 => exact .inl (next_inj.1 ((fcoStep_f3 a b hp).symm.trans e) ▸ .orHold (fun _ => .claimChannel) _)
  | f4 => exact .inl (next_inj.1 ((fcoStep_f4 a b hp).symm.trans e) ▸ ⟨rfl, rfl, rfl, rfl⟩)
  | f5 => exact .inl (next_inj.1 ((fcoStep_f5 a b hp).symm.trans e) ▸ (DriverFrame.start s).setPhase _)
  | f6 => exact .inl (next_inj.1 ((fcoStep_f6 a b hp).symm.trans e) ▸ .orFault (fun _ => .enable) _)
  | f7 =>
    obtain ⟨-, e'⟩ | ⟨d, -, e'⟩ := fcoStep_f7 a b hp <;> rw [e'] at e <;> cases e
    exact .inl (.orHold (fun _ => .pushParameter) _)
  | f9 =>
    rw [fcoStep_f9 a b hp, next_inj] at e
    split at e <;> subst e
    · exact .inl ⟨rfl, rfl, rfl, rfl⟩
    · exact .inl (.refl s)
  | f10 => exact .inl (next_inj.1 ((fcoStep_f10 a b hp).symm.trans e) ▸ ⟨rfl, rfl, rfl, rfl⟩)
  | f11 => exact .inl (next_inj.1 ((fcoStep_f11 a b hp).symm.trans e) ▸ ⟨rfl, rfl, rfl, rfl⟩)

/-! ### `init` -/

theorem Middle.error_none (m : Middle) : m.error = none ↔ m = .ok := by cases m <;> simp [Middle.error]

/-- What an `init` does to the parameters, `life` and STREAMING: it leaves READY or FAILED, and turns STREAMING off only
when its middle has succeeded (R182, R256, log 34). -/
structure InitFrame (s t : State) (m : Middle) : Prop where
  params : t.params = s.params
  life : t.life = .ready ∨ t.life = .failed
  streaming : t.streaming = s.streaming ∨ (m = .ok ∧ t.streaming = false)

namespace InitFrame

/-- An `init` that fails before its middle is done. -/
theorem initFails {m : Middle} (h : DriverFrame s t) (why : InitFailure) : InitFrame s (t.initFails why) m :=
  ⟨h.params, .inr rfl, .inl h.streaming⟩

/-- An `init` that fails after its middle. -/
theorem initFaults {m : Middle} (hm : m = .ok) (f : Fault) (hp : t.params = s.params) (hs : t.streaming = false) :
    InitFrame s (t.initFaults f) m :=
  ⟨(State.raise_params t f).trans hp, .inr rfl, .inr ⟨hm, (State.raise_streaming t f).trans hs⟩⟩

theorem init (s : State) (r : ConfigRequest) (m : Middle) : InitFrame s (s.init r m) m := by
  obtain ⟨why, e⟩ | ⟨f, e⟩ | ⟨-, -, -, hm, hlast⟩ := init_cases s r m
  · exact e ▸ initFails (.refl s) why
  · exact e ▸ initFails (.raise s f) _
  · have hm := (Middle.error_none m).1 hm
    obtain ⟨f, -, e⟩ | ⟨p, -, e⟩ := hlast <;> rw [e]
    · exact initFaults hm f (by rfl) (by rfl)
    · obtain ⟨f, e'⟩ | ⟨-, -, e'⟩ :=
        initLoad_cases { s.sensorIdle r.stored with session := some ⟨r.stored, r.resolved, p⟩ } p <;> rw [e']
      · exact initFaults hm f (by rfl) (by rfl)
      · exact ⟨rfl, .inl rfl, .inr ⟨hm, rfl⟩⟩

end InitFrame

/-! ### The step -/

/-- A step leaves the parameters, `life`, the records and STREAMING as they were, or it is the delivered streaming write
of F8 or F12, an `init` where `life` is UNINIT or RELEASED, or a `deinit`. -/
theorem step_driver_cases (e : step s = .next t) :
    DriverFrame s t ∨
    (∃ a on, s.nextMove = .fco a true ∧ streamingWrite s.phase = some on ∧
      DriverFrame { s with streaming := on } t) ∨
    (∃ r m, s.nextMove = .host (.init r m) ∧ (s.life = .uninit ∨ s.life = .released) ∧ InitFrame s t m) ∨
    (s.nextMove = .host .deinit ∧ t = s.consume.deinit) := by
  obtain ⟨-, e⟩ | ⟨-, e⟩ | ⟨a, b, hm, e⟩ | ⟨ev, -, rfl⟩ | ⟨call, hm, hc, rfl⟩ := step_cases e
  · exact .inl { DriverFrame.tpxStep e with }
  · exact .inl { DriverFrame.bteStep e with }
  · obtain h | ⟨rfl, on, hp, h⟩ := fcoStep_driver e
    · exact .inl { h with }
    · exact .inr (.inl ⟨a, on, hm, hp, { h with }⟩)
  · exact .inl { DriverFrame.senStep s.consume ev with }
  · cases call with
    | init r m =>
      obtain ⟨-, hretry, hfresh⟩ := (callRefused_none ..).1 hc
      have hpending : s.pending = none := Option.eq_none_iff_forall_ne_some.2 fun op hop => by
        cases hretry op hop
      exact .inr (.inr (.inl ⟨r, m, hm, hfresh hpending r m rfl, { InitFrame.init s.consume r m with }⟩))
    | readFrame buffer length => exact .inl ⟨rfl, rfl, rfl, rfl⟩
    | deinit => exact .inr (.inr (.inr ⟨hm, rfl⟩))
    | setCoarseIntegration lines => exact .inl ⟨rfl, rfl, rfl, rfl⟩
    | collaborator op => exact .inl { DriverFrame.collaborate s.consume op with }

/-- Settles O46: an `init` finds no records, since it is refused unless `life` is UNINIT or RELEASED. -/
theorem configurationIsFixed : Obligations.ConfigurationIsFixed := by
  intro s t h e
  obtain hf | ⟨a, on, -, -, hf⟩ | ⟨r, m, hm, hlife, hf⟩ | ⟨hm, rfl⟩ := step_driver_cases e
  · exact ⟨hf.params, .inl hf.session⟩
  · exact ⟨hf.params, .inl hf.session⟩
  · exact ⟨hf.params, .inr (.inl ⟨h.unwritten hlife, r, m, hm⟩)⟩
  · exact ⟨rfl, .inr (.inr ⟨rfl, hm⟩)⟩

/-- Settles O60, by the writers of `step_driver_cases`. -/
theorem lifeAndStreamingHaveTheirWriters : Obligations.LifeAndStreamingHaveTheirWriters := by
  intro s t e
  obtain hf | ⟨a, on, hm, hp, hf⟩ | ⟨r, m, hm, -, hf⟩ | ⟨hm, rfl⟩ := step_driver_cases e
  · exact ⟨absurd hf.life, absurd hf.streaming⟩
  · refine ⟨absurd hf.life, fun _ => .inl ⟨⟨a, hm⟩, ?_⟩⟩
    cases on with
    | true => exact .inl ⟨(streamingWrite_eq_true _).1 hp, hf.streaming⟩
    | false => exact .inr ⟨(streamingWrite_eq_false _).1 hp, hf.streaming⟩
  · refine ⟨fun _ => .inl ⟨⟨r, m, hm⟩, hf.life⟩, fun hne => .inr ?_⟩
    obtain ⟨rfl, hoff⟩ := hf.streaming.resolve_left hne
    exact ⟨⟨r, hm⟩, hoff⟩
  · exact ⟨fun _ => .inr ⟨hm, rfl⟩, absurd rfl⟩

end Sys2Proof.Machine
end

