-- ==== Sys2Proof/Proofs/Storage.lean ====
section
/-! PROOFS. Who writes IMEM and the frame buffer: an allowed load or `deinit` the one, a step of BTE the other
(spec/20_memory.md sections 1 and 6). -/

namespace Sys2Proof.Machine

/-- The frame buffer is as it was, and IMEM changes only while EN is 0 and where `loads` says that a load is made. -/
structure StorageFrame (loads : Prop) (s t : State) : Prop where
  mem : t.mem = s.mem
  imem : t.imem ≠ s.imem → s.en = false ∧ loads

variable {s t : State} {loads : Prop}

namespace StorageFrame

theorem unchanged (hmem : t.mem = s.mem) (himem : t.imem = s.imem) : StorageFrame loads s t :=
  ⟨hmem, absurd himem⟩

theorem raise (s : State) (f : Fault) : StorageFrame loads s (s.raise f) := unchanged (by simp) (by simp)

/-- What is done to the other fields does not matter. -/
theorem congr {u : State} (h : StorageFrame loads s t) (hmem : u.mem = t.mem) (himem : u.imem = t.imem) :
    StorageFrame loads s u :=
  ⟨hmem.trans h.mem, himem ▸ h.imem⟩

/-! ### The operations of TPX and BTE -/

/-- A load is the one operation that writes IMEM, and it is refused while EN is 1 (R79, R186). -/
theorem loadProgram {p : TimingProgram} (hloads : loads) (e : s.loadProgram p = .ok t) : StorageFrame loads s t := by
  obtain ⟨-, e'⟩ | ⟨-, o, -, e'⟩ | ⟨hen, -, e'⟩ := loadProgram_cases s p <;> rw [e'] at e <;> cases e
  exact ⟨rfl, fun _ => ⟨hen, hloads⟩⟩

theorem enable {b : Bool} (e : s.enable b = .ok t) : StorageFrame loads s t := by
  obtain ⟨-, -, e'⟩ | ⟨-, e'⟩ := enable_cases s b <;> rw [e'] at e <;> cases e
  exact unchanged rfl rfl

theorem pushParameter {v : Count} (e : s.pushParameter v = some t) : StorageFrame loads s t := by
  obtain ⟨-, e'⟩ | ⟨-, e'⟩ := pushParameter_cases s v <;> rw [e'] at e <;> cases e
  exact unchanged rfl rfl

theorem claimChannel {free : Bool} (e : s.claimChannel free = some t) : StorageFrame loads s t := by
  obtain ⟨-, rfl⟩ : free = true ∧ { s with claimed := true, active := false, done := false } = t := by
    simpa [State.claimChannel] using e
  exact unchanged rfl rfl

theorem start (s : State) : StorageFrame loads s s.start := by
  unfold State.start
  split <;> exact unchanged rfl rfl

/-- No instruction writes IMEM or the frame buffer (R60, R61). -/
theorem tpxStep (e : s.tpxStep = .next t) : StorageFrame loads s t := by
  obtain ⟨u, hu, hf⟩ := tpxStep_frame s
  obtain rfl := next_inj.1 (hu.symm.trans e)
  exact unchanged hf.outputs.1 hf.imem

/-! ### The orchestrator and HOST's own calls -/

theorem orFault {r : Except Fault State} (hr : ∀ u, r = .ok u → StorageFrame loads s u) (next : Phase) :
    StorageFrame loads s (s.orFault r next) := by
  obtain ⟨f, -, e⟩ | ⟨u, hu, e⟩ := orFault_cases s r next <;> rw [e]
  · exact raise s f
  · exact (hr u hu).congr rfl rfl

theorem orHold {r : Option State} (hr : ∀ u, r = some u → StorageFrame loads s u) (next : Phase) :
    StorageFrame loads s (s.orHold r next) := by
  obtain ⟨-, e⟩ | ⟨u, hu, e⟩ := orHold_cases s r next <;> rw [e]
  · exact unchanged rfl rfl
  · exact (hr u hu).congr rfl rfl

theorem checkCall (s : State) (d : Session) (buffer length : Nat) :
    StorageFrame loads s (s.checkCall d buffer length) := by
  obtain ⟨-, e⟩ | ⟨-, e⟩ := checkCall_cases s d buffer length <;> rw [e]
  · exact (raise s _).congr rfl rfl
  · exact unchanged rfl rfl

/-- Of the phases of `read_frame` only F2 loads (R185). -/
theorem fcoStep {a b : Bool} (e : s.fcoStep a b = .next t) : StorageFrame (s.phase = .f2) s t := by
  cases hp : s.phase with
  | idle => exact next_inj.1 ((fcoStep_idle a b hp).symm.trans e) ▸ unchanged rfl rfl
  | f1 buffer length =>
    obtain ⟨-, e'⟩ | ⟨-, -, e'⟩ | ⟨-, d, -, e'⟩ := fcoStep_f1 a b hp <;> rw [e'] at e <;> cases e
    · exact (raise s _).congr rfl rfl
    · exact checkCall ..
  | f2 =>
    obtain ⟨-, e'⟩ | ⟨d, -, e'⟩ := fcoStep_f2 a b hp <;> rw [e'] at e <;> cases e
    exact orFault (fun _ => loadProgram rfl) _
  | f3 => exact next_inj.1 ((fcoStep_f3 a b hp).symm.trans e) ▸ orHold (fun _ => claimChannel) _
  | f4 => exact next_inj.1 ((fcoStep_f4 a b hp).symm.trans e) ▸ unchanged rfl rfl
  | f5 => exact next_inj.1 ((fcoStep_f5 a b hp).symm.trans e) ▸ (start s).congr rfl rfl
  | f6 => exact next_inj.1 ((fcoStep_f6 a b hp).symm.trans e) ▸ orFault (fun _ => enable) _
  | f7 =>
    obtain ⟨-, e'⟩ | ⟨d, -, e'⟩ := fcoStep_f7 a b hp <;> rw [e'] at e <;> cases e
    exact orHold (fun _ => pushParameter) _
  | f8 => exact next_inj.1 ((fcoStep_f8 a b hp).symm.trans e) ▸ unchanged rfl rfl
  | f9 =>
    rw [fcoStep_f9 a b hp, next_inj] at e
    split at e <;> subst e <;> exact unchanged rfl rfl
  | f10 => exact next_inj.1 ((fcoStep_f10 a b hp).symm.trans e) ▸ unchanged rfl rfl
  | f11 => exact next_inj.1 ((fcoStep_f11 a b hp).symm.trans e) ▸ unchanged rfl rfl
  | f12 => exact next_inj.1 ((fcoStep_f12 a b hp).symm.trans e) ▸ unchanged rfl rfl

theorem senStep (s : State) (e : SenEvent) : StorageFrame loads s (s.senStep e) := by
  rw [senStep_eq]
  exact unchanged rfl rfl

/-- Of the collaborator operations HOST may call only `load_program` loads. -/
theorem collaborate (s : State) (op : Collaborator) :
    StorageFrame (∃ p, op = .loadProgram p) s (s.collaborate op) := by
  obtain ⟨f, e⟩ | e | ⟨u, e, hu⟩ := collaborate_cases s op <;> rw [e]
  · exact raise s f
  · exact unchanged rfl rfl
  · suffices hf : StorageFrame (∃ p, op = .loadProgram p) s u from hf.congr rfl rfl
    obtain ⟨p, hp, hu⟩ | ⟨b, -, hu⟩ | ⟨v, -, hu⟩ | ⟨free, -, hu⟩ | ⟨dst, count, -, rfl⟩ | ⟨-, rfl⟩ | ⟨-, -, rfl⟩ |
      ⟨-, rfl⟩ := hu
    · exact loadProgram ⟨p, hp⟩ hu
    · exact enable hu
    · exact pushParameter hu
    · exact claimChannel hu
    · exact unchanged rfl rfl
    · exact start s
    · exact unchanged rfl rfl
    · exact unchanged rfl rfl

theorem initFaults (f : Fault) (hmem : t.mem = s.mem) (himem : t.imem = s.imem) :
    StorageFrame loads s (t.initFaults f) :=
  (unchanged hmem himem).congr (State.raise_mem t f) (State.raise_imem t f)

/-- `init` may load SYN's program, while EN is 0 (R182). -/
theorem init (s : State) (r : ConfigRequest) (m : Middle) : StorageFrame True s (s.init r m) := by
  obtain ⟨why, e⟩ | ⟨f, e⟩ | ⟨-, -, -, -, ⟨f, -, e⟩ | ⟨p, -, e⟩⟩ := init_cases s r m <;> rw [e]
  · exact unchanged rfl rfl
  · exact initFaults f (by rfl) (by rfl)
  · exact initFaults f (by rfl) (by rfl)
  · obtain ⟨f, e'⟩ | ⟨hen, -, e'⟩ :=
      initLoad_cases { s.sensorIdle r.stored with session := some ⟨r.stored, r.resolved, p⟩ } p <;> rw [e']
    · exact initFaults f (by rfl) (by rfl)
    · exact ⟨rfl, fun _ => ⟨hen, trivial⟩⟩

end StorageFrame

/-! ### The step -/

/-- The next step may be a load: F2, an `init`, or a `load_program` that HOST calls itself (R61). -/
def State.mayLoad (s : State) : Prop :=
  ((∃ a b, s.nextMove = .fco a b) ∧ s.phase = .f2) ∨ (∃ r m, s.nextMove = .host (.init r m)) ∨
    ∃ p, s.nextMove = .host (.collaborator (.loadProgram p))

/-- A BTE step that writes: an active transfer puts one byte at the buffer plus DST, and IMEM is as it was (R200). -/
structure WritesByte (s t : State) : Prop where
  active : s.active = true
  mem : ∃ b, t.mem = s.mem.write (s.dstBase + s.dst) b
  dst : t.dst = s.dst + 1
  imem : t.imem = s.imem

theorem bteStep_storage (e : s.bteStep = .next t) : StorageFrame loads s t ∨ WritesByte s t := by
  obtain ⟨-, e'⟩ | ⟨ha, -, b, rest, -, ⟨-, e'⟩ | ⟨-, e'⟩⟩ := bteStep_cases s <;> rw [e'] at e <;> cases e
  · exact .inl (.unchanged rfl rfl)
  · exact .inr ⟨ha, ⟨b, rfl⟩, rfl, rfl⟩

/-- A step leaves both memories as they were but for a load, or it is the write of one byte by BTE, or a `deinit`, which
leaves the frame buffer. -/
theorem step_storage_cases (e : step s = .next t) :
    StorageFrame s.mayLoad s t ∨ (s.nextMove = .bte ∧ WritesByte s t) ∨
      (s.nextMove = .host .deinit ∧ t.mem = s.mem) := by
  obtain ⟨-, e⟩ | ⟨hm, e⟩ | ⟨a, b, hm, e⟩ | ⟨ev, -, rfl⟩ | ⟨call, hm, -, rfl⟩ := step_cases e
  · exact .inl { StorageFrame.tpxStep e with }
  · obtain h | h := bteStep_storage e
    · exact .inl { h with }
    · exact .inr (.inl ⟨hm, { h with }⟩)
  · have h := StorageFrame.fcoStep e
    exact .inl ⟨h.mem, fun hne => (h.imem hne).imp_right fun hp => .inl ⟨⟨a, b, hm⟩, hp⟩⟩
  · exact .inl { StorageFrame.senStep s.consume ev with }
  · cases call with
    | init r m =>
      have h := StorageFrame.init s.consume r m
      exact .inl ⟨h.mem, fun hne => (h.imem hne).imp_right fun _ => .inr (.inl ⟨r, m, hm⟩)⟩
    | readFrame buffer length => exact .inl (.unchanged rfl rfl)
    | deinit => exact .inr (.inr ⟨hm, rfl⟩)
    | setCoarseIntegration lines => exact .inl (.unchanged rfl rfl)
    | collaborator op =>
      have h := StorageFrame.collaborate s.consume op
      exact .inl ⟨h.mem, fun hne => (h.imem hne).imp_right fun ⟨p, hp⟩ => .inr (.inr ⟨p, hp ▸ hm⟩)⟩

/-- Settles O47: a load is refused while EN is 1, and only `deinit` writes IMEM without one. -/
theorem imemWrittenOnlyByLoad : Obligations.ImemWrittenOnlyByLoad := by
  intro s t e hne
  obtain h | ⟨-, h⟩ | ⟨hm, -⟩ := step_storage_cases e
  · exact .inr (h.imem hne)
  · exact absurd h.imem hne
  · exact .inl hm

/-- Settles O48: the one write to the frame buffer is BTE's, and it changes the byte at the buffer plus DST only. -/
theorem bufferWrittenOnlyByBte : Obligations.BufferWrittenOnlyByBte := by
  intro s t a e hne
  obtain h | ⟨hm, h⟩ | ⟨-, hmem⟩ := step_storage_cases e
  · exact absurd (congrArg (Memory.read · a) h.mem) hne
  · obtain ⟨b, hb⟩ := h.mem
    refine ⟨hm, h.active, ?_, h.dst⟩
    by_contra ha
    exact hne (by rw [hb, Memory.read_write_other _ _ ha])
  · exact absurd (congrArg (Memory.read · a) hmem) hne

end Sys2Proof.Machine
end

