-- ==== Sys2Proof/Proofs/DataLines.lean ====
section
/-! PROOFS. The data lines: what a value SEN drives on them reads as, line by line and as a sample
(spec/20_memory.md section 2, spec/10_state.md section 1). -/

namespace Sys2Proof.Machine

/-- Each data line is driven at its bit of the value: line `i` is pin `data_pin_base + i` (R21, R67). -/
def LinesCarry (pins : Vector (Option Bool) 32) (c : SensorConfig) (v : Byte) : Prop :=
  ∀ i, i < c.dataBits.toNat → pins[c.dataPinBase.toNat + i]? = some (some (v.getLsbD i))

/-- A pin that is driven reads at its level (R62). -/
theorem pinLevel_of_driven {s : State} {p : Nat} {level : Bool} (h : s.pins[p]? = some (some level)) :
    s.pinLevel p = level := by
  simp only [State.pinLevel, h]

/-- Where the records are sound, the data lines are pins that exist (R21). -/
theorem SessionSound.dataPin_lt {p : Params} {d : Session} (h : SessionSound p d) (hp : p.admitted = true) {i : Nat}
    (hi : i < d.config.dataBits.toNat) : d.config.dataPinBase.toNat + i < 32 := by
  obtain ⟨-, -, hpins, -⟩ := (admitted_iff p).1 hp
  have := h.dataPins
  omega

/-- The data pins driven together carry the value (R220). -/
theorem linesCarry_dataPins {p : Params} {d : Session} (h : SessionSound p d) (hp : p.admitted = true) (v : Byte)
    (pins : Vector (Option Bool) 32) : LinesCarry (dataPins d.config v pins) d.config v := by
  intro i hi
  have hline : d.config.isDataPin (d.config.dataPinBase.toNat + i) = true := by
    simpa [SensorConfig.isDataPin] using hi
  simp [dataPins, Vector.getElem?_eq_getElem (h.dataPin_lt hp hi), hline]

/-- A sample of lines that read as the bits of a value is the value's low bits (R67, R128). -/
theorem sample_eq_mod (s : State) (base : Nat) (v : Byte) (n : Nat)
    (h : ∀ i, i < n → s.pinLevel (base + i) = v.getLsbD i) : s.sample base n = v.toNat % 2 ^ n := by
  induction n with
  | zero => simp [State.sample, Nat.mod_one]
  | succ n ih =>
    rw [State.sample, ih fun i hi => h i (hi.trans n.lt_succ_self), h n n.lt_succ_self, BitVec.getLsbD,
      Nat.toNat_testBit, Nat.mod_pow_succ, Nat.mul_comm (2 ^ n)]

namespace LinesCarry

variable {s : State} {c : SensorConfig} {v : Byte}

theorem pinLevel (h : LinesCarry s.pins c v) {i : Nat} (hi : i < c.dataBits.toNat) :
    s.pinLevel (c.dataPinBase.toNat + i) = v.getLsbD i :=
  pinLevel_of_driven (h i hi)

/-- The sample of the data lines is the value's chunk (R226). -/
theorem sample (h : LinesCarry s.pins c v) :
    s.sample c.dataPinBase.toNat c.dataBits.toNat = chunkOf c.dataBits.toNat v :=
  sample_eq_mod s _ v _ fun _ => h.pinLevel

end LinesCarry

/-- Where there are records, an event changes the pins and SEN's own record (R220). -/
theorem senStep_of_session {s : State} {d : Session} (h : s.session = some d) (e : SenEvent) :
    s.senStep e = { s with
      pins := s.pinsAfter d e, senPos := s.senPosAfter d e, senFrames := s.senFramesAfter d e } := by
  simp only [State.senStep, h]

/-- Settles O42: SEN's step makes the lines carry the value, and the sample reads them in order. -/
theorem dataLinesCarryTheirBits : Obligations.DataLinesCarryTheirBits := by
  intro s d v hp hm hs hsound
  have h : LinesCarry (s.consume.senStep (.data v)).pins d.config v := by
    rw [senStep_of_session (s := s.consume) hs]
    exact linesCarry_dataPins hsound hp v s.pins
  exact ⟨_, by rw [step_eq s hp, hm]; rfl, fun _ => h.pinLevel, h.sample⟩

end Sys2Proof.Machine
end

