-- ==== Sys2Proof/Proofs/SynthSlots.lean ====
section
/-! PROOFS. SYN's program as TPX runs it in the live part of a line, slots 12 to 15 (spec/41_synthesizer.md sections 2
and 3): what each of these slots does when it is TPX's move. -/

namespace Sys2Proof.Machine

variable {s : State} {d : Session}

/-- TPX is enabled on SYN's program at LOAD_OFFSET 0, packs bytes of 8 bits with the first strobe most significant, and
pclk is no data line. No strobe of a line changes any of this. -/
structure Capturing (s : State) (d : Session) : Prop where
  admitted : s.params.admitted = true
  room : s.params.runsSynth = true
  session : s.session = some d
  sound : SessionSound s.params d
  offset : s.params.loadOffset = 0
  program : s.imem = d.held.image 0
  wrapTop : s.wrapTop = 16
  runs : s.loaded = true ∧ s.en = true
  msbFirst : s.params.shiftMsbFirst = true
  wholeByte : s.params.isrW = 8
  wiring : d.config.isDataPin d.config.pclkPin.toNat = false

theorem AtLiveStrobe.capturing (h : AtLiveStrobe s d) : Capturing s d := { h with }

/-! ### The words of slots 12 to 15 -/

theorem decode_encode_wait : ∀ level pin, decode (encode (.wait level pin)) = .ok (.wait level pin) := by decide

theorem decode_encode_jnz_c0 : ∀ target, decode (encode (.jnz .c0 target)) = .ok (.jnz .c0 target) := by decide

theorem decode_encode_shin1 : ∀ base, decode (encode (.shin1 base)) = .ok (.shin1 base) := by decide

theorem decode_encode_shin4 :
    ∀ base, shinInRange base 4 = true → decode (encode (.shin4 base)) = .ok (.shin4 base) := by
  decide

theorem decode_encode_shin8 :
    ∀ base, shinInRange base 8 = true → decode (encode (.shin8 base)) = .ok (.shin8 base) := by
  decide

/-- The three data widths (R4). -/
theorem mem_dataWidths {n : Nat} : n ∈ Config.dataWidths ↔ n = 1 ∨ n = 4 ∨ n = 8 := by simp [Config.dataWidths]

/-- The SHIN of slot 13 decodes back where its pins exist (R95, R156). -/
theorem decode_encode_shinOf {base : PinIndex} {bits : Nat} (hb : bits ∈ Config.dataWidths)
    (hr : shinInRange base bits = true) : decode (encode (shinOf base bits)) = .ok (shinOf base bits) := by
  obtain rfl | rfl | rfl := mem_dataWidths.1 hb
  · exact decode_encode_shin1 base
  · exact decode_encode_shin4 base hr
  · exact decode_encode_shin8 base hr

/-- The SHIN of slot 13 fits an executor that has its pins. -/
theorem fits_shinOf {p : Params} {base : PinIndex} {bits : Nat} (hb : bits ∈ Config.dataWidths)
    (hr : base.toNat + bits ≤ p.nPins) : (shinOf base bits).fits p = true := by
  obtain rfl | rfl | rfl := mem_dataWidths.1 hb <;> simpa [shinOf, Instr.fits] using hr

/-- The SHIN of slot 13 is the shift of the data width (R128, R156). -/
theorem exec_shinOf {bits : Nat} (hb : bits ∈ Config.dataWidths) (base : PinIndex) (s : State) :
    exec (shinOf base bits) s = .next (s.shin (shinOf base bits) base bits) := by
  obtain rfl | rfl | rfl := mem_dataWidths.1 hb <;> rfl

/-! ### A counter counted down -/

/-- What counts strobes down by one, where they fit a counter (R127, R129). -/
theorem decremented_succ {p : Params} (hp : p.ctrW ≤ 32) {n : Nat} (hn : n + 1 < 2 ^ p.ctrW) :
    decremented p (BitVec.ofNat 32 (n + 1)) = BitVec.ofNat 32 n := by
  have hle : 2 ^ p.ctrW ≤ 2 ^ 32 := Nat.pow_le_pow_right (by decide) hp
  have hsum : n + 1 + (2 ^ p.ctrW - 1) = n + 2 ^ p.ctrW := by omega
  rw [decremented, narrow, BitVec.toNat_ofNat, Nat.mod_eq_of_lt (hn.trans_le hle), hsum, Nat.add_mod_right,
    Nat.mod_eq_of_lt (Nat.lt_of_succ_lt hn)]

/-- A count that fits a word is 0 exactly when its word is. -/
theorem ofNat_eq_zero_iff {n : Nat} (hn : n < 2 ^ 32) : BitVec.ofNat 32 n = 0 ↔ n = 0 := by
  rw [← BitVec.toNat_inj, BitVec.toNat_ofNat, Nat.mod_eq_of_lt hn]
  rfl

/-! ### The slots as TPX runs them -/

namespace Capturing

/-- SYN was given pins that exist (R21, R246). -/
theorem pinFault (h : Capturing s d) : d.synthInput.pinFault s.params = none := (synth_eq_ok h.sound.held).1

/-- The slots hold SYN's instructions (R31, R156). -/
theorem slot (h : Capturing s d) : s.slot = (d.synthInput.instrs s.params)[s.pc.toNat]?.map encode := by
  obtain ⟨-, -, hheld⟩ := synth_eq_ok h.sound.held
  simp [State.slot, h.program, hheld]

/-- TPX executes the instruction SYN put in the slot (R121). -/
theorem tpxStep (h : Capturing s d) {i : Instr} (hi : (d.synthInput.instrs s.params)[s.pc.toNat]? = some i)
    (hdecode : decode (encode i) = .ok i) (hfits : i.fits s.params = true) : s.tpxStep = exec i s := by
  have hw : s.params.instrW = 16 := ((runsSynth_iff _).1 h.room).1
  have hinstr : s.params.instrOf (encode i) = some i :=
    (instrOf_eq_some ..).2 ⟨hdecode, by rw [hw]; exact (encode i).isLt, hfits⟩
  simp [State.tpxStep, State.tpxRuns, h.runs, State.fetch, h.slot, hi, hinstr]

/-- Below slot 16 the next slot is the successor (R122). -/
theorem nextPc (h : Capturing s d) (hpc : s.pc ≠ 16) : s.nextPc = s.pc + 1 := by
  rw [State.nextPc, h.wrapTop, if_neg hpc]

/-- A WAIT for a level of pclk completes where pclk is driven to it (R124). -/
theorem wait_step (h : Capturing s d) {level : Bool} (hpc : s.pc ≠ 16)
    (hdriven : s.pins[d.config.pclkPin.toNat]? = some (some level))
    (hi : (d.synthInput.instrs s.params)[s.pc.toNat]? =
      some (.wait level (BitVec.ofNat 5 d.config.pclkPin.toNat))) :
    s.tpxStep = .next { s with pc := s.pc + 1 } := by
  obtain ⟨-, -, hpin, -⟩ := (pinFault_none ..).1 h.pinFault
  rw [BitVec.ofNat_toNat, BitVec.setWidth_eq] at hi
  rw [h.tpxStep hi (decode_encode_wait ..) (decide_eq_true hpin), exec, execWait, if_pos (pinLevel_of_driven hdriven),
    State.advance, h.nextPc hpc]

/-- The shift of slot 13 is of pins that exist, and never waits for room, OQ being drained (R95, R128). -/
theorem shin_step (h : Capturing s d) (hpc : s.pc = 13) (hoq : s.oq = []) :
    s.tpxStep = .next (s.shiftIn d.config.dataPinBase.toNat d.config.dataBits.toNat).advance := by
  have hadm := (admitted_iff _).1 h.admitted
  have hpins := h.sound.dataPins
  have hi : (d.synthInput.instrs s.params)[s.pc.toNat]? =
      some (shinOf (BitVec.ofNat 5 d.config.dataPinBase.toNat) d.config.dataBits.toNat) := by
    rw [hpc]; rfl
  rw [BitVec.ofNat_toNat, BitVec.setWidth_eq] at hi
  have hrange : shinInRange d.config.dataPinBase d.config.dataBits.toNat = true := decide_eq_true (by omega)
  have hroom : s.shinHeld d.config.dataBits.toNat = false := by
    have hspace : s.oqFull = false := by simp only [State.oqFull, hoq, List.length_nil, decide_eq_false_iff_not]; omega
    rw [State.shinHeld, hspace, Bool.and_false]
  rw [h.tpxStep hi (decode_encode_shinOf h.sound.width hrange) (fits_shinOf h.sound.width hpins),
    exec_shinOf h.sound.width, State.shin, if_pos hrange, if_neg (by simp [hroom])]

/-- The JNZ of slot 15 counts one strobe down, and goes back to slot 12 while strobes are left (R127). -/
theorem jnz_step (h : Capturing s d) (hpc : s.pc = 15) {n : Nat} (hc : s.c0 = some (BitVec.ofNat 32 (n + 1)))
    (hn : n + 1 < 2 ^ s.params.ctrW) :
    s.tpxStep = .next { s with c0 := some (BitVec.ofNat 32 n), pc := if n = 0 then 16 else 12 } := by
  obtain ⟨-, -, -, -, -, -, hw, -⟩ := (admitted_iff _).1 h.admitted
  obtain ⟨-, hctr, hroom⟩ := (runsSynth_iff _).1 h.room
  have hi : (d.synthInput.instrs s.params)[s.pc.toNat]? = some (.jnz .c0 12) := by rw [hpc]; rfl
  have hfits : (Instr.jnz .c0 12).fits s.params = true := by
    have htarget : 12 < s.params.progMax := by omega
    simpa [Instr.fits, Counter.fits, Counter.isC1, hctr] using htarget
  have hlt : n < 2 ^ 32 := by
    have := Nat.pow_le_pow_right (n := 2) (by decide) hw
    omega
  have hcount := decremented_succ hw hn
  have hzero := ofNat_eq_zero_iff hlt
  obtain ⟨t, ht, -⟩ := exec_frame (.jnz .c0 12) s
  rw [h.tpxStep hi (decode_encode_jnz_c0 12) hfits, ht]
  obtain ⟨hnone, -⟩ | ⟨v, hv, hne, rfl⟩ | ⟨v, hv, heq, rfl⟩ := exec_jnz_cases ht
  · exact absurd (hnone.symm.trans hc) nofun
  · obtain rfl := Option.some.inj (hv.symm.trans hc)
    rw [hcount] at hne ⊢
    rw [if_neg (hne ∘ hzero.2)]
    rfl
  · obtain rfl := Option.some.inj (hv.symm.trans hc)
    rw [hcount] at heq ⊢
    rw [if_pos (hzero.1 heq)]
    simp [State.advance, State.nextPc, h.wrapTop, hpc, State.setCounter]

end Capturing

end Sys2Proof.Machine
end

