-- ==== Sys2Proof/Proofs/Runs.lean ====
section
/-! PROOFS. Runs of a fixed number of steps that end where a claim asks, put together step by step. -/

namespace Sys2Proof.Machine

/-- `n` steps from `s` all answer next, and then `P` holds. -/
inductive Leads : Nat → State → (State → Prop) → Prop where
  | done {s : State} {P : State → Prop} (h : P s) : Leads 0 s P
  | step {n : Nat} {s u : State} {P : State → Prop} (e : step s = .next u) (h : Leads n u P) : Leads (n + 1) s P

namespace Leads

variable {m n : Nat} {s u : State} {P Q : State → Prop}

/-- The run of the machine ends there. -/
theorem run (h : Leads n s P) : ∃ t, Sys2Proof.core.run n s = .next t ∧ P t := by
  induction h with
  | done h => exact ⟨_, rfl, h⟩
  | step e _ ih =>
    obtain ⟨t, hrun, ht⟩ := ih
    exact ⟨t, by simpa only [Host.Core.run, core, e] using hrun, ht⟩

/-- Steps after steps. -/
theorem trans (h : Leads m s P) (hn : ∀ u, P u → Leads n u Q) : Leads (n + m) s Q := by
  induction h with
  | done h => exact hn _ h
  | step e _ ih => exact step e (ih hn)

/-- A step whose move is fixed is that move's, and the moves behind it are ahead then (R7). -/
theorem move {mv : Move} {rest : List Move} (hp : s.params.admitted = true) (ha : s.agenda = mv :: rest)
    (e : s.consume.runMove mv = .next u) (h : P u) : Leads 1 s P :=
  step (by rw [step_eq s hp, State.nextMove, ha]; exact e) (done h)

end Leads

end Sys2Proof.Machine
end

