-- ==== Sys2Proof/Proofs/LiveStrobes.lean ====
section
/-! PROOFS. The strobes of a line's live pixels under keep-up: one move, one strobe, the strobes of one pixel, the
strobes of a line (spec/41_synthesizer.md rules R162 and R163, spec/43_sensor_signal_contract.md rule R226,
spec/70_reset_and_hazards.md rule R284). -/

namespace Sys2Proof.Machine

/-! ### The pins during a strobe -/

/-- pclk driven reads at its level (R220). -/
theorem drivenPins_pclk (p : Params) (c : SensorConfig) (active : Bool) (pins : Vector (Option Bool) 32) :
    (drivenPins p c .pclk active pins)[c.pclkPin.toNat]? = some (some (signalLevel p .pclk active)) := by
  simp [drivenPins, SensorConfig.pin]

/-- Driving pclk leaves the data lines, pclk being none of them (R22). -/
theorem LinesCarry.drive_pclk {pins : Vector (Option Bool) 32} {c : SensorConfig} {v : Byte} (h : LinesCarry pins c v)
    (hwire : c.isDataPin c.pclkPin.toNat = false) (p : Params) (active : Bool) :
    LinesCarry (drivenPins p c .pclk active pins) c v := by
  intro i hi
  have hne : c.pclkPin.toNat ≠ c.dataPinBase.toNat + i := fun e => by
    simp [SensorConfig.isDataPin, e, hi] at hwire
  show (pins.set c.pclkPin.toNat _)[_]? = _
  rw [Vector.getElem?_set_ne _ hne]
  exact h i hi

/-! ### The byte in the making -/

/-- ISR with one more chunk behind it (R66, R128). -/
def joined (bits : Nat) (isr v : Byte) : Byte := BitVec.ofNat 8 (isr.toNat * 2 ^ bits + chunkOf bits v)

/-- Chunks joined one by one are those of a pixel value behind what ISR held (R226). -/
theorem foldl_joined (bits : Nat) (px : List Byte) (isr : Byte) :
    px.foldl (joined bits) isr =
      BitVec.ofNat 8 (isr.toNat * 2 ^ (bits * px.length) + pixelValue bits (px.map (chunkOf bits))) := by
  induction px generalizing isr with
  | nil => simp [pixelValue]
  | cons v px ih =>
    rw [List.foldl_cons, ih, joined, List.map_cons, pixelValue, List.length_map, List.length_cons]
    apply BitVec.eq_of_toNat_eq
    simp only [BitVec.toNat_ofNat]
    rw [Nat.add_mod, Nat.mod_mul_mod, ← Nat.add_mod]
    ring_nf

/-- The shift of slot 13 puts the chunk on the data lines behind ISR. -/
theorem Capturing.shifted {s : State} {d : Session} {v : Byte} (h : Capturing s d) (hv : LinesCarry s.pins d.config v) :
    s.shifted d.config.dataPinBase.toNat d.config.dataBits.toNat = joined d.config.dataBits.toNat s.isr v := by
  rw [State.shifted, if_pos h.msbFirst, h.wholeByte, hv.sample, joined]
  apply BitVec.eq_of_toNat_eq
  simp

/-! ### The bytes in the buffer -/

/-- The byte at address `a` once `bytes` stand from `base` on in a memory (R68). -/
def overlaid (base : Nat) (bytes : List Byte) (m : Memory) (a : Nat) : Option Byte :=
  (if base ≤ a then bytes[a - base]? else none).or (m.read a)

theorem overlaid_nil (base : Nat) (m : Memory) (a : Nat) : overlaid base [] m a = m.read a := by simp [overlaid]

/-- One more byte written behind those that stand there. -/
theorem read_write_of_overlaid {m m₀ : Memory} {base : Nat} {bytes : List Byte}
    (h : ∀ a, m.read a = overlaid base bytes m₀ a) (b : Byte) (a : Nat) :
    (m.write (base + bytes.length) b).read a = overlaid base (bytes ++ [b]) m₀ a := by
  rw [Memory.read_write, h, overlaid, overlaid]
  obtain hlow | hhigh := Nat.lt_or_ge a base
  · rw [if_neg (by omega), if_neg (by omega), if_neg (by omega)]
  · rw [if_pos hhigh, if_pos hhigh]
    obtain hlt | rfl | hgt := Nat.lt_trichotomy a (base + bytes.length)
    · rw [if_neg (by omega), List.getElem?_append_left (by omega)]
    · simp
    · rw [if_neg (by omega), List.getElem?_eq_none (by omega), List.getElem?_eq_none (by simp; omega)]

/-! ### Where the capture of a line stands -/

/-- What the strobes of a line change, beside SEN's own record: slot, strobes left, ISR with the number of bits in it,
OQ, the pins, the bytes put in the buffer so far, and the moves ahead. -/
structure Place where
  pc : Slot
  left : Nat
  isr : Byte
  bitsIn : Nat
  oq : List Byte
  pins : Vector (Option Bool) 32
  stored : List Byte
  moves : List Move

/-- The machine is at that place of the capture begun in state `s₀`. -/
structure At (s₀ : State) (d : Session) (x : Place) (s : State) : Prop extends Capturing s d where
  params : s.params = s₀.params
  pc : s.pc = x.pc
  left : s.c0 = some (BitVec.ofNat 32 x.left)
  isr : s.isr = x.isr
  bitsIn : s.isrcnt.toNat = x.bitsIn
  oq : s.oq = x.oq
  pins : s.pins = x.pins
  moves : s.agenda = x.moves
  faults : s.faults = s₀.faults
  index : s.dst + s.remain = s.count
  active : 0 < s.remain → s.active = true
  dstBase : s.dstBase = s₀.dstBase
  dst : s.dst = s₀.dst + x.stored.length
  remain : s.remain = s₀.remain - x.stored.length
  buffer : ∀ a, s.mem.read a = overlaid (s₀.dstBase + s₀.dst) x.stored s₀.mem a

namespace At

variable {s₀ s : State} {d : Session} {x : Place} {v : Byte} {rest : List Move}

theorem consume (h : At s₀ d x s) {m : Move} (hm : x.moves = m :: rest) : At s₀ d { x with moves := rest } s.consume :=
  { h with moves := by rw [State.consume_agenda, h.moves, hm, List.tail_cons] }

/-- A move of SEN changes the pins as the event says (R220). -/
theorem sen (h : At s₀ d x s) {e : SenEvent} (hm : x.moves = .sen e :: rest) {pins : Vector (Option Bool) 32}
    (hpins : s.pinsAfter d e = pins) : Leads 1 s (At s₀ d { x with pins := pins, moves := rest }) := by
  have h' := h.consume hm
  refine .move h.admitted (h.moves.trans hm) rfl ?_
  rw [senStep_of_session h'.session]
  exact { h' with pins := hpins }

/-- SEN puts a value on the data lines. -/
theorem drive_data (h : At s₀ d x s) (hm : x.moves = .sen (.data v) :: rest) :
    Leads 1 s (At s₀ d { x with pins := dataPins d.config v x.pins, moves := rest }) :=
  h.sen hm (by rw [← h.pins]; rfl)

/-- SEN drives pclk. -/
theorem drive_pclk (h : At s₀ d x s) {active : Bool} (hm : x.moves = .sen (.drive .pclk active) :: rest) :
    Leads 1 s (At s₀ d { x with pins := drivenPins s₀.params d.config .pclk active x.pins, moves := rest }) :=
  h.sen hm (by rw [← h.pins, ← h.params]; rfl)

/-- A WAIT for a level pclk is driven to completes. -/
theorem wait (h : At s₀ d x s) (hm : x.moves = .tpx :: rest) {level : Bool} {next : Slot} (hpc : x.pc ≠ 16)
    (hnext : x.pc + 1 = next) (hdriven : x.pins[d.config.pclkPin.toNat]? = some (some level))
    (hi : (d.synthInput.instrs s.params)[x.pc.toNat]? =
      some (.wait level (BitVec.ofNat 5 d.config.pclkPin.toNat))) :
    Leads 1 s (At s₀ d { x with pc := next, moves := rest }) := by
  have h' := h.consume hm
  have e := h'.wait_step (h'.pc ▸ hpc) (h'.pins ▸ hdriven) (h'.pc ▸ hi)
  exact .move h.admitted (h.moves.trans hm) e { h' with pc := (congrArg (· + 1) h'.pc).trans hnext }

/-- Behind slot 13 comes slot 14. -/
theorem slot14 (h : At s₀ d x s) (hpc : x.pc = 13) : s.nextPc = 14 := by
  rw [h.nextPc (by rw [h.pc, hpc]; decide), h.pc, hpc]
  rfl

/-- SHIN short of a whole byte: the chunk goes behind ISR (R128). -/
theorem shin_keep (h : At s₀ d x s) (hm : x.moves = .tpx :: rest) (hpc : x.pc = 13) (hoq : x.oq = [])
    (hv : LinesCarry x.pins d.config v) (hbits : x.bitsIn + d.config.dataBits.toNat < 8) :
    Leads 1 s (At s₀ d { x with
      pc := 14, isr := joined d.config.dataBits.toNat x.isr v, bitsIn := x.bitsIn + d.config.dataBits.toNat
      moves := rest }) := by
  have h' := h.consume hm
  have e := h'.shin_step (h'.pc.trans hpc) (h'.oq.trans hoq)
  have hdue : s.consume.byteDue d.config.dataBits.toNat = false := by
    simp [State.byteDue, h.wholeByte, h.bitsIn, hbits]
  have hfits : x.bitsIn + d.config.dataBits.toNat < 2 ^ 4 := by omega
  rw [State.shiftIn, if_neg (by simp [hdue]), h'.shifted (h'.pins ▸ hv), h'.isr, h'.bitsIn] at e
  exact .move h.admitted (h.moves.trans hm) e
    { h' with
      pc := h'.slot14 hpc
      isr := rfl
      bitsIn := (BitVec.toNat_ofNat ..).trans (Nat.mod_eq_of_lt hfits) }

/-- SHIN at the end of a byte: the whole byte goes to OQ (R128). -/
theorem shin_push (h : At s₀ d x s) (hm : x.moves = .tpx :: rest) (hpc : x.pc = 13) (hoq : x.oq = [])
    (hv : LinesCarry x.pins d.config v) (hbits : x.bitsIn + d.config.dataBits.toNat = 8) :
    Leads 1 s (At s₀ d { x with
      pc := 14, isr := 0, bitsIn := 0, oq := [joined d.config.dataBits.toNat x.isr v], moves := rest }) := by
  have h' := h.consume hm
  have e := h'.shin_step (h'.pc.trans hpc) (h'.oq.trans hoq)
  have hdue : s.consume.byteDue d.config.dataBits.toNat = true := by
    simp [State.byteDue, h.wholeByte, h.bitsIn, hbits]
  rw [State.shiftIn, if_pos hdue, h'.shifted (h'.pins ▸ hv), h'.isr, h'.oq, hoq, List.nil_append] at e
  exact .move h.admitted (h.moves.trans hm) e
    { h' with pc := h'.slot14 hpc, isr := rfl, bitsIn := rfl, oq := rfl }

/-- BTE has nothing to move while OQ is drained (R200). -/
theorem bte_idle (h : At s₀ d x s) (hm : x.moves = .bte :: rest) (hoq : x.oq = []) :
    Leads 1 s (At s₀ d { x with moves := rest }) := by
  have h' := h.consume hm
  refine .move h.admitted (h.moves.trans hm) ?_ h'
  show s.consume.bteStep = _
  rw [State.bteStep, if_neg (by simp [State.bteRuns, h.oq, hoq])]

/-- BTE moves the byte in OQ to the next byte of the buffer (R200). -/
theorem bte_move (h : At s₀ d x s) (hm : x.moves = .bte :: rest) {b : Byte} (hoq : x.oq = [b])
    (hroom : x.stored.length < s₀.remain) :
    Leads 1 s (At s₀ d { x with oq := [], stored := x.stored ++ [b], moves := rest }) := by
  have h' := h.consume hm
  have hremain : 0 < s.remain := by rw [h.remain]; omega
  have hindex := h.index
  have hlength : (x.stored ++ [b]).length = x.stored.length + 1 := by simp
  obtain ⟨hidle, -⟩ | ⟨-, -, b', rest', hq, ⟨-, e⟩ | ⟨hfull, -⟩⟩ := bteStep_cases s.consume
  · simp [State.bteRuns, h.active hremain, hremain, h.oq, hoq] at hidle
  · obtain ⟨rfl, rfl⟩ : b = b' ∧ [] = rest' := by simpa [h.oq, hoq] using hq
    have haddress : s.dstBase + s.dst = s₀.dstBase + s₀.dst + x.stored.length := by rw [h.dstBase, h.dst, Nat.add_assoc]
    exact .move h.admitted (h.moves.trans hm) e
      { h' with
        oq := rfl
        index := by show s.dst + 1 + (s.remain - 1) = s.count; omega
        active := fun hmore => (if_neg (Nat.ne_of_gt hmore)).trans (h.active hremain)
        dst := by rw [hlength]; exact congrArg (· + 1) h.dst
        remain := by rw [hlength]; exact congrArg (· - 1) h.remain
        buffer := fun a => by
          show (s.mem.write (s.dstBase + s.dst) b).read a = _
          rw [haddress, read_write_of_overlaid h.buffer] }
  · simp only [State.consume_count, State.consume_dst] at hfull
    omega

/-- The JNZ of slot 15 counts the strobe, and goes back to slot 12 while strobes are left (R127). -/
theorem jnz (h : At s₀ d x s) (hm : x.moves = .tpx :: rest) (hpc : x.pc = 15) {n : Nat} (hleft : x.left = n + 1)
    (hn : n + 1 < 2 ^ s₀.params.ctrW) :
    Leads 1 s (At s₀ d { x with pc := if n = 0 then 16 else 12, left := n, moves := rest }) := by
  have h' := h.consume hm
  have e := h'.jnz_step (h'.pc.trans hpc) (hleft ▸ h'.left) (h'.params ▸ hn)
  exact .move h.admitted (h.moves.trans hm) e { h' with pc := rfl, left := rfl }

/-! ### One strobe -/

/-- A strobe begins: SEN puts the chunk on the data lines and drives pclk active, and TPX goes on to slot 13. -/
theorem begin_strobe (h : At s₀ d x s) (hpc : x.pc = 12)
    (hm : x.moves = .sen (.data v) :: .sen (.drive .pclk true) :: .tpx :: rest) :
    Leads 3 s fun t => ∃ pins, LinesCarry pins d.config v ∧
      At s₀ d { x with pc := 13, pins := pins, moves := rest } t := by
  refine (h.drive_data hm).trans fun u₁ h₁ => (h₁.drive_pclk rfl).trans fun u₂ h₂ => ?_
  have hlines := (linesCarry_dataPins h.sound h.admitted v x.pins).drive_pclk h.wiring s₀.params true
  have hslot : (d.synthInput.instrs u₂.params)[x.pc.toNat]? =
      some (.wait (signalLevel s₀.params .pclk true) (BitVec.ofNat 5 d.config.pclkPin.toNat)) := by
    rw [hpc, h₂.params]; rfl
  exact (h₂.wait rfl (by rw [hpc]; decide) (by rw [hpc]; rfl) (drivenPins_pclk ..) hslot).trans
    fun u₃ h₃ => .done ⟨_, hlines, h₃⟩

/-- A strobe ends: SEN drives pclk inactive, and TPX counts the strobe. -/
theorem end_strobe (h : At s₀ d x s) (hpc : x.pc = 14) {n : Nat} (hleft : x.left = n + 1)
    (hn : n + 1 < 2 ^ s₀.params.ctrW) (hm : x.moves = .sen (.drive .pclk false) :: .tpx :: .tpx :: rest) :
    Leads 3 s fun t => ∃ pins, At s₀ d
      { x with pc := if n = 0 then 16 else 12, left := n, pins := pins, moves := rest } t := by
  refine (h.drive_pclk hm).trans fun u₁ h₁ => ?_
  have hslot : (d.synthInput.instrs u₁.params)[x.pc.toNat]? =
      some (.wait (signalLevel s₀.params .pclk false) (BitVec.ofNat 5 d.config.pclkPin.toNat)) := by
    rw [hpc, h₁.params]; rfl
  refine (h₁.wait rfl (by rw [hpc]; decide) (by rw [hpc]) (drivenPins_pclk ..) hslot).trans fun u₂ h₂ => ?_
  exact (h₂.jnz rfl rfl hleft hn).trans fun u₃ h₃ => .done ⟨_, h₃⟩

end At

/-- Between two strobes: `n` strobes are left, `bitsIn` bits of a byte are in ISR, OQ is drained, `bytes` stand in the
buffer and `moves` are ahead. TPX is at slot 12, or at slot 16 when no strobe is left. -/
def Between (s₀ : State) (d : Session) (n : Nat) (isr : Byte) (bitsIn : Nat) (bytes : List Byte) (moves : List Move)
    (s : State) : Prop :=
  ∃ pins, At s₀ d
    { pc := if n = 0 then 16 else 12, left := n, isr := isr, bitsIn := bitsIn, oq := [], pins := pins, stored := bytes
      moves := moves } s

namespace Between

variable {s₀ s : State} {d : Session} {n bitsIn : Nat} {isr v : Byte} {bytes : List Byte} {rest : List Move}

theorem dataBits_pos (h : Between s₀ d n isr bitsIn bytes rest s) : 0 < d.config.dataBits.toNat := by
  obtain ⟨_, h⟩ := h
  obtain e | e | e := mem_dataWidths.1 h.sound.width <;> omega

/-- A strobe short of a whole byte. -/
theorem strobe_keep (h : Between s₀ d (n + 1) isr bitsIn bytes (strobeMoves v ++ rest) s)
    (hn : n + 1 < 2 ^ s₀.params.ctrW) (hbits : bitsIn + d.config.dataBits.toNat < 8) :
    Leads 8 s
      (Between s₀ d n (joined d.config.dataBits.toNat isr v) (bitsIn + d.config.dataBits.toNat) bytes rest) := by
  obtain ⟨_, h⟩ := h
  refine (h.begin_strobe rfl rfl).trans fun u₁ ⟨_, hlines, h₁⟩ => ?_
  refine (h₁.shin_keep rfl rfl rfl hlines hbits).trans fun u₂ h₂ => ?_
  exact (h₂.bte_idle rfl rfl).trans fun u₃ h₃ => h₃.end_strobe rfl rfl hn rfl

/-- The strobe that completes a byte. -/
theorem strobe_push (h : Between s₀ d (n + 1) isr bitsIn bytes (strobeMoves v ++ rest) s)
    (hn : n + 1 < 2 ^ s₀.params.ctrW) (hbits : bitsIn + d.config.dataBits.toNat = 8)
    (hroom : bytes.length < s₀.remain) :
    Leads 8 s (Between s₀ d n 0 0 (bytes ++ [joined d.config.dataBits.toNat isr v]) rest) := by
  obtain ⟨_, h⟩ := h
  refine (h.begin_strobe rfl rfl).trans fun u₁ ⟨_, hlines, h₁⟩ => ?_
  refine (h₁.shin_push rfl rfl rfl hlines hbits).trans fun u₂ h₂ => ?_
  exact (h₂.bte_move rfl rfl hroom).trans fun u₃ h₃ => h₃.end_strobe rfl rfl hn rfl

/-! ### The strobes of a pixel and of a line -/

/-- The strobes of the chunks that complete a byte put it in the buffer, the first chunk most significant (R66,
R226). -/
theorem strobes_of_byte {px : List Byte} (hpx : px ≠ [])
    (h : Between s₀ d (px.length + n) isr bitsIn bytes (px.flatMap strobeMoves ++ rest) s)
    (hn : px.length + n < 2 ^ s₀.params.ctrW) (hbits : bitsIn + d.config.dataBits.toNat * px.length = 8)
    (hroom : bytes.length < s₀.remain) :
    Leads (8 * px.length) s
      (Between s₀ d n 0 0 (bytes ++ [px.foldl (joined d.config.dataBits.toNat) isr]) rest) := by
  induction px generalizing s isr bitsIn with
  | nil => exact absurd rfl hpx
  | cons v px ih =>
    have hcount : (v :: px).length + n = px.length + n + 1 := by rw [List.length_cons, Nat.add_right_comm]
    rw [hcount] at h hn
    rw [List.flatMap_cons, List.append_assoc] at h
    rw [List.length_cons, Nat.mul_succ] at hbits ⊢
    by_cases hlast : px = []
    · subst hlast
      simp only [List.length_nil, List.flatMap_nil, List.nil_append, Nat.zero_add, Nat.mul_zero] at h hn hbits ⊢
      exact h.strobe_push hn hbits hroom
    · have hpos : 0 < d.config.dataBits.toNat * px.length := Nat.mul_pos h.dataBits_pos (List.length_pos_iff.2 hlast)
      exact (h.strobe_keep hn (by omega)).trans fun u hu => ih hlast hu (by omega) (by omega)

/-- The strobes of a line of pixels put their values in the buffer in order (R68, R163). -/
theorem strobes_of_line {pixels : List (List Byte)} {ppc : Nat} (hppc : d.config.dataBits.toNat * ppc = 8)
    (hlen : ∀ px ∈ pixels, px.length = ppc)
    (h : Between s₀ d (pixels.length * ppc) 0 0 bytes (pixels.flatten.flatMap strobeMoves ++ rest) s)
    (hn : pixels.length * ppc < 2 ^ s₀.params.ctrW) (hroom : bytes.length + pixels.length ≤ s₀.remain) :
    Leads (8 * (pixels.length * ppc)) s
      (Between s₀ d 0 0 0 (bytes ++ pixels.map (List.foldl (joined d.config.dataBits.toNat) 0)) rest) := by
  induction pixels generalizing s bytes with
  | nil =>
    rw [List.length_nil, Nat.zero_mul] at h ⊢
    rw [List.map_nil, List.append_nil]
    exact .done h
  | cons px pixels ih =>
    obtain ⟨hpx, hrest⟩ := List.forall_mem_cons.1 hlen
    have hcount : (px :: pixels).length * ppc = px.length + pixels.length * ppc := by
      rw [List.length_cons, Nat.succ_mul, hpx, Nat.add_comm]
    have hne : px ≠ [] := by
      rintro rfl
      rw [← hpx, List.length_nil] at hppc
      omega
    rw [List.length_cons] at hroom
    rw [hcount] at h hn ⊢
    rw [List.flatten_cons, List.flatMap_append, List.append_assoc] at h
    rw [Nat.mul_add, Nat.add_comm (8 * _), List.map_cons, ← List.singleton_append, ← List.append_assoc]
    refine (h.strobes_of_byte hne hn (by rw [hpx, Nat.zero_add, hppc]) (by omega)).trans fun u hu => ?_
    exact ih hrest hu (by omega) (by rw [List.length_append, List.length_singleton]; omega)

end Between

/-! ### The statement -/

/-- The strobes of one pixel make up a byte (R152, R153). -/
theorem SessionSound.bits_mul_ppc {p : Params} {d : Session} (h : SessionSound p d) :
    d.config.dataBits.toNat * d.mode.ppc = 8 := by
  rw [h.ppc, ppcOf]
  obtain e | e | e := mem_dataWidths.1 h.width <;> rw [e]

/-- At the first live strobe of a line nothing has been stored yet. -/
theorem AtLiveStrobe.between {s : State} {d : Session} (h : AtLiveStrobe s d) {n : Nat} (hn : n ≠ 0)
    (hc : s.c0 = some (BitVec.ofNat 32 n)) : Between s d n 0 0 [] s.agenda s :=
  ⟨s.pins,
    { h.capturing with
      params := rfl
      pc := by rw [if_neg hn]; exact h.pc
      left := hc
      isr := h.boundary.1
      bitsIn := by rw [h.boundary.2]; rfl
      oq := h.drained
      pins := rfl
      moves := rfl
      faults := rfl
      index := h.transfer.2
      active := fun _ => h.transfer.1
      dstBase := rfl
      dst := rfl
      remain := rfl
      buffer := fun a => (overlaid_nil ..).symm }⟩

/-- The bytes of the pixels, read where they stand. -/
theorem overlaid_pixels (base bits : Nat) (pixels : List (List Byte)) (m : Memory) (a : Nat) :
    overlaid base (pixels.map (List.foldl (joined bits) 0)) m a =
      match (if base ≤ a then pixels[a - base]? else none) with
      | some px => some (BitVec.ofNat 8 (pixelValue bits (px.map (chunkOf bits))))
      | none => m.read a := by
  rw [overlaid, List.getElem?_map]
  by_cases hbase : base ≤ a
  · rw [if_pos hbase, if_pos hbase]
    cases pixels[a - base]? with
    | none => rfl
    | some px => simp [foldl_joined]
  · rw [if_neg hbase, if_neg hbase]
    rfl

/-- Settles O59, by induction over the pixels of the line and the chunks of each pixel. -/
theorem liveStrobesFillTheBuffer : Obligations.LiveStrobesFillTheBuffer := by
  intro s d pixels rest h hne hlen hroom hn hc ha
  have hppc := h.sound.bits_mul_ppc
  have hppc_ne : d.mode.ppc ≠ 0 := fun e => by simp [e] at hppc
  have hcount : pixels.length * d.mode.ppc ≠ 0 := Nat.mul_ne_zero (List.length_pos_iff.2 hne).ne' hppc_ne
  have hstart := h.between hcount hc
  rw [ha] at hstart
  obtain ⟨t, hrun, pins, ht⟩ := (hstart.strobes_of_line hppc hlen hn (by simpa using hroom)).run
  refine ⟨t, hrun, ht.pc, ht.left, ht.isr, BitVec.eq_of_toNat_eq ht.bitsIn, ht.oq, ht.moves, ?_, ?_, ht.faults,
    fun a => (ht.buffer a).trans ?_⟩
  · simpa using ht.dst
  · simpa using ht.remain
  · rw [List.nil_append]
    exact overlaid_pixels ..

end Sys2Proof.Machine
end

