-- ==== Sys2Proof/Proofs/WordFields.lean ====
section
/-! PROOFS. An instruction word as the fields of its format (spec/30_encoding.md rule R91): a word is a given layout of
fields exactly when its fields are those, and a mask keeps or drops whole fields. -/

namespace Sys2Proof

/-! ### Slices of a bit vector -/

/-- Two pairs of fields of the same widths are the same bits exactly when they are the same fields. -/
theorem bitVec_append_inj {m n : Nat} {a c : BitVec m} {b d : BitVec n} : a ++ b = c ++ d ↔ a = c ∧ b = d := by
  refine ⟨fun h => ⟨?_, ?_⟩, fun ⟨ha, hb⟩ => by rw [ha, hb]⟩
  · simpa only [BitVec.extractLsb'_append_eq_left] using congrArg (BitVec.extractLsb' n m) h
  · simpa only [BitVec.extractLsb'_append_eq_right] using congrArg (BitVec.extractLsb' 0 n) h

/-- A slice is two fields side by side exactly when its two parts are those fields. -/
theorem slice_eq_append_iff {w m n : Nat} {x : BitVec w} {k : Nat} {a : BitVec m} {b : BitVec n} :
    x.extractLsb' k (m + n) = a ++ b ↔ x.extractLsb' (k + n) m = a ∧ x.extractLsb' k n = b := by
  rw [← BitVec.extractLsb'_append_extractLsb'_eq_extractLsb' rfl, bitVec_append_inj]

/-- A slice of one bit is that bit. -/
theorem slice_eq_ofBool_iff {w : Nat} {x : BitVec w} {k : Nat} {b : Bool} :
    x.extractLsb' k 1 = BitVec.ofBool b ↔ x.getLsbD k = b := by
  have hbit : x.extractLsb' k 1 = BitVec.ofBool (x.getLsbD k) := by
    ext i hi
    obtain rfl := Nat.lt_one_iff.1 hi
    simp
  rw [hbit, BitVec.ofBool_eq_iff_eq]

/-! ### The formats of R91 -/

section Formats

variable {w : Word} {op : BitVec 3} {b : Bool}

/-- The format of WAIT and JNZ (R91). -/
theorem eq_pinFormat_iff {mid : BitVec 7} {low : BitVec 5} :
    w = op ++ BitVec.ofBool b ++ mid ++ low ↔
      opField w = op ∧ bit12 w = b ∧ midField w = mid ∧ lowField w = low :=
  calc w = op ++ BitVec.ofBool b ++ mid ++ low
    _ ↔ w.extractLsb' 0 (3 + 1 + 7 + 5) = op ++ BitVec.ofBool b ++ mid ++ low := by rw [BitVec.extractLsb'_eq_self]
    _ ↔ _ := by simp only [slice_eq_append_iff, slice_eq_ofBool_iff, and_assoc]; rfl

/-- The format of SHIN (R91). -/
theorem eq_shinFormat_iff {reserved : BitVec 4} {base : PinIndex} {nbits : BitVec 4} :
    w = op ++ reserved ++ base ++ nbits ↔
      opField w = op ∧ shinReservedField w = reserved ∧ baseField w = base ∧ nbitsField w = nbits :=
  calc w = op ++ reserved ++ base ++ nbits
    _ ↔ w.extractLsb' 0 (3 + 4 + 5 + 4) = op ++ reserved ++ base ++ nbits := by rw [BitVec.extractLsb'_eq_self]
    _ ↔ _ := by simp only [slice_eq_append_iff, and_assoc]; rfl

/-- The format of SETC and LATCH (R91, R92). -/
theorem eq_counterFormat_iff {src : Bool} {imm : BitVec 11} :
    w = op ++ BitVec.ofBool b ++ BitVec.ofBool src ++ imm ↔
      opField w = op ∧ bit12 w = b ∧ srcBit w = src ∧ immField w = imm :=
  calc w = op ++ BitVec.ofBool b ++ BitVec.ofBool src ++ imm
    _ ↔ w.extractLsb' 0 (3 + 1 + 1 + 11) = op ++ BitVec.ofBool b ++ BitVec.ofBool src ++ imm := by
      rw [BitVec.extractLsb'_eq_self]
    _ ↔ _ := by simp only [slice_eq_append_iff, slice_eq_ofBool_iff, and_assoc]; rfl

end Formats

/-! ### Masks -/

section Masks

variable (w m : Word)

@[simp] theorem opField_and : opField (w &&& m) = opField w &&& opField m := BitVec.extractLsb'_and
@[simp] theorem bit12_and : bit12 (w &&& m) = (bit12 w && bit12 m) := BitVec.getLsbD_and
@[simp] theorem lowField_and : lowField (w &&& m) = lowField w &&& lowField m := BitVec.extractLsb'_and
@[simp] theorem midField_and : midField (w &&& m) = midField w &&& midField m := BitVec.extractLsb'_and
@[simp] theorem baseField_and : baseField (w &&& m) = baseField w &&& baseField m := BitVec.extractLsb'_and
@[simp] theorem nbitsField_and : nbitsField (w &&& m) = nbitsField w &&& nbitsField m := BitVec.extractLsb'_and
@[simp] theorem shinReservedField_and :
    shinReservedField (w &&& m) = shinReservedField w &&& shinReservedField m := BitVec.extractLsb'_and
@[simp] theorem immField_and : immField (w &&& m) = immField w &&& immField m := BitVec.extractLsb'_and
@[simp] theorem srcBit_and : srcBit (w &&& m) = (srcBit w && srcBit m) := BitVec.getLsbD_and

/-- A mask laid out in the format of WAIT and JNZ acts on each field. -/
theorem and_pinFormat_eq_iff (mop op : BitVec 3) (mb b : Bool) (mmid mid : BitVec 7) (mlow low : BitVec 5) :
    w &&& (mop ++ BitVec.ofBool mb ++ mmid ++ mlow) = op ++ BitVec.ofBool b ++ mid ++ low ↔
      opField w &&& mop = op ∧ (bit12 w && mb) = b ∧ midField w &&& mmid = mid ∧ lowField w &&& mlow = low := by
  obtain ⟨hop, hb, hmid, hlow⟩ := eq_pinFormat_iff.1 (Eq.refl (mop ++ BitVec.ofBool mb ++ mmid ++ mlow))
  rw [eq_pinFormat_iff, opField_and, bit12_and, midField_and, lowField_and, hop, hb, hmid, hlow]

/-- A mask laid out in SHIN's format acts on each field. -/
theorem and_shinFormat_eq_iff (mop op : BitVec 3) (mres res : BitVec 4) (mbase base : PinIndex) (mn n : BitVec 4) :
    w &&& (mop ++ mres ++ mbase ++ mn) = op ++ res ++ base ++ n ↔
      opField w &&& mop = op ∧ shinReservedField w &&& mres = res ∧ baseField w &&& mbase = base ∧
        nbitsField w &&& mn = n := by
  obtain ⟨hop, hres, hbase, hn⟩ := eq_shinFormat_iff.1 (Eq.refl (mop ++ mres ++ mbase ++ mn))
  rw [eq_shinFormat_iff, opField_and, shinReservedField_and, baseField_and, nbitsField_and, hop, hres, hbase, hn]

/-- A mask laid out in the format of SETC and LATCH acts on each field. -/
theorem and_counterFormat_eq_iff (mop op : BitVec 3) (mb b msrc src : Bool) (mimm imm : BitVec 11) :
    w &&& (mop ++ BitVec.ofBool mb ++ BitVec.ofBool msrc ++ mimm) =
        op ++ BitVec.ofBool b ++ BitVec.ofBool src ++ imm ↔
      opField w &&& mop = op ∧ (bit12 w && mb) = b ∧ (srcBit w && msrc) = src ∧ immField w &&& mimm = imm := by
  obtain ⟨hop, hb, hsrc, himm⟩ :=
    eq_counterFormat_iff.1 (Eq.refl (mop ++ BitVec.ofBool mb ++ BitVec.ofBool msrc ++ mimm))
  rw [eq_counterFormat_iff, opField_and, bit12_and, srcBit_and, immField_and, hop, hb, hsrc, himm]

/-- WAIT's mask and JNZ's keeps the opcode and bits 11:5 (R97). -/
theorem and_0xEFE0_eq_iff (op : BitVec 3) :
    w &&& 0xEFE0 = op ++ BitVec.ofBool false ++ 0#7 ++ 0#5 ↔ opField w = op ∧ midField w = 0 :=
  (and_pinFormat_eq_iff w (.allOnes 3) op false false (.allOnes 7) 0 0 0).trans (by simp [-BitVec.reduceAllOnes])

/-- SHIN's mask drops `base` (R97). -/
theorem and_0xFE0F_eq_iff (n : BitVec 4) :
    w &&& 0xFE0F = 2#3 ++ 0#4 ++ 0#5 ++ n ↔ opField w = 2 ∧ shinReservedField w = 0 ∧ nbitsField w = n :=
  (and_shinFormat_eq_iff w (.allOnes 3) 2 (.allOnes 4) 0 0 0 (.allOnes 4) n).trans (by simp [-BitVec.reduceAllOnes])

/-- SETC's mask keeps the opcode and the source bit (R97). -/
theorem and_0xE800_eq_iff : w &&& 0xE800 = 0x6000 ↔ opField w = 3 ∧ srcBit w = false :=
  (and_counterFormat_eq_iff w (.allOnes 3) 3 false false true false 0 0).trans (by simp [-BitVec.reduceAllOnes])

/-- LATCH's mask drops the counter bit (R97). -/
theorem and_0xEFFF_eq_iff : w &&& 0xEFFF = 0x6800 ↔ opField w = 3 ∧ srcBit w = true ∧ immField w = 0 :=
  (and_counterFormat_eq_iff w (.allOnes 3) 3 false false true true (.allOnes 11) 0).trans
    (by simp [-BitVec.reduceAllOnes])

/-- The bits that WAIT and JNZ reserve (R98). -/
theorem and_0x0FE0_eq_zero_iff : w &&& 0x0FE0 = 0 ↔ midField w = 0 :=
  (and_pinFormat_eq_iff w 0 0 false false (.allOnes 7) 0 0 0).trans (by simp [-BitVec.reduceAllOnes])

/-- The bits that SHIN reserves (R98). -/
theorem and_0x1E00_eq_zero_iff : w &&& 0x1E00 = 0 ↔ shinReservedField w = 0 :=
  (and_shinFormat_eq_iff w 0 0 (.allOnes 4) 0 0 0 0 0).trans (by simp [-BitVec.reduceAllOnes])

/-- The source bit, which tells LATCH from SETC (R91). -/
theorem and_0x0800_eq_zero_iff : w &&& 0x0800 = 0 ↔ srcBit w = false :=
  (and_counterFormat_eq_iff w 0 0 false false true false 0 0).trans (by simp)

/-- The bits that LATCH reserves (R98). -/
theorem and_0x07FF_eq_zero_iff : w &&& 0x07FF = 0 ↔ immField w = 0 :=
  (and_counterFormat_eq_iff w 0 0 false false false false (.allOnes 11) 0).trans (by simp [-BitVec.reduceAllOnes])

end Masks

/-! ### The fields that a number names -/

theorem opField_eq_iff {w : Word} {op : BitVec 3} : opField w = op ↔ w.toNat / 8192 = op.toNat := by
  have hfit : w.toNat / 8192 < 8 := by have := w.isLt; omega
  rw [← BitVec.toNat_inj, opField, BitVec.extractLsb'_toNat, Nat.shiftRight_eq_div_pow, Nat.mod_eq_of_lt hfit]

theorem baseField_toNat (w : Word) : (baseField w).toNat = w.toNat / 16 % 32 := by
  rw [baseField, BitVec.extractLsb'_toNat, Nat.shiftRight_eq_div_pow]

theorem nbitsField_toNat (w : Word) : (nbitsField w).toNat = w.toNat % 16 := by
  rw [nbitsField, BitVec.extractLsb'_toNat, Nat.shiftRight_zero]

theorem nbitsField_eq_iff {w : Word} {n : BitVec 4} : nbitsField w = n ↔ w.toNat % 16 = n.toNat := by
  rw [← BitVec.toNat_inj, nbitsField_toNat]

end Sys2Proof
end

