-- ==== Sys2Proof/Proofs/Encoding.lean ====
section
/-! PROOFS. The decoder and the encoder (spec/30_encoding.md): a word decodes to an instruction exactly when its fields
are that instruction's, and so exactly when it is the word of that legal instruction. -/

namespace Sys2Proof

/-- The row of R97 for the instruction: the conditions on the fields of the word, and the operands that it names. -/
def HasFields (w : Word) : Instr → Prop
  | .wait level pin => opField w = 1 ∧ bit12 w = level ∧ midField w = 0 ∧ lowField w = pin
  | .shin1 base => opField w = 2 ∧ shinReservedField w = 0 ∧ baseField w = base ∧ nbitsField w = 1
  | .shin4 base =>
    (opField w = 2 ∧ shinReservedField w = 0 ∧ baseField w = base ∧ nbitsField w = 4) ∧ shinInRange base 4 = true
  | .shin8 base =>
    (opField w = 2 ∧ shinReservedField w = 0 ∧ baseField w = base ∧ nbitsField w = 8) ∧ shinInRange base 8 = true
  | .setc c imm => opField w = 3 ∧ bit12 w = c.isC1 ∧ srcBit w = false ∧ immField w = imm
  | .latch c => opField w = 3 ∧ bit12 w = c.isC1 ∧ srcBit w = true ∧ immField w = 0
  | .jnz c target => opField w = 4 ∧ bit12 w = c.isC1 ∧ midField w = 0 ∧ lowField w = target

/-- A SHIN of one line is legal at every base (R97). -/
theorem shinInRange_one (base : PinIndex) : shinInRange base 1 = true :=
  decide_eq_true (Nat.succ_le_of_lt base.isLt)

/-- The encoder lays out those fields, and no other word has them (R91). -/
theorem eq_encode_iff (w : Word) (i : Instr) : (w = encode i ∧ i.wf = true) ↔ HasFields w i := by
  cases i with
  | wait level pin => exact (and_iff_left rfl).trans eq_pinFormat_iff
  | shin1 base => exact (and_iff_left (shinInRange_one base)).trans eq_shinFormat_iff
  | shin4 base => exact and_congr_left' eq_shinFormat_iff
  | shin8 base => exact and_congr_left' eq_shinFormat_iff
  | setc c imm => exact (and_iff_left rfl).trans (eq_counterFormat_iff (src := false))
  | latch c => exact (and_iff_left rfl).trans (eq_counterFormat_iff (src := true))
  | jnz c target => exact (and_iff_left rfl).trans eq_pinFormat_iff

theorem Counter.ofBit_eq_iff {b : Bool} {c : Counter} : Counter.ofBit b = c ↔ b = c.isC1 := by
  cases b <;> cases c <;> decide

/-- The counter-select bit names a counter at either value (R91). -/
@[simp] theorem Counter.exists_eq_isC1 (b : Bool) : ∃ c : Counter, b = c.isC1 :=
  ⟨_, Counter.ofBit_eq_iff.1 rfl⟩

/-! ### The decoder, opcode by opcode -/

/-- The opcode selects the format (R91, R97). -/
theorem decode_iff_of_opcode (P : Except DecodeError Instr → Prop) (w : Word) :
    P (decode w) ↔
      ((opField w ≠ 1 ∧ opField w ≠ 2 ∧ opField w ≠ 3 ∧ opField w ≠ 4) ∧ P (.error .badOpcode)) ∨
      (opField w = 1 ∧ P (decodeWait w)) ∨ (opField w = 4 ∧ P (decodeJnz w)) ∨
      (opField w = 2 ∧ P (decodeShin w)) ∨ (opField w = 3 ∧ P (decodeSetCounter w)) := by
  unfold decode
  split_ifs <;> simp_all

theorem decodeWait_eq_ok_iff {w : Word} {i : Instr} :
    decodeWait w = .ok i ↔ midField w = 0 ∧ .wait (bit12 w) (lowField w) = i := by
  unfold decodeWait
  split_ifs with hmid
  · simp [hmid]
  · simpa using fun h => absurd h hmid

theorem decodeWait_error_iff {w : Word} : (∃ e, decodeWait w = .error e) ↔ midField w ≠ 0 := by
  unfold decodeWait
  split_ifs with hmid <;> simpa using hmid

theorem decodeJnz_eq_ok_iff {w : Word} {i : Instr} :
    decodeJnz w = .ok i ↔ midField w = 0 ∧ .jnz (Counter.ofBit (bit12 w)) (lowField w) = i := by
  unfold decodeJnz
  split_ifs with hmid
  · simp [hmid]
  · simpa using fun h => absurd h hmid

theorem decodeJnz_error_iff {w : Word} : (∃ e, decodeJnz w = .error e) ↔ midField w ≠ 0 := by
  unfold decodeJnz
  split_ifs with hmid <;> simpa using hmid

theorem decodeShin_eq_ok_iff {w : Word} {i : Instr} :
    decodeShin w = .ok i ↔ shinReservedField w = 0 ∧
      ((nbitsField w = 1 ∧ .shin1 (baseField w) = i) ∨
       (nbitsField w = 4 ∧ shinInRange (baseField w) 4 = true ∧ .shin4 (baseField w) = i) ∨
       (nbitsField w = 8 ∧ shinInRange (baseField w) 8 = true ∧ .shin8 (baseField w) = i)) := by
  unfold decodeShin
  split_ifs <;> simp_all

/-- A SHIN is illegal for a reserved bit, for its count, or for the pins it would read (R98). -/
theorem decodeShin_error_iff {w : Word} :
    (∃ e, decodeShin w = .error e) ↔ shinReservedField w ≠ 0 ∨
      (nbitsField w ≠ 1 ∧ nbitsField w ≠ 4 ∧ nbitsField w ≠ 8) ∨
      shinInRange (baseField w) (nbitsField w).toNat = false := by
  unfold decodeShin
  split_ifs <;> simp_all [shinInRange_one]

theorem decodeSetCounter_eq_ok_iff {w : Word} {i : Instr} :
    decodeSetCounter w = .ok i ↔
      (srcBit w = false ∧ .setc (Counter.ofBit (bit12 w)) (immField w) = i) ∨
      (srcBit w = true ∧ immField w = 0 ∧ .latch (Counter.ofBit (bit12 w)) = i) := by
  unfold decodeSetCounter
  split_ifs <;> simp_all

theorem decodeSetCounter_error_iff {w : Word} :
    (∃ e, decodeSetCounter w = .error e) ↔ srcBit w = true ∧ immField w ≠ 0 := by
  unfold decodeSetCounter
  split_ifs <;> simp_all

/-- The decoder accepts a word as an instruction exactly when it stands in that instruction's row (R97). -/
theorem decode_eq_ok_iff (w : Word) (i : Instr) : decode w = .ok i ↔ HasFields w i := by
  rw [decode_iff_of_opcode (· = .ok i)]
  simp only [decodeWait_eq_ok_iff, decodeShin_eq_ok_iff, decodeSetCounter_eq_ok_iff, decodeJnz_eq_ok_iff]
  cases i with
  | wait level pin => simp [HasFields, and_left_comm]
  | shin1 base => simp [HasFields, and_comm]
  | shin4 base => grind [HasFields]
  | shin8 base => grind [HasFields]
  | setc c imm => simp [HasFields, Counter.ofBit_eq_iff, and_left_comm]
  | latch c => simp [HasFields, Counter.ofBit_eq_iff, and_comm, and_left_comm, and_assoc]
  | jnz c target => simp [HasFields, Counter.ofBit_eq_iff, and_left_comm]

/-! ### The decoder and the encoder -/

/-- The decoder accepts the words of the legal instructions and no other (R97, R98). -/
theorem decode_eq_ok_iff_eq_encode (w : Word) (i : Instr) : decode w = .ok i ↔ w = encode i ∧ i.wf = true :=
  (decode_eq_ok_iff w i).trans (eq_encode_iff w i).symm

/-- Settles O1: the word of a legal instruction has its fields, and the decoder reads them. -/
theorem decodeInvertsEncode : Obligations.DecodeInvertsEncode :=
  fun i hwf => (decode_eq_ok_iff_eq_encode (encode i) i).2 ⟨rfl, hwf⟩

/-- Settles O2: a word is determined by the fields the decoder reads. -/
theorem encodeInvertsDecode : Obligations.EncodeInvertsDecode := by
  intro w i h
  obtain ⟨hw, hwf⟩ := (decode_eq_ok_iff_eq_encode w i).1 h
  exact ⟨hw.symm, hwf⟩

/-- Settles O3: each word is the encoding of its instruction, so it decodes to it. -/
theorem workedWordsDecode : Obligations.WorkedWordsDecode := by
  have both : ∀ (w : Word) (i : Instr), encode i = w → i.wf = true → decode w = .ok i ∧ encode i = w :=
    fun w i hw hwf => ⟨hw ▸ decodeInvertsEncode i hwf, hw⟩
  exact ⟨both _ _ rfl rfl, both _ _ rfl rfl, both _ _ rfl rfl, both _ _ rfl rfl, both _ _ rfl rfl, both _ _ rfl rfl,
    both _ _ rfl rfl⟩

/-! ### The opcode map -/

/-- A SHIN's pins exist where `base` is small enough (R95, R97). -/
theorem shinInRange_baseField_iff {w : Word} {n : Nat} :
    shinInRange (baseField w) n = true ↔ w.toNat / 16 % 32 + n ≤ 32 := by
  rw [shinInRange, decide_eq_true_iff, baseField_toNat]

/-- Settles O4, row by row: the row's mask keeps the fields that R97 fixes. -/
theorem decodeFollowsOpcodeMap : Obligations.DecodeFollowsOpcodeMap := by
  intro w
  have hbase4 : shinInRange (baseField w) 4 = true ↔ w.toNat / 16 % 32 ≤ 28 :=
    shinInRange_baseField_iff.trans (by omega)
  have hbase8 : shinInRange (baseField w) 8 = true ↔ w.toNat / 16 % 32 ≤ 24 :=
    shinInRange_baseField_iff.trans (by omega)
  simp only [decode_eq_ok_iff, HasFields]
  refine ⟨?wait, ?shin1, ?shin4, ?shin8, ?setc, ?latch, ?jnz⟩
  case wait => simpa using (and_0xEFE0_eq_iff w 1).symm
  case shin1 => simpa using (and_0xFE0F_eq_iff w 1).symm
  case shin4 => simpa using and_congr (and_0xFE0F_eq_iff w 4).symm hbase4
  case shin8 => simpa using and_congr (and_0xFE0F_eq_iff w 8).symm hbase8
  case setc => simpa using (and_0xE800_eq_iff w).symm
  case latch => simpa using (and_0xEFFF_eq_iff w).symm
  case jnz => simpa using (and_0xEFE0_eq_iff w 4).symm

/-! ### The illegal words -/

/-- The illegal words, format by format (R98). -/
theorem decode_error_iff (w : Word) :
    (∃ e, decode w = .error e) ↔
      (opField w ≠ 1 ∧ opField w ≠ 2 ∧ opField w ≠ 3 ∧ opField w ≠ 4) ∨
      ((opField w = 1 ∨ opField w = 4) ∧ midField w ≠ 0) ∨
      (opField w = 2 ∧ (shinReservedField w ≠ 0 ∨ (nbitsField w ≠ 1 ∧ nbitsField w ≠ 4 ∧ nbitsField w ≠ 8) ∨
        shinInRange (baseField w) (nbitsField w).toNat = false)) ∨
      (opField w = 3 ∧ srcBit w = true ∧ immField w ≠ 0) := by
  rw [decode_iff_of_opcode (∃ e, · = .error e), decodeWait_error_iff, decodeShin_error_iff,
    decodeSetCounter_error_iff, decodeJnz_error_iff, and_iff_left ⟨_, rfl⟩, or_and_right, or_assoc]

/-- Settles O5: R98 by field, each field as the number or the mask that reads it. -/
theorem illegalWordsByField : Obligations.IllegalWordsByField := by
  intro w
  have hbad : (¬w.toNat / 8192 = 1 ∧ ¬w.toNat / 8192 = 2 ∧ ¬w.toNat / 8192 = 3 ∧ ¬w.toNat / 8192 = 4) ↔
      w.toNat / 8192 = 0 ∨ 5 ≤ w.toNat / 8192 := by omega
  have hrange : shinInRange (baseField w) (nbitsField w).toNat = false ↔ 32 < w.toNat / 16 % 32 + w.toNat % 16 := by
    rw [← Bool.not_eq_true, shinInRange_baseField_iff, nbitsField_toNat, not_le]
  simp only [decode_error_iff, hrange, opField_eq_iff, nbitsField_eq_iff, ne_eq, and_0x0FE0_eq_zero_iff,
    and_0x1E00_eq_zero_iff, and_0x07FF_eq_zero_iff, and_0x0800_eq_zero_iff, Bool.not_eq_false, ← hbad]
  rfl

/-! ### A SHIN term past the last pin -/

/-- The shift at a base too far up (R95, log 25). -/
theorem shin_of_past_last_pin {base : PinIndex} {n : Nat} (h : 32 < base.toNat + n) (i : Instr) (s : Machine.State) :
    s.shin i base n = s.raise (.illegalInstruction s.pc (encode i)) := by
  have hrange : ¬ shinInRange base n = true := fun hr => absurd (of_decide_eq_true hr) h.not_ge
  rw [Machine.State.shin, if_neg hrange]

/-- Settles O12: the last of the pins is past 31, and the shift takes its fault. -/
theorem shinPastTheLastPinFaults : Obligations.ShinPastTheLastPinFaults := by
  intro s base
  obtain ⟨-, hexec4, hexec8⟩ := Machine.exec_shin_eq base s
  refine ⟨fun h => ?_, fun h => ?_⟩
  · rw [hexec4, shin_of_past_last_pin (by omega)]
  · rw [hexec8, shin_of_past_last_pin (by omega)]

end Sys2Proof
end

