-- ==== Sys2Proof/Proofs/TimingInstructions.lean ====
section
/-! PROOFS. The instructions one by one: an equation for each case of WAIT, SETC, LATCH, JNZ and SHIN, and where each
leaves `pc` (spec/40_timing_instructions.md sections 1 to 7). -/

namespace Sys2Proof.Machine

variable {s : State}

/-! ### What an instruction reads -/

/-- A pin reads at its driven level, or at the free value of the tick (R62, V4). -/
theorem pinLevel_eq_getD (s : State) (pin : PinIndex) :
    s.pinLevel pin.toNat = (s.pins[pin.toNat]'(pin.isLt)).getD (Config.undrivenLevel s.tick pin.toNat) := by
  rw [State.pinLevel, Vector.getElem?_eq_getElem pin.isLt]
  cases s.pins[pin.toNat]'(pin.isLt) <;> rfl

/-- A sample is the sum of its lines, line `i` at weight 2^i (R67, R128). -/
theorem sample_eq_sum (s : State) (base n : Nat) :
    s.sample base n = ∑ i ∈ Finset.range n, (s.pinLevel (base + i)).toNat * 2 ^ i := by
  induction n with
  | zero => rfl
  | succ n ih => rw [State.sample, ih, Finset.sum_range_succ]

/-- The record after a fault is raised: the fault is listed once (R240, R256). -/
theorem State.raise_faults (s : State) (f : Fault) :
    (s.raise f).faults = if f ∈ s.faults then s.faults else s.faults ++ [f] := by
  unfold State.raise
  split <;> rfl

/-- JNZ's test sees 0 exactly when the decrement is 0 mod 2^CTR_W: cutting it to the 32 bits of a word never makes a 0,
whatever CTR_W is (R127, R129). -/
theorem decremented_eq_zero_iff (p : Params) (v : Count) :
    decremented p v = 0 ↔ (v.toNat + (2 ^ p.ctrW - 1)) % 2 ^ p.ctrW = 0 := by
  have hpos := Nat.two_pow_pos p.ctrW
  have hlt := v.isLt
  rw [decremented, narrow, ← BitVec.toNat_inj, BitVec.toNat_ofNat]
  show _ % 2 ^ 32 = 0 ↔ _
  cases hv : v.toNat with
  | zero =>
    rw [Nat.zero_add, Nat.mod_eq_of_lt (Nat.sub_lt hpos Nat.one_pos)]
    obtain hle | hge := Nat.le_total p.ctrW 32
    · have := Nat.pow_le_pow_right (n := 2) (by decide) hle
      omega
    · have := Nat.pow_dvd_pow 2 hge
      omega
  | succ u =>
    have hsum : u + 1 + (2 ^ p.ctrW - 1) = u + 2 ^ p.ctrW := by omega
    have hmod := Nat.mod_le u (2 ^ p.ctrW)
    rw [hsum, Nat.add_mod_right, Nat.mod_eq_of_lt (by omega)]

/-! ### Each instruction, case by case -/

/-- LATCH with a word in PQ: the word becomes PARAM and goes to the counter (R126). -/
theorem exec_latch_of_queued (c : Counter) {v : Count} {rest : List Count} (hq : s.pq = v :: rest) :
    exec (.latch c) s =
      .next (State.advance (State.setCounter { s with param := some v, pq := rest } c v)) := by
  simp [exec, execLatch, State.latchParameter, State.latchCopy, hq]

/-- LATCH with PQ empty: PARAM goes to the counter and stays (R126). -/
theorem exec_latch_of_param (c : Counter) {v : Count} (hq : s.pq = []) (hp : s.param = some v) :
    exec (.latch c) s = .next (s.setCounter c v).advance := by
  simp [exec, execLatch, State.latchParameter, State.latchCopy, hq, hp]

/-- LATCH with neither holds (R123, R126). -/
theorem exec_latch_of_neither (c : Counter) (hq : s.pq = []) (hp : s.param = none) :
    exec (.latch c) s = .next s := by
  simp [exec, execLatch, State.latchParameter, State.latchCopy, hq, hp]

/-- JNZ on a written counter: the counter takes the decrement, and its test says where `pc` goes (R127). -/
theorem exec_jnz_of_written {c : Counter} {v : Count} (target : Slot) (hc : s.counter c = some v) :
    exec (.jnz c target) s = .next { s.setCounter c (decremented s.params v) with
      pc := if decremented s.params v = 0 then s.nextPc else target } := by
  obtain ⟨t, ht, -⟩ := exec_frame (.jnz c target) s
  rw [ht]
  obtain ⟨hnone, -⟩ | ⟨u, hu, hne, rfl⟩ | ⟨u, hu, heq, rfl⟩ := exec_jnz_cases ht
  · exact absurd (hnone.symm.trans hc) nofun
  · obtain rfl := Option.some.inj (hu.symm.trans hc)
    rw [if_neg hne]
  · obtain rfl := Option.some.inj (hu.symm.trans hc)
    rw [if_pos heq, State.advance, State.setCounter_nextPc]

/-- JNZ on an unwritten counter raises its fault (R127, R248). -/
theorem exec_jnz_of_unwritten {c : Counter} (target : Slot) (hc : s.counter c = none) :
    exec (.jnz c target) s = .next (s.raise (.unwrittenCounter s.pc c)) := by
  simp only [exec, execJnz, hc]

/-- The shift of pins that exist: it holds, or pushes a complete byte, or keeps an incomplete one (R128). -/
theorem shin_of_inRange (i : Instr) {base : PinIndex} {n : Nat} (hr : shinInRange base n = true) :
    s.shin i base n =
      if s.params.isrW ≤ s.isrcnt.toNat + n then
        if s.params.oqDepth ≤ s.oq.length then s
        else { s with oq := s.oq ++ [s.shifted base.toNat n], isr := 0, isrcnt := 0, pc := s.nextPc }
      else
        { s with isr := s.shifted base.toNat n, isrcnt := BitVec.ofNat 4 (s.isrcnt.toNat + n), pc := s.nextPc } := by
  simp only [State.shin, hr, State.shinHeld, State.shiftIn, State.byteDue, State.oqFull]
  by_cases hdue : s.params.isrW ≤ s.isrcnt.toNat + n
  · by_cases hfull : s.params.oqDepth ≤ s.oq.length
    · simp [hdue, hfull]
    · simp only [hdue, hfull]; rfl
  · simp only [hdue]; rfl

/-! ### The statements, instruction by instruction -/

/-- Settles O6: the pin reads as `v`, and WAIT compares that with its level. -/
theorem waitCompletesAtItsLevel : Obligations.WaitCompletesAtItsLevel := by
  intro s level pin v hv
  have hread : s.pinLevel pin.toNat = v := by
    rw [pinLevel_eq_getD]
    cases hpin : s.pins[pin.toNat]'(pin.isLt) <;> rw [hpin] at hv <;> exact hv.symm
  rw [← hread]
  rfl

/-- Settles O7: SETC is its one equation. -/
theorem setcLoadsImmediate : Obligations.SetcLoadsImmediate :=
  fun s imm => ⟨exec_setc_eq .c0 imm s, exec_setc_eq .c1 imm s⟩

/-- Settles O8, by what PQ and PARAM hold. -/
theorem latchTakesThenCopies : Obligations.LatchTakesThenCopies := by
  rintro s next rfl
  refine ⟨fun v rest hq => ?_, fun v hq hp => ?_, fun hq hp c => exec_latch_of_neither c hq hp⟩
  · exact ⟨exec_latch_of_queued .c0 hq, exec_latch_of_queued .c1 hq⟩
  · exact ⟨exec_latch_of_param .c0 hq hp, exec_latch_of_param .c1 hq hp⟩

/-- Settles O9: the counter that is tested is the decremented one. -/
theorem jnzCountsThenTests : Obligations.JnzCountsThenTests := by
  rintro s target v v' next rfl rfl
  exact ⟨fun hc => exec_jnz_of_written (c := .c0) target hc, fun hc => exec_jnz_of_written (c := .c1) target hc⟩

/-- Settles O10: the fault is the whole of the step. -/
theorem jnzOnUnwrittenCounterFaults : Obligations.JnzOnUnwrittenCounterFaults := by
  intro s c target hc
  rw [exec_jnz_of_unwritten target hc, State.raise_eq, State.raise_faults]

/-- Settles O11: the sample is the sum of its lines, and the shift is the same at every count. -/
theorem shinShiftsAndPushes : Obligations.ShinShiftsAndPushes := by
  rintro n shin hcount s base hbase isr' next hisr rfl
  have hexec : exec (shin base) s = .next (s.shin (shin base) base n) := by
    obtain ⟨h1, h4, h8⟩ := exec_shin_eq base s
    obtain ⟨rfl, rfl⟩ | ⟨rfl, rfl⟩ | ⟨rfl, rfl⟩ := hcount
    · exact h1
    · exact h4
    · exact h8
  have hshifted : s.shifted base.toNat n = isr' :=
    BitVec.eq_of_toNat_eq (by rw [hisr, State.shifted, sample_eq_sum, BitVec.toNat_ofNat])
  rw [hexec, shin_of_inRange _ (decide_eq_true hbase), hshifted]
  rfl

/-! ### Where `pc` goes -/

/-- SHIN holds, takes the fault of a term that is no instruction, or goes on (R122, R123, R128, log 25). -/
theorem shin_moves (s : State) (i : Instr) (base : PinIndex) (n : Nat) {held : Prop}
    (hheld : held ↔ base.toNat + n ≤ 32 ∧ s.params.isrW ≤ s.isrcnt.toNat + n ∧ s.params.oqDepth ≤ s.oq.length) :
    (held → s.shin i base n = s) ∧
    (shinInRange base n = false → s.shin i base n = s.raise (.illegalInstruction s.pc (encode i))) ∧
    (¬held → shinInRange base n = true → (s.shin i base n).pc = s.nextPc) := by
  refine ⟨fun h => ?_, fun hr => ?_, fun h hr => ?_⟩
  · obtain ⟨hr, hdue, hfull⟩ := hheld.1 h
    rw [shin_of_inRange i (decide_eq_true hr), if_pos hdue, if_pos hfull]
  · exact shin_of_past_last_pin (Nat.lt_of_not_le (of_decide_eq_false hr)) i s
  · rw [shin_of_inRange i hr]
    split_ifs with hdue hfull
    · exact absurd (hheld.2 ⟨of_decide_eq_true hr, hdue, hfull⟩) h
    · rfl
    · rfl

/-- Settles O13, instruction by instruction; only JNZ has clauses of its own. -/
theorem pcMovesByRule : Obligations.PcMovesByRule := by
  intro i s held hheld
  cases i with
  | wait level pin =>
    obtain ⟨t, ht, -⟩ := exec_frame (.wait level pin) s
    obtain ⟨hat, rfl⟩ | ⟨hne, rfl⟩ := exec_wait_cases ht
    · exact ⟨_, ht, fun h => absurd hat (hheld.1 h), nofun, nofun, nofun, fun _ _ _ => rfl⟩
    · exact ⟨_, ht, fun _ => rfl, nofun, nofun, nofun, fun h => absurd (hheld.2 hne) h⟩
  | shin1 base =>
    obtain ⟨hhold, hfault, hgo⟩ := shin_moves s (.shin1 base) base 1 hheld
    exact ⟨_, rfl, hhold, hfault, nofun, nofun, fun h hr _ => hgo h hr⟩
  | shin4 base =>
    obtain ⟨hhold, hfault, hgo⟩ := shin_moves s (.shin4 base) base 4 hheld
    exact ⟨_, rfl, hhold, hfault, nofun, nofun, fun h hr _ => hgo h hr⟩
  | shin8 base =>
    obtain ⟨hhold, hfault, hgo⟩ := shin_moves s (.shin8 base) base 8 hheld
    exact ⟨_, rfl, hhold, hfault, nofun, nofun, fun h hr _ => hgo h hr⟩
  | setc c imm =>
    exact ⟨_, exec_setc_eq c imm s, fun h => (hheld.1 h).elim, nofun, nofun, nofun,
      fun _ _ _ => State.setCounter_nextPc ..⟩
  | latch c =>
    obtain ⟨t, ht, -⟩ := exec_frame (.latch c) s
    obtain ⟨v, rest, hq, rfl⟩ | ⟨hq, v, hp, rfl⟩ | ⟨hq, hp, rfl⟩ := exec_latch_cases ht
    · exact ⟨_, ht, fun h => absurd ((hheld.1 h).1.symm.trans hq) nofun, nofun, nofun, nofun,
        fun _ _ _ => State.setCounter_nextPc ..⟩
    · exact ⟨_, ht, fun h => absurd ((hheld.1 h).2.symm.trans hp) nofun, nofun, nofun, nofun,
        fun _ _ _ => State.setCounter_nextPc ..⟩
    · exact ⟨_, ht, fun _ => rfl, nofun, nofun, nofun, fun h => absurd (hheld.2 ⟨hq, hp⟩) h⟩
  | jnz c target =>
    have hnot : ¬held := fun h => hheld.1 h
    cases hc : s.counter c with
    | none =>
      refine ⟨_, exec_jnz_of_unwritten target hc, fun h => absurd h hnot, nofun, ?_, ?_, ?_⟩
      · rintro _ _ ⟨rfl, rfl⟩ -
        rfl
      · rintro _ _ v ⟨rfl, rfl⟩ hv
        exact absurd (hc.symm.trans hv) nofun
      · intro _ _ h
        obtain ⟨v, hv, -⟩ := h c target rfl
        exact absurd (hc.symm.trans hv) nofun
    | some v =>
      refine ⟨_, exec_jnz_of_written target hc, fun h => absurd h hnot, nofun, ?_, ?_, ?_⟩
      · rintro _ _ ⟨rfl, rfl⟩ hnone
        exact absurd (hc.symm.trans hnone) nofun
      · rintro _ _ u ⟨rfl, rfl⟩ hu hne
        obtain rfl := Option.some.inj (hc.symm.trans hu)
        exact if_neg (mt (decremented_eq_zero_iff ..).1 hne)
      · intro _ _ h
        obtain ⟨u, hu, hzero⟩ := h c target rfl
        obtain rfl := Option.some.inj (hc.symm.trans hu)
        exact if_pos ((decremented_eq_zero_iff ..).2 hzero)

end Sys2Proof.Machine
end

