-- ==== Sys2Proof/Proofs/TpxSteps.lean ====
section
/-! PROOFS. The step of TPX: when there is one, what it fetches and executes, and the loop that is one JNZ
(spec/40_timing_instructions.md sections 1 and 5). -/

namespace Sys2Proof.Machine

variable {s : State}

/-- TPX's move is a TPX step on the state with the move taken (R7, R120). -/
theorem step_tpx (hp : s.params.admitted = true) (hm : s.nextMove = .tpx) : step s = s.consume.tpxStep := by
  rw [step_eq s hp, hm]
  rfl

/-- A loaded and enabled TPX takes the fault of the fetch (R121, R249). -/
theorem tpxStep_of_fetch_error {f : Fault} (hl : s.loaded = true) (hen : s.en = true) (hf : s.fetch = .error f) :
    s.tpxStep = .next (s.raise f) := by
  simp [State.tpxStep, State.tpxRuns, hl, hen, hf]

/-- A loaded and enabled TPX executes the instruction it fetches (R120, R121). -/
theorem tpxStep_of_fetch_ok {i : Instr} (hl : s.loaded = true) (hen : s.en = true) (hf : s.fetch = .ok i) :
    s.tpxStep = exec i s := by
  simp [State.tpxStep, State.tpxRuns, hl, hen, hf]

theorem fetch_of_unloaded (hs : s.slot = none) : s.fetch = .error (.fetchUnloaded s.pc) := by
  simp only [State.fetch, hs]

theorem fetch_of_illegal {w : Word} (hs : s.slot = some w) (hi : s.params.instrOf w = none) :
    s.fetch = .error (.illegalInstruction s.pc w) := by
  simp only [State.fetch, hs, hi]

theorem fetch_of_legal {w : Word} {i : Instr} (hs : s.slot = some w) (hi : s.params.instrOf w = some i) :
    s.fetch = .ok i := by
  simp only [State.fetch, hs, hi]

/-! ### One step -/

/-- Settles O14, by what a TPX step can do. -/
theorem tpxStepsOnlyWhenEnabled : Obligations.TpxStepsOnlyWhenEnabled := by
  intro s hp hm
  rw [step_tpx hp hm]
  refine ⟨fun hoff => ?_, fun hl hen => ?_⟩
  · have hruns : s.consume.tpxRuns = false := by
      rw [State.consume_tpxRuns, State.tpxRuns, Bool.and_eq_false_iff]
      exact hoff
    rw [State.tpxStep, hruns]
    rfl
  · cases hf : s.consume.fetch with
    | error f => exact .inl ⟨f, tpxStep_of_fetch_error hl hen hf⟩
    | ok i => exact .inr ⟨i, tpxStep_of_fetch_ok hl hen hf⟩

/-- Settles O15: a word that decodes and fits is the instruction the fetch answers. -/
theorem stepRunsDecodedInstruction : Obligations.StepRunsDecodedInstruction := by
  intro s w i hp hm hl hen hw hdecode hbits hfits
  have hinstr : s.params.instrOf w = some i := (instrOf_eq_some ..).2 ⟨hdecode, hbits, hfits⟩
  exact (step_tpx hp hm).trans (tpxStep_of_fetch_ok hl hen (fetch_of_legal (s := s.consume) hw hinstr))

/-- Settles O16: the fetch answers the fault, and the step records it. -/
theorem fetchFaultsAreRecorded : Obligations.FetchFaultsAreRecorded := by
  intro s hp hm hl hen
  rw [step_tpx hp hm]
  refine ⟨fun hs => ?_, fun w hs hillegal => ?_⟩
  · exact tpxStep_of_fetch_error hl hen (fetch_of_unloaded (s := s.consume) hs)
  · have hinstr : s.params.instrOf w = none := Option.eq_none_iff_forall_ne_some.2 fun i hi =>
      let ⟨hdecode, hfits⟩ := (instrOf_eq_some ..).1 hi
      hillegal i hdecode hfits
    exact tpxStep_of_fetch_error hl hen (fetch_of_illegal (s := s.consume) hs hinstr)

/-! ### The loop of one JNZ -/

/-- TPX runs, and the instruction at `pc` is a JNZ to its own slot. -/
structure AtSelfLoop (c : Counter) (s : State) : Prop where
  admitted : s.params.admitted = true
  loaded : s.loaded = true
  en : s.en = true
  fetch : s.fetch = .ok (.jnz c s.pc)

/-- The state of the loop when the counter has come to `v` in `k` turns and `rest` are the moves ahead. -/
def State.looped (s : State) (c : Counter) (v : Count) (k : Nat) (rest : List Move) : State :=
  { s.setCounter c v with agenda := rest, tick := s.tick + k }

/-- The state the loop ends in after `k` turns: the counter is 0 and `pc` is at its successor (R127). -/
def State.leftLoop (s : State) (c : Counter) (k : Nat) (rest : List Move) : State :=
  { s.looped c 0 k rest with pc := s.nextPc }

@[simp] theorem State.looped_params (s : State) (c : Counter) (v : Count) (k : Nat) (rest : List Move) :
    (s.looped c v k rest).params = s.params := by
  cases c <;> rfl

@[simp] theorem State.looped_counter (s : State) (c : Counter) (v : Count) (k : Nat) (rest : List Move) :
    (s.looped c v k rest).counter c = some v := by
  cases c <;> rfl

/-- Turns before the last ones only add up in the tick. -/
theorem State.leftLoop_looped (s : State) (c : Counter) (v : Count) (j k : Nat) (rest rest' : List Move) :
    (s.looped c v j rest).leftLoop c k rest' = s.leftLoop c (k + j) rest' := by
  cases c <;> simp [State.leftLoop, State.looped, State.setCounter, State.nextPc, Nat.add_left_comm, Nat.add_comm]

/-- What a counter of CTR_W bits holds after the first turn: one less than the turns ahead, 2^CTR_W of them when it
holds 0 (R127, R129). -/
theorem decremented_of_turns {p : Params} (hp : p.ctrW ≤ 32) {v : Count} (hv : v.toNat < 2 ^ p.ctrW) {n : Nat}
    (hn : n + 1 = if v = 0 then 2 ^ p.ctrW else v.toNat) : decremented p v = BitVec.ofNat 32 n := by
  split_ifs at hn with hzero
  · have hsum : n + 1 = 2 ^ p.ctrW := hn
    rw [decremented, narrow, hzero, ← hsum]
    simp
  · have hcount : v = BitVec.ofNat 32 (n + 1) := by rw [hn, BitVec.ofNat_toNat, BitVec.setWidth_eq]
    rw [hcount]
    exact decremented_succ hp (hn ▸ hv)

namespace AtSelfLoop

variable {c : Counter} {v : Count} {rest : List Move}

/-- The loop stays at its slot. -/
theorem looped (h : AtSelfLoop c s) (v : Count) (k : Nat) (rest : List Move) :
    AtSelfLoop c (s.looped c v k rest) := by
  cases c <;> exact { h with }

/-- TPX's move executes the JNZ (R120, R127). -/
theorem step_eq (h : AtSelfLoop c s) (hc : s.counter c = some v) (ha : s.agenda = .tpx :: rest) :
    step s = .next { s.looped c (decremented s.params v) 1 rest with
      pc := if decremented s.params v = 0 then s.nextPc else s.pc } := by
  have hm : s.nextMove = .tpx := by rw [State.nextMove, ha]
  have hc' : s.consume.counter c = some v := (State.consume_counter s c).trans hc
  rw [step_tpx h.admitted hm, tpxStep_of_fetch_ok (s := s.consume) h.loaded h.en h.fetch,
    exec_jnz_of_written s.pc hc']
  cases c <;> simp [State.consume, State.looped, State.setCounter, State.nextPc, ha]

/-- A turn of the loop, the counter not yet at 0. -/
theorem step_turn (h : AtSelfLoop c s) (hc : s.counter c = some v) (ha : s.agenda = .tpx :: rest)
    (hv : decremented s.params v ≠ 0) : step s = .next (s.looped c (decremented s.params v) 1 rest) := by
  rw [h.step_eq hc ha, if_neg hv]
  cases c <;> rfl

/-- The last turn. -/
theorem step_last (h : AtSelfLoop c s) (hc : s.counter c = some v) (ha : s.agenda = .tpx :: rest)
    (hv : decremented s.params v = 0) : step s = .next (s.leftLoop c 1 rest) := by
  rw [h.step_eq hc ha, if_pos hv, hv, State.leftLoop]

/-- `n` turns after this one, and the loop is left. -/
theorem leads (h : AtSelfLoop c s) {n : Nat} (hc : s.counter c = some v)
    (hv : decremented s.params v = BitVec.ofNat 32 n) (hn : n < 2 ^ s.params.ctrW)
    (ha : s.agenda = List.replicate (n + 1) .tpx ++ rest) : Leads (n + 1) s (· = s.leftLoop c (n + 1) rest) := by
  induction n generalizing s v with
  | zero => exact .step (h.step_last hc ha hv) (.done rfl)
  | succ n ih =>
    obtain ⟨-, -, -, -, -, -, hw, -⟩ := (admitted_iff _).1 h.admitted
    have hword := hn.trans_le (Nat.pow_le_pow_right (n := 2) (by decide) hw)
    have hne : decremented s.params v ≠ 0 := hv ▸ mt (ofNat_eq_zero_iff hword).1 (Nat.succ_ne_zero n)
    have hturn := h.step_turn hc ha hne
    rw [hv] at hturn
    have hrest := ih (h.looped (BitVec.ofNat 32 (n + 1)) 1 (List.replicate (n + 1) .tpx ++ rest))
      (State.looped_counter ..) (by simpa using decremented_succ hw hn) (by simpa using Nat.lt_of_succ_lt hn) rfl
    rw [State.leftLoop_looped] at hrest
    exact .step hturn hrest

end AtSelfLoop

/-- A JNZ to its own slot, legal on the executor, is what the fetch answers (R97, R121). -/
theorem fetch_selfLoop {c : Counter} (hw : s.params.instrW = 16) (hfits : (Instr.jnz c s.pc).fits s.params = true)
    (hs : s.slot = some (encode (.jnz c s.pc))) : s.fetch = .ok (.jnz c s.pc) :=
  fetch_of_legal hs ((instrOf_eq_some ..).2 ⟨decodeInvertsEncode _ rfl, by rw [hw]; exact (encode _).isLt, hfits⟩)

/-- Settles O58, by induction on the turns left; the first decrement takes a counter of 0 to 2^CTR_W - 1. -/
theorem selfLoopCountsDown : Obligations.SelfLoopCountsDown := by
  intro s v n rest hp hl hen hw hv hn ha
  obtain ⟨-, -, -, -, -, -, hctr, -⟩ := (admitted_iff _).1 hp
  obtain ⟨m, rfl⟩ : ∃ m, n = m + 1 := by
    refine Nat.exists_eq_succ_of_ne_zero ?_
    rw [hn]
    split_ifs with hzero
    · exact (Nat.two_pow_pos _).ne'
    · exact fun h => hzero (BitVec.eq_of_toNat_eq h)
  have hm : m < 2 ^ s.params.ctrW := by split_ifs at hn <;> omega
  have main : ∀ c, (Instr.jnz c s.pc).fits s.params = true → s.slot = some (encode (.jnz c s.pc)) →
      s.counter c = some v → Sys2Proof.core.run (m + 1) s = .next (s.leftLoop c (m + 1) rest) := by
    intro c hfits hs hc
    have hloop : AtSelfLoop c s := ⟨hp, hl, hen, fetch_selfLoop hw hfits hs⟩
    obtain ⟨t, hrun, rfl⟩ := (hloop.leads hc (decremented_of_turns hctr hv hn) hm ha).run
    exact hrun
  exact ⟨main .c0, main .c1⟩

end Sys2Proof.Machine
end

