-- ==== Sys2Proof/Proofs/CaptureInvariant.lean ====
section
/-! PROOFS. The capture invariant CaptureInv: TPX goes round SYN's program with every counter written before an
instruction ahead reads it and whole samples in ISR (spec/40_timing_instructions.md section 6, spec/41_synthesizer.md
sections 2 and 3). -/

namespace Sys2Proof.Machine

/-! ### The slots of SYN's program -/

/-- What the invariant has to know of the instruction in slot `k`: C1 is written first at slot 2, C0 is written first at
slot 6, the one SHIN takes a whole sample, and every jump goes back (R156, R162). -/
inductive SynthSlot (x : SynthInput) (k : Nat) : Instr → Prop where
  | wait (level : Bool) (pin : PinIndex) (hk : k ≠ 2 ∧ k ≠ 6) : SynthSlot x k (.wait level pin)
  | setc (imm : BitVec 11) (hk : k ≠ 6) : SynthSlot x k (.setc .c1 imm)
  | latch (hk : k ≠ 2) : SynthSlot x k (.latch .c0)
  | shin (base : PinIndex) (hk : k ≠ 2 ∧ k ≠ 6) : SynthSlot x k (shinOf base x.dataBits)
  | jnz (c : Counter) (target : Slot) (hback : target.toNat ≤ k) (hk : k ≠ 2 ∧ k ≠ 6) : SynthSlot x k (.jnz c target)

/-- Every slot of SYN's program is of one of these kinds (R156). -/
theorem synthSlot_of_getElem? (p : Params) (x : SynthInput) :
    ∀ {k : Nat} {i : Instr}, (x.instrs p)[k]? = some i → SynthSlot x k i
  | 0, _, h => Option.some.inj h ▸ .wait _ _ (by decide)
  | 1, _, h => Option.some.inj h ▸ .wait _ _ (by decide)
  | 2, _, h => Option.some.inj h ▸ .setc _ (by decide)
  | 3, _, h => Option.some.inj h ▸ .wait _ _ (by decide)
  | 4, _, h => Option.some.inj h ▸ .wait _ _ (by decide)
  | 5, _, h => Option.some.inj h ▸ .jnz _ _ (by decide) (by decide)
  | 6, _, h => Option.some.inj h ▸ .latch (by decide)
  | 7, _, h => Option.some.inj h ▸ .wait _ _ (by decide)
  | 8, _, h => Option.some.inj h ▸ .setc _ (by decide)
  | 9, _, h => Option.some.inj h ▸ .wait _ _ (by decide)
  | 10, _, h => Option.some.inj h ▸ .wait _ _ (by decide)
  | 11, _, h => Option.some.inj h ▸ .jnz _ _ (by decide) (by decide)
  | 12, _, h => Option.some.inj h ▸ .wait _ _ (by decide)
  | 13, _, h => Option.some.inj h ▸ .shin _ (by decide)
  | 14, _, h => Option.some.inj h ▸ .wait _ _ (by decide)
  | 15, _, h => Option.some.inj h ▸ .jnz _ _ (by decide) (by decide)
  | 16, _, h => Option.some.inj h ▸ .wait _ _ (by decide)
  | _ + 17, _, h => nomatch h

/-- Every instruction of SYN's program is legal where the pins of its SHIN exist (R98, R156). -/
theorem instrs_wf (p : Params) {x : SynthInput} (hb : x.dataBits ∈ Config.dataWidths)
    (hr : shinInRange (BitVec.ofNat 5 x.dataPinBase) x.dataBits = true) {i : Instr} (hi : i ∈ x.instrs p) :
    i.wf = true := by
  have hshin : (shinOf (BitVec.ofNat 5 x.dataPinBase) x.dataBits).wf = true := by
    obtain e | e | e := mem_dataWidths.1 hb <;> rw [e] at hr ⊢ <;> exact hr
  revert i
  simpa [SynthInput.instrs, Instr.wf] using hshin

/-- A counter that is written stays written when any counter is set (R27). -/
theorem isSome_c0_setCounter (s : State) (c : Counter) (v : Count) (h : s.c0.isSome = true) :
    (s.setCounter c v).c0.isSome = true := by
  cases c
  · rfl
  · exact h

theorem isSome_c1_setCounter (s : State) (c : Counter) (v : Count) (h : s.c1.isSome = true) :
    (s.setCounter c v).c1.isSome = true := by
  cases c
  · exact h
  · rfl

namespace CaptureInv

variable {s t : State} {d : Session}

/-! ### TPX in SYN's program -/

theorem consume (h : CaptureInv s d) : CaptureInv s.consume d := { h with }

/-- The record of faults is no part of the invariant (R240). -/
theorem raise (h : CaptureInv s d) (f : Fault) : CaptureInv (s.raise f) d := by
  rw [State.raise_eq]
  exact { h with }

/-- TPX executes what SYN put in the slot (R121, R156). -/
theorem fetched (h : CaptureInv s d) {i : Instr} (hf : s.fetch = .ok i) :
    (d.synthInput.instrs s.params)[s.pc.toNat]? = some i := by
  obtain ⟨-, -, -, hpins⟩ := (pinFault_none ..).1 (synth_eq_ok h.sound.held).1
  have hadm := (admitted_iff _).1 h.admitted
  have hrange : shinInRange (BitVec.ofNat 5 d.config.dataPinBase.toNat) d.config.dataBits.toNat = true := by
    rw [BitVec.ofNat_toNat, BitVec.setWidth_eq]
    have := h.sound.dataPins
    exact decide_eq_true (by omega)
  have hslot : s.slot = (d.synthInput.instrs s.params)[s.pc.toNat]?.map encode := by
    obtain ⟨-, -, hheld⟩ := synth_eq_ok h.sound.held
    simp [State.slot, h.program, hheld]
  obtain ⟨-, e⟩ | ⟨w, -, -, e⟩ | ⟨w, j, hw, hj, e⟩ := fetch_cases s <;> rw [e] at hf <;> cases hf
  obtain ⟨j', hj', rfl⟩ := Option.map_eq_some_iff.1 (hslot.symm.trans hw)
  have hwf := instrs_wf s.params h.sound.width hrange (List.mem_of_getElem? hj')
  have hdecode := ((instrOf_eq_some ..).1 hj).1
  rw [decodeInvertsEncode j' hwf] at hdecode
  exact hj'.trans (congrArg some (Except.ok.inj hdecode))

/-- The slot after `pc`, slot 6 after slot 16 (R122). -/
theorem nextPc_toNat (h : CaptureInv s d) : s.nextPc.toNat = if s.pc.toNat = 16 then 6 else s.pc.toNat + 1 := by
  have hin := h.inside
  obtain ⟨htarget, htop⟩ := h.wrap
  have htop' : s.pc = s.wrapTop ↔ s.pc.toNat = 16 := by rw [htop, ← BitVec.toNat_inj]; rfl
  rw [State.nextPc, htarget]
  split_ifs with h1 h2 h2
  · rfl
  · exact absurd (htop'.1 h1) h2
  · exact absurd (htop'.2 h2) h1
  · rw [BitVec.toNat_add]
    show (s.pc.toNat + 1) % 32 = _
    omega

/-- An instruction keeps the invariant when `pc` goes to its successor or back, no counter written is lost, C1 is written
at slot 2 and C0 at slot 6, and ISR holds whole samples after it. -/
theorem ofTpx (h : CaptureInv s d) (hf : TpxFrame s t) (hpc : t.pc = s.nextPc ∨ t.pc.toNat ≤ s.pc.toNat)
    (hc1 : s.pc.toNat = 2 ∨ s.c1.isSome = true → t.c1.isSome = true)
    (hc0 : s.pc.toNat = 6 ∨ s.c0.isSome = true → t.c0.isSome = true)
    (hpack : t.isrcnt.toNat < s.params.isrW ∧ t.isrcnt.toNat % d.config.dataBits.toNat = 0) : CaptureInv t d := by
  have hin := h.inside
  have hnext := h.nextPc_toNat
  have hmoved : t.pc.toNat ≤ s.pc.toNat ∨ (s.pc.toNat < 16 ∧ t.pc.toNat = s.pc.toNat + 1) := by
    obtain e | e := hpc
    · rw [e, hnext]; split_ifs <;> omega
    · exact .inl e
  obtain ⟨hwt, hwp⟩ := hf.wrap
  exact
    { admitted := hf.params ▸ h.admitted
      room := hf.params ▸ h.room
      session := hf.driver.2.trans h.session
      sound := hf.params ▸ h.sound
      offset := hf.params ▸ h.offset
      program := hf.imem.trans h.program
      wrap := ⟨hwt.trans h.wrap.1, hwp.trans h.wrap.2⟩
      inside := by omega
      c1Written := fun hge => hc1 (by
        by_cases h2 : s.pc.toNat = 2
        · exact .inl h2
        · exact .inr (h.c1Written (by omega)))
      c0Written := fun hge => hc0 (by
        by_cases h6 : s.pc.toNat = 6
        · exact .inl h6
        · exact .inr (h.c0Written (by omega)))
      packing := hf.params ▸ hpack }

/-- SHIN of a whole sample leaves whole samples in ISR (R128). -/
theorem shin (h : CaptureInv s d) (hk : s.pc.toNat ≠ 2 ∧ s.pc.toNat ≠ 6) (i : Instr) (base : PinIndex) :
    CaptureInv (s.shin i base d.config.dataBits.toNat) d := by
  obtain ⟨h2, h6⟩ := hk
  have hadm := (admitted_iff _).1 h.admitted
  have hf := TpxFrame.shin s i base d.config.dataBits.toNat
  obtain ⟨hlt, hmod⟩ := h.packing
  obtain ⟨-, e⟩ | ⟨-, -, e⟩ | ⟨-, -, -, e⟩ | ⟨-, hdue, e⟩ := shin_cases s i base d.config.dataBits.toNat <;>
    rw [e] at hf ⊢
  · exact h.raise _
  · exact h
  · exact h.ofTpx hf (.inl rfl) (·.resolve_left h2) (·.resolve_left h6)
      ⟨show 0 < s.params.isrW by omega, Nat.zero_mod _⟩
  · have hroom : s.isrcnt.toNat + d.config.dataBits.toNat < s.params.isrW := by simpa [State.byteDue] using hdue
    have hcnt : (BitVec.ofNat 4 (s.isrcnt.toNat + d.config.dataBits.toNat)).toNat =
        s.isrcnt.toNat + d.config.dataBits.toNat := by
      rw [BitVec.toNat_ofNat]
      omega
    refine h.ofTpx hf (.inl rfl) (·.resolve_left h2) (·.resolve_left h6) ?_
    show (BitVec.ofNat 4 _).toNat < _ ∧ (BitVec.ofNat 4 _).toNat % _ = 0
    rw [hcnt, Nat.add_mod_right]
    exact ⟨hroom, hmod⟩

/-- The instruction in the slot keeps the invariant, by the kind of slot it stands in. -/
theorem exec (h : CaptureInv s d) {i : Instr} (hi : SynthSlot d.synthInput s.pc.toNat i) (hf : TpxFrame s t)
    (e : exec i s = .next t) : CaptureInv t d := by
  cases hi with
  | wait level pin hk =>
    obtain ⟨-, rfl⟩ | ⟨-, rfl⟩ := exec_wait_cases e
    · exact h.ofTpx hf (.inl rfl) (·.resolve_left hk.1) (·.resolve_left hk.2) h.packing
    · exact h
  | setc imm hk =>
    obtain rfl := next_inj.1 e
    exact h.ofTpx hf (.inl rfl) (fun _ => rfl) (·.resolve_left hk) h.packing
  | latch hk =>
    obtain ⟨v, rest, -, rfl⟩ | ⟨-, v, -, rfl⟩ | ⟨-, -, rfl⟩ := exec_latch_cases e
    · exact h.ofTpx hf (.inl rfl) (·.resolve_left hk) (fun _ => rfl) h.packing
    · exact h.ofTpx hf (.inl rfl) (·.resolve_left hk) (fun _ => rfl) h.packing
    · exact h
  | shin base hk =>
    obtain rfl := next_inj.1 ((exec_shinOf h.sound.width base s).symm.trans e)
    exact h.shin hk _ base
  | jnz c target hback hk =>
    have hc1 := fun v (hc : s.pc.toNat = 2 ∨ s.c1.isSome = true) =>
      isSome_c1_setCounter s c v (hc.resolve_left hk.1)
    have hc0 := fun v (hc : s.pc.toNat = 6 ∨ s.c0.isSome = true) =>
      isSome_c0_setCounter s c v (hc.resolve_left hk.2)
    obtain ⟨-, rfl⟩ | ⟨v, -, -, rfl⟩ | ⟨v, -, -, rfl⟩ := exec_jnz_cases e
    · exact h.raise _
    · exact h.ofTpx hf (.inr hback) (hc1 _) (hc0 _) (by simpa using h.packing)
    · exact h.ofTpx hf (.inl (State.setCounter_nextPc ..)) (hc1 _) (hc0 _) (by simpa using h.packing)

/-- A step of TPX (R120, R121). -/
theorem tpxStep (h : CaptureInv s d) (e : s.tpxStep = .next t) : CaptureInv t d := by
  obtain ⟨-, e'⟩ | ⟨-, f, -, e'⟩ | ⟨-, i, u, hi, hu, hf, e'⟩ := tpxStep_cases s <;>
    obtain rfl := next_inj.1 (e'.symm.trans e)
  · exact h
  · exact h.raise f
  · exact h.exec (synthSlot_of_getElem? _ _ (h.fetched hi)) hf hu

/-! ### The other agents -/

/-- A load of the driver's own program at LOAD_OFFSET 0 puts TPX at slot 0 with nothing in ISR (R75, R186). -/
theorem ofInstall (hadm : s.params.admitted = true) (hroom : s.params.runsSynth = true) (hs : s.session = some d)
    (hsound : SessionSound s.params d) (hoffset : s.params.loadOffset = 0) : CaptureInv (s.install d.held) d := by
  have hisr := (admitted_iff _).1 hadm
  obtain ⟨-, -, hheld⟩ := synth_eq_ok hsound.held
  have hpc : (s.install d.held).pc = 0 := congrArg (BitVec.ofNat 5) hoffset
  exact
    { admitted := hadm
      room := hroom
      session := hs
      sound := hsound
      offset := hoffset
      program := congrArg d.held.image hoffset
      wrap := ⟨by show BitVec.ofNat 5 d.held.wrapTarget = 6; rw [hheld]; rfl,
        by show BitVec.ofNat 5 d.held.wrapTop = 16; rw [hheld]; rfl⟩
      inside := by rw [hpc]; decide
      c1Written := by rw [hpc]; exact fun hge => absurd hge (by decide)
      c0Written := by rw [hpc]; exact fun hge => absurd hge (by decide)
      packing := ⟨show 0 < s.params.isrW by omega, Nat.zero_mod _⟩ }

theorem loadHeld (h : CaptureInv s d) (e : s.loadProgram d.held = .ok t) : CaptureInv t d := by
  obtain ⟨-, e'⟩ | ⟨-, o, -, e'⟩ | ⟨-, -, e'⟩ := loadProgram_cases s d.held <;> rw [e'] at e <;> cases e
  exact ofInstall h.admitted h.room h.session h.sound h.offset

theorem enable (h : CaptureInv s d) {b : Bool} (e : s.enable b = .ok t) : CaptureInv t d := by
  obtain ⟨-, -, e'⟩ | ⟨-, e'⟩ := enable_cases s b <;> rw [e'] at e <;> cases e
  exact { h with }

theorem pushParameter (h : CaptureInv s d) {v : Count} (e : s.pushParameter v = some t) : CaptureInv t d := by
  obtain ⟨-, e'⟩ | ⟨-, e'⟩ := pushParameter_cases s v <;> rw [e'] at e <;> cases e
  exact { h with }

theorem claimChannel (h : CaptureInv s d) {free : Bool} (e : s.claimChannel free = some t) : CaptureInv t d := by
  obtain ⟨-, rfl⟩ : free = true ∧ { s with claimed := true, active := false, done := false } = t := by
    simpa [State.claimChannel] using e
  exact { h with }

theorem start (h : CaptureInv s d) : CaptureInv s.start d := by
  unfold State.start
  split <;> exact { h with }

theorem setPhase (h : CaptureInv s d) (p : Phase) : CaptureInv { s with phase := p } d := { h with }

theorem orFault (h : CaptureInv s d) {r : Except Fault State} (hr : ∀ u, r = .ok u → CaptureInv u d) (next : Phase) :
    CaptureInv (s.orFault r next) d := by
  obtain ⟨f, -, e⟩ | ⟨u, hu, e⟩ := orFault_cases s r next <;> rw [e]
  · exact h.raise f
  · exact (hr u hu).setPhase next

theorem orHold (h : CaptureInv s d) {r : Option State} (hr : ∀ u, r = some u → CaptureInv u d) (next : Phase) :
    CaptureInv (s.orHold r next) d := by
  obtain ⟨-, e⟩ | ⟨u, hu, e⟩ := orHold_cases s r next <;> rw [e]
  · exact h
  · exact (hr u hu).setPhase next

theorem checkCall (h : CaptureInv s d) (d' : Session) (buffer length : Nat) :
    CaptureInv (s.checkCall d' buffer length) d := by
  obtain ⟨-, e⟩ | ⟨-, e⟩ := checkCall_cases s d' buffer length <;> rw [e]
  · exact (h.raise _).setPhase _
  · exact { h with }

/-- Every phase of `read_frame`: the load of F2 is of the driver's own program (R183, R185). -/
theorem fcoStep (h : CaptureInv s d) {a b : Bool} (e : s.fcoStep a b = .next t) : CaptureInv t d := by
  cases hp : s.phase with
  | idle => exact next_inj.1 ((fcoStep_idle a b hp).symm.trans e) ▸ h
  | f1 buffer length =>
    obtain ⟨-, e'⟩ | ⟨-, -, e'⟩ | ⟨-, d', -, e'⟩ := fcoStep_f1 a b hp <;> rw [e'] at e <;> cases e
    · exact (h.raise _).setPhase _
    · exact h.checkCall ..
  | f2 =>
    obtain ⟨-, e'⟩ | ⟨d', hd', e'⟩ := fcoStep_f2 a b hp <;> rw [e'] at e <;> cases e
    obtain rfl := Option.some.inj (h.session.symm.trans hd')
    exact h.orFault (fun _ => h.loadHeld) _
  | f3 => exact next_inj.1 ((fcoStep_f3 a b hp).symm.trans e) ▸ h.orHold (fun _ => h.claimChannel) _
  | f4 => exact next_inj.1 ((fcoStep_f4 a b hp).symm.trans e) ▸ { h with }
  | f5 => exact next_inj.1 ((fcoStep_f5 a b hp).symm.trans e) ▸ h.start.setPhase _
  | f6 => exact next_inj.1 ((fcoStep_f6 a b hp).symm.trans e) ▸ h.orFault (fun _ => h.enable) _
  | f7 =>
    obtain ⟨-, e'⟩ | ⟨d', -, e'⟩ := fcoStep_f7 a b hp <;> rw [e'] at e <;> cases e
    exact h.orHold (fun _ => h.pushParameter) _
  | f8 => exact next_inj.1 ((fcoStep_f8 a b hp).symm.trans e) ▸ { h with }
  | f9 =>
    rw [fcoStep_f9 a b hp, next_inj] at e
    split at e <;> subst e
    · exact h.setPhase _
    · exact h
  | f10 => exact next_inj.1 ((fcoStep_f10 a b hp).symm.trans e) ▸ { h with }
  | f11 => exact next_inj.1 ((fcoStep_f11 a b hp).symm.trans e) ▸ { h with }
  | f12 => exact next_inj.1 ((fcoStep_f12 a b hp).symm.trans e) ▸ { h with }

/-- A step of BTE takes from OQ and leaves TPX's registers (R200). -/
theorem bteStep (h : CaptureInv s d) (e : s.bteStep = .next t) : CaptureInv t d := by
  obtain ⟨-, e'⟩ | ⟨-, -, b, rest, -, ⟨-, e'⟩ | ⟨-, e'⟩⟩ := bteStep_cases s <;> rw [e'] at e <;> cases e
  · exact h
  · exact { h with }

theorem senStep (h : CaptureInv s d) (e : SenEvent) : CaptureInv (s.senStep e) d := by
  rw [senStep_eq]
  exact { h with }

end CaptureInv

/-- Settles O56: TPX goes on by the kind of slot it stands in, F2 loads the program afresh, and no other step but a HOST
call touches what the invariant speaks of. -/
theorem captureInvKept : Obligations.CaptureInvKept := by
  intro s t d h hhost e
  obtain ⟨-, e⟩ | ⟨-, e⟩ | ⟨a, b, -, e⟩ | ⟨ev, -, rfl⟩ | ⟨call, hm, -, rfl⟩ := step_cases e
  · exact h.consume.tpxStep e
  · exact h.consume.bteStep e
  · exact h.consume.fcoStep e
  · exact h.consume.senStep ev
  · exact absurd (hm ▸ hhost) (by simp [Move.isHost])

end Sys2Proof.Machine
end

