-- ==== Sys2Proof/Proofs/Synthesizer.lean ====
section
/-! PROOFS. SYN (spec/41_synthesizer.md section 2): which inputs it refuses and with which fault, and the words of the
program it builds from the inputs it accepts. -/

namespace Sys2Proof

/-! ### The words of instructions whose operands are numbers -/

/-- A number of at most `n` bits as the lowest field of a word adds to the fields above it (R91). -/
theorem append_ofNat {m n k : Nat} (x : BitVec m) (hk : k < 2 ^ n) :
    x ++ BitVec.ofNat n k = BitVec.ofNat (m + n) (x.toNat * 2 ^ n + k) := by
  apply BitVec.eq_of_toNat_eq
  have hfit : x.toNat * 2 ^ n + k < 2 ^ (m + n) :=
    calc x.toNat * 2 ^ n + k < (x.toNat + 1) * 2 ^ n := by rw [Nat.add_one_mul]; omega
      _ ≤ 2 ^ m * 2 ^ n := Nat.mul_le_mul_right _ x.isLt
      _ = 2 ^ (m + n) := (Nat.pow_add ..).symm
  rw [BitVec.toNat_append, BitVec.toNat_ofNat, BitVec.toNat_ofNat, Nat.mod_eq_of_lt hk, Nat.mod_eq_of_lt hfit,
    ← Nat.shiftLeft_add_eq_or_of_lt hk, Nat.shiftLeft_eq]

/-- The base of a WAIT's word, to which its pin is added (R157). -/
def waitBase (level : Bool) : Nat := if level then 0x3000 else 0x2000

theorem encode_wait (level : Bool) {pin : Nat} (hpin : pin < 32) :
    encode (.wait level (BitVec.ofNat 5 pin)) = BitVec.ofNat 16 (waitBase level + pin) := by
  cases level <;> exact append_ofNat _ hpin

theorem encode_setc_c1 {imm : Nat} (himm : imm < 2048) :
    encode (.setc .c1 (BitVec.ofNat 11 imm)) = BitVec.ofNat 16 (0x7000 + imm) :=
  append_ofNat _ himm

/-- SHIN's format: its base stands above the four bits of the count (R91). -/
theorem shinFormat_eq_ofNat {base n : Nat} (hbase : base < 32) (hn : n < 16) :
    2#3 ++ 0#4 ++ BitVec.ofNat 5 base ++ BitVec.ofNat 4 n = BitVec.ofNat 16 (0x4000 + 16 * base + n) := by
  have hhigh : 2#3 ++ 0#4 ++ BitVec.ofNat 5 base = BitVec.ofNat 12 (0x400 + base) := append_ofNat _ hbase
  rw [hhigh]
  refine (append_ofNat _ hn).trans (congrArg (BitVec.ofNat 16) ?_)
  rw [BitVec.toNat_ofNat]
  omega

namespace Machine

theorem encode_shinOf {base bits : Nat} (hbits : bits ∈ Config.dataWidths) (hbase : base < 32) :
    encode (shinOf (BitVec.ofNat 5 base) bits) = BitVec.ofNat 16 (0x4000 + 16 * base + bits) := by
  obtain rfl | rfl | rfl := mem_dataWidths.1 hbits <;> exact shinFormat_eq_ofNat hbase (by decide)

variable {p : Params} {x : SynthInput}

/-! ### The inputs SYN accepts, and the faults of the others -/

/-- The check of the width and the margin passes exactly for a width of R4 and a margin that is not zero and whose two
immediates have IMM_W bits (R155, R246). -/
theorem inputFault_none (p : Params) (x : SynthInput) :
    x.inputFault p = none ↔ x.dataBits ∈ Config.dataWidths ∧ x.borderPx ≠ 0 ∧ x.borderPx * x.ppc < 2 ^ p.immW := by
  have hmax : p.immMax < x.borderPx * x.ppc ↔ ¬ x.borderPx * x.ppc < 2 ^ p.immW := by
    have : 0 < 2 ^ p.immW := Nat.two_pow_pos _
    rw [Params.immMax]
    omega
  unfold SynthInput.inputFault
  split_ifs with hbits hmargin
  · simpa [hbits, hmax, imp_iff_not_or] using hmargin
  · simpa [hbits, hmax] using hmargin
  · simp [hbits]

/-- The pin check raises BadPin and nothing else (R246). -/
theorem pinFault_cases (p : Params) (x : SynthInput) :
    x.pinFault p = none ∨ ∃ field value, x.pinFault p = some (.badPin field value) := by
  unfold SynthInput.pinFault
  split_ifs <;> simp

/-- The check of the width and the margin raises BadSynthInput and nothing else (R246). -/
theorem inputFault_cases (p : Params) (x : SynthInput) :
    x.inputFault p = none ∨ ∃ field, x.inputFault p = some (.badSynthInput field) := by
  unfold SynthInput.inputFault
  split_ifs <;> simp

theorem synth_of_pinFault {f : Fault} (h : x.pinFault p = some f) : synth p x = .error f := by
  simp [synth, h]

theorem synth_of_inputFault {f : Fault} (hp : x.pinFault p = none) (h : x.inputFault p = some f) :
    synth p x = .error f := by
  simp [synth, hp, h]

theorem synth_of_accepted (hp : x.pinFault p = none) (hi : x.inputFault p = none) :
    synth p x = .ok ⟨(x.instrs p).map encode, 6, 16⟩ := by
  simp [synth, hp, hi]

/-- Settles O23: inputs that offend fail the check that looks for the offence, and each check has one kind of fault. -/
theorem synthRefusesBadInputs : Obligations.SynthRefusesBadInputs := by
  refine fun p x => ⟨fun hbad => ?pins, fun hv hh hk hd hlines hbad => ?inputs⟩
  case pins =>
    obtain hnone | ⟨field, value, hf⟩ := pinFault_cases p x
    · have hpins := (pinFault_none p x).1 hnone
      omega
    · exact ⟨field, value, synth_of_pinFault hf⟩
  case inputs =>
    obtain hnone | ⟨field, hf⟩ := inputFault_cases p x
    · obtain ⟨hbits, hmargin⟩ := (inputFault_none p x).1 hnone
      have hbits := mem_dataWidths.1 hbits
      omega
    · exact ⟨field, synth_of_inputFault ((pinFault_none p x).2 ⟨hv, hh, hk, hd, hlines⟩) hf⟩

/-! ### The words of SYN's program -/

/-- The words of R157, where the operands fit their fields. -/
theorem map_encode_instrs (p : Params) (hv : x.vsyncPin < 32) (hh : x.hsyncPin < 32) (hk : x.pclkPin < 32)
    (hd : x.dataPinBase < 32) (hbits : x.dataBits ∈ Config.dataWidths) (hborder : x.borderPx < 2048)
    (hstrobes : x.borderPx * x.ppc < 2048) :
    (x.instrs p).map encode =
      [ waitBase (!p.activeVsync) + x.vsyncPin, waitBase p.activeVsync + x.vsyncPin, 0x7000 + x.borderPx,
        waitBase p.activeHsync + x.hsyncPin, waitBase (!p.activeHsync) + x.hsyncPin, 0x9003, 0x6800,
        waitBase p.activeHsync + x.hsyncPin, 0x7000 + x.borderPx * x.ppc, waitBase p.activePclk + x.pclkPin,
        waitBase (!p.activePclk) + x.pclkPin, 0x9009, waitBase p.activePclk + x.pclkPin,
        0x4000 + 16 * x.dataPinBase + x.dataBits, waitBase (!p.activePclk) + x.pclkPin, 0x800C,
        waitBase (!p.activeHsync) + x.hsyncPin ].map (BitVec.ofNat 16) := by
  simp only [SynthInput.instrs, List.map_cons, List.map_nil, encode_wait _ hv, encode_wait _ hh, encode_wait _ hk,
    encode_setc_c1 hborder, encode_setc_c1 hstrobes, encode_shinOf hbits hd]
  rfl

/-- The two bases of a signal's WAITs are exchanged with its active level (R157). -/
theorem waitBases_eq {active : Bool} {a i : Nat}
    (h : (a, i) = if active then (0x3000, 0x2000) else (0x2000, 0x3000)) :
    a = waitBase active ∧ i = waitBase (!active) := by
  cases active <;> exact Prod.mk.inj h

/-- Settles O21: an admitted configuration has no more pins and no larger immediates than the fields of R91 hold. -/
theorem synthBuildsTheListedWords : Obligations.SynthBuildsTheListedWords := by
  intro p x hadm hv hh hk hlines hbits hppc hpos hstrobes vA vI hA hI kA kI hvsync hhsync hpclk
  obtain ⟨rfl, rfl⟩ := waitBases_eq hvsync
  obtain ⟨rfl, rfl⟩ := waitBases_eq hhsync
  obtain ⟨rfl, rfl⟩ := waitBases_eq hpclk
  obtain ⟨-, -, hpins, -, himm, -⟩ := (admitted_iff p).1 hadm
  have hwidth := mem_dataWidths.2 hbits
  have hppcPos : 0 < x.ppc := by
    obtain e | e | e := hbits <;> rw [hppc, e] <;> decide
  have hborder : x.borderPx ≤ x.borderPx * x.ppc := Nat.le_mul_of_pos_right _ hppcPos
  have himmMax : 2 ^ p.immW ≤ 2048 := Nat.pow_le_pow_right (by decide) himm
  have hpinFault : x.pinFault p = none := (pinFault_none p x).2 ⟨hv, hh, hk, by omega, hlines⟩
  have hinputFault : x.inputFault p = none := (inputFault_none p x).2 ⟨hwidth, by omega, hstrobes⟩
  rw [synth_of_accepted hpinFault hinputFault, map_encode_instrs p (by omega) (by omega) (by omega) (by omega) hwidth
    (by omega) (by omega)]

/-- Settles O22: the inputs are accepted, and of the parameters the program depends on the active levels alone. -/
theorem synthWorkedPrograms : Obligations.SynthWorkedPrograms := by
  intro p hv hh hk hpins himm
  have worked : ∀ bits ppc, bits ∈ Config.dataWidths → 2 * ppc ≤ 16 →
      synth p ⟨16, 15, 14, 6, bits, 2, ppc⟩ =
        .ok ⟨(SynthInput.instrs p ⟨16, 15, 14, 6, bits, 2, ppc⟩).map encode, 6, 16⟩ := by
    intro bits ppc hbits hppc
    have hwidth := mem_dataWidths.1 hbits
    refine synth_of_accepted ((pinFault_none ..).2 ?_) ((inputFault_none ..).2 ⟨hbits, ?_, ?_⟩) <;> dsimp only <;> omega
  rw [worked 8 1 (by decide) (by decide), worked 4 2 (by decide) (by decide), worked 1 8 (by decide) (by decide)]
  simp only [SynthInput.instrs, hv, hh, hk]
  exact ⟨rfl, rfl, rfl⟩

end Machine

end Sys2Proof
end

