-- ==== Sys2Proof/Proofs/ReadFramePhases.lean ====
section
/-! PROOFS. The moves of HOST, FCO and BTE one at a time: the calls that are made and those that are refused, the phases
of `read_frame` one by one, `deinit`, and the byte BTE moves (spec/42_orchestrator.md sections 1 to 7). -/

namespace Sys2Proof.Machine

variable {s u v : State}

/-! ### Whose step a move is -/

/-- FCO's move is a phase of `read_frame` on the state with the move taken (R7, R183). -/
theorem step_fco {a b : Bool} (hp : s.params.admitted = true) (hm : s.nextMove = .fco a b) :
    step s = s.consume.fcoStep a b := by
  rw [step_eq s hp, hm]
  rfl

/-- A call of HOST is made on the state with the move taken (R7, R180). -/
theorem step_host {call : HostCall} (hp : s.params.admitted = true) (hm : s.nextMove = .host call) :
    step s = s.consume.hostStep call := by
  rw [step_eq s hp, hm]
  rfl

/-- BTE's move is a step of BTE on the state with the move taken (R7, R200). -/
theorem step_bte (hp : s.params.admitted = true) (hm : s.nextMove = .bte) : step s = s.consume.bteStep := by
  rw [step_eq s hp, hm]
  rfl

theorem nextMove_of_agenda {mv : Move} {rest : List Move} (h : s.agenda = mv :: rest) : s.nextMove = mv := by
  rw [State.nextMove, h]

/-- Two steps that answer next are a run of two. -/
theorem run_two (e : step s = .next u) (e' : step u = .next v) : Sys2Proof.core.run 2 s = .next v := by
  obtain ⟨t, hrun, rfl⟩ := (Leads.step e (.step e' (.done (P := (· = v)) rfl))).run
  exact hrun

/-! ### Calls of HOST -/

theorem hostStep_of_refused {call : HostCall} {why : Refusal} (h : s.callRefused call = some why) :
    s.hostStep call = .refused why := by
  simp only [State.hostStep, h]

/-- Where no operation runs, every call but an `init` is made (R180, R181). -/
theorem hostStep_of_idle {call : HostCall} (hp : s.phase = .idle) (hq : s.pending = none)
    (hcall : ∀ r m, call ≠ .init r m) : s.hostStep call = .next (s.callIdle call) := by
  have h : s.callRefused call = none :=
    (callRefused_none ..).2
      ⟨hp, fun op hop => absurd (hq.symm.trans hop) nofun, fun _ r m e => absurd e (hcall r m)⟩
  simp only [State.hostStep, h]

/-- Settles O38, by the three tests of `callRefused` in their order. -/
theorem callsWithoutMeaningAreRefused : Obligations.CallsWithoutMeaningAreRefused := by
  intro s call hp hm
  rw [step_host hp hm]
  refine ⟨fun hphase => hostStep_of_refused ?running, fun op hphase hop hretry => hostStep_of_refused ?held,
    fun r m hphase hop hcall hlife => hostStep_of_refused ?used⟩
  case running => simp [State.callRefused, hphase]
  case held => simp [State.callRefused, hphase, hop, hretry]
  case used => obtain hl | hl := hlife <;> simp [State.callRefused, hphase, hop, hcall, hl]

/-- A fixed call of HOST that is no `init` is the next step where no operation runs. -/
theorem step_call {call : HostCall} {moves : List Move} (hp : s.params.admitted = true) (hphase : s.phase = .idle)
    (hq : s.pending = none) (ha : s.agenda = .host call :: moves) (hcall : ∀ r m, call ≠ .init r m) :
    step s = .next (s.consume.callIdle call) :=
  (step_host hp (nextMove_of_agenda ha)).trans (hostStep_of_idle (s := s.consume) hphase hq hcall)

/-- Settles O30: where no phase runs and no call is in flight, both calls are made, and the second finds every field
`deinit` writes as the first left it. -/
theorem deinitTwiceIsOnce : Obligations.DeinitTwiceIsOnce := by
  intro s rest hp hphase hq ha
  have hfirst : step s = .next s.consume.deinit := step_call hp hphase hq ha nofun
  have ha' : s.consume.deinit.agenda = .host .deinit :: rest := congrArg List.tail ha
  have hsecond : step s.consume.deinit = .next s.consume.deinit.consume.deinit :=
    step_call (s := s.consume.deinit) hp hphase hq ha' nofun
  refine ⟨_, _, hfirst, hsecond, rfl, rfl, rfl, fun k hk => ?unloaded, rfl, rfl, rfl, ?again⟩
  case unloaded => simp [State.deinit]
  case again => simp [State.consume, State.deinit, ha]

/-! ### From the call to F2 -/

/-- A call that F1 refuses leaves the state before the call, the fault recorded (R184, R209). -/
theorem refused_at_f1 {m m' : Move} {rest : List Move} (hphase : s.phase = .idle) (ha : s.agenda = m :: m' :: rest)
    (buffer length : Nat) (f : Fault) :
    ({ ({ s.consume with phase := .f1 buffer length } : State).consume.raise f with phase := .idle } : State) =
      { s with
        agenda := rest, tick := s.tick + 2, faults := if f ∈ s.faults then s.faults else s.faults ++ [f] } := by
  rw [State.raise_eq, State.raise_faults]
  simp [State.consume, ha, hphase]

/-- Settles O31: the call leads to F1, and F1 tests `life`, then the length. -/
theorem readFrameChecksThenLatches : Obligations.ReadFrameChecksThenLatches := by
  intro s buffer length a b rest hp hphase hq ha
  have hcall : step s = .next { s.consume with phase := .f1 buffer length } := step_call hp hphase hq ha nofun
  have hrefused := refused_at_f1 hphase ha buffer length
  set u : State := { s.consume with phase := .f1 buffer length }
  have hf1 := step_fco (s := u) hp (nextMove_of_agenda (congrArg List.tail ha))
  have hrun {v : State} (e : u.consume.fcoStep a b = .next v) : Sys2Proof.core.run 2 s = .next v :=
    run_two hcall (hf1.trans e)
  obtain ⟨hlife, e⟩ | ⟨hlife, hnone, -⟩ | ⟨hlife, d, hd, e⟩ := fcoStep_f1 (s := u.consume) a b rfl
  · refine ⟨fun _ => ?_, fun _ _ h => absurd h hlife⟩
    rw [hrun e, hrefused]
    rfl
  · exact ⟨absurd hlife, fun _ _ _ hd => absurd (hnone.symm.trans hd) nofun⟩
  · refine ⟨absurd hlife, fun d' expected _ hd' hexpected => ?_⟩
    subst hexpected
    obtain rfl := Option.some.inj (hd.symm.trans hd')
    obtain ⟨hne, e'⟩ | ⟨heq, e'⟩ := checkCall_cases u.consume d buffer length
    · refine ⟨fun _ => ?_, fun h => absurd h hne⟩
      rw [hrun e, e', hrefused]
      rfl
    · refine ⟨fun h => absurd heq h, fun _ => ?_⟩
      rw [hrun e, e']
      simp [u, State.consume, ha]

/-! ### The phases -/

/-- Settles O33: F3 is a claim, with the free channel as its input. -/
theorem claimTakesAFreeChannel : Obligations.ClaimTakesAFreeChannel := by
  intro s free delivered hp hm hphase
  rw [step_fco hp hm, fcoStep_f3 (s := s.consume) free delivered hphase]
  cases free <;> rfl

/-- Settles O34: F4 is `configure` with BUF and LEN, and F5 is `start`, by whether anything remains. -/
theorem configureThenStart : Obligations.ConfigureThenStart := by
  intro s a b hp hm
  rw [step_fco hp hm]
  refine ⟨fun hphase => fcoStep_f4 (s := s.consume) a b hphase, fun hphase => ?_⟩
  rw [fcoStep_f5 (s := s.consume) a b hphase, State.start]
  by_cases hzero : s.remain = 0 <;> simp [hzero]

/-- The line count as PQ holds it: the product over the naturals, cut to the width of a counter (R129, R192). -/
theorem narrow_lineCount {p : Params} (d : Session) (hw : p.ctrW ≤ 32) :
    narrow p d.lineCount.toNat = BitVec.ofNat 32 (d.config.width * d.mode.ppc % 2 ^ p.ctrW) := by
  rw [narrow, Session.lineCount, BitVec.toNat_ofNat, Nat.mod_mod_of_dvd _ (pow_dvd_pow 2 hw)]

/-- F7 with the records of the driver pushes their line count (R192). -/
theorem fcoStep_f7_of_session (a b : Bool) {d : Session} (hp : s.phase = .f7) (hd : s.session = some d) :
    s.fcoStep a b = .next (s.orHold (s.pushParameter d.lineCount) .f8) := by
  simp only [State.fcoStep, hp, hd]

/-- Settles O35: F6 is `enable` and F7 is `push_parameter`, by what each can answer. -/
theorem enableThenPushLineCount : Obligations.EnableThenPushLineCount := by
  intro s d a b hp hm hd
  obtain ⟨-, -, -, -, -, -, hw, -⟩ := (admitted_iff _).1 hp
  rw [step_fco hp hm]
  refine ⟨fun hphase hloaded => ?f6, fun hphase hroom => ?f7, fun hphase hfull => ?held⟩
  case f6 =>
    rw [fcoStep_f6 (s := s.consume) a b hphase]
    obtain ⟨-, hunloaded, -⟩ | ⟨-, e⟩ := enable_cases s.consume true
    · exact absurd (hunloaded.symm.trans hloaded) nofun
    · rw [e]; rfl
  case f7 =>
    rw [fcoStep_f7_of_session (s := s.consume) a b hphase hd]
    obtain ⟨hfull, -⟩ | ⟨-, e⟩ := pushParameter_cases s.consume d.lineCount
    · exact absurd hroom hfull.not_gt
    · rw [e, State.consume_params, narrow_lineCount d hw]
      rfl
  case held =>
    rw [fcoStep_f7_of_session (s := s.consume) a b hphase hd]
    obtain ⟨-, e⟩ | ⟨hroom, -⟩ := pushParameter_cases s.consume d.lineCount
    · rw [e]; rfl
    · exact absurd hroom hfull.not_gt

/-- The three bytes of a streaming write, as numbers (R196). -/
theorem busBytes_eq (reg : BitVec 16) (val : Byte) :
    busBytes reg val = [BitVec.ofNat 8 (reg.toNat / 256), BitVec.ofNat 8 reg.toNat, val] := by
  have hhigh : reg.extractLsb' 8 8 = BitVec.ofNat 8 (reg.toNat / 256) :=
    BitVec.eq_of_toNat_eq (by simp [Nat.shiftRight_eq_div_pow])
  have hlow : reg.extractLsb' 0 8 = BitVec.ofNat 8 reg.toNat := BitVec.eq_of_toNat_eq (by simp)
  rw [busBytes, hhigh, hlow]

/-- Settles O36: F8 and F12 are streaming writes, by whether they are delivered. -/
theorem streamWritesAreLogged : Obligations.StreamWritesAreLogged := by
  intro s free delivered hp hm
  rw [step_fco hp hm]
  refine ⟨fun hphase => ?_, fun hphase => ?_, (streamOff_ne_streamOn s.params).symm⟩
  · rw [fcoStep_f8 (s := s.consume) free delivered hphase]
    cases delivered <;> simp [State.streamWrite, busBytes_eq]
  · rw [fcoStep_f12 (s := s.consume) free delivered hphase]
    cases delivered <;> simp [State.streamWrite, busBytes_eq]

/-- Settles O37, phase by phase. -/
theorem waitThenStopThenRelease : Obligations.WaitThenStopThenRelease := by
  intro s a b hp hm
  rw [step_fco hp hm]
  refine ⟨fun hphase hdone => ?_, fun hphase hdone => ?_, fcoStep_f10 (s := s.consume) a b,
    fcoStep_f11 (s := s.consume) a b⟩
  · exact (fcoStep_f9 (s := s.consume) a b hphase).trans (congrArg _ (if_neg (by simp [hdone])))
  · exact (fcoStep_f9 (s := s.consume) a b hphase).trans (congrArg _ (if_pos hdone))

/-! ### The byte BTE moves -/

/-- Settles O40: a byte left to move has room in the buffer, so that the step does not stop. -/
theorem bteMovesTheHeadByte : Obligations.BteMovesTheHeadByte := by
  intro s hp hm hsum
  rw [step_bte hp hm]
  refine ⟨fun hidle => ?idle, fun b rest hactive hremain hq => ⟨s.mem.write (s.dstBase + s.dst) b, ?moves⟩⟩
  case idle =>
    have hruns : s.bteRuns = false := by obtain h | h | h := hidle <;> simp [State.bteRuns, h]
    simp [State.bteStep, hruns]
  case moves =>
    refine ⟨Memory.read_write_same .., fun a ha => Memory.read_write_other _ _ ha, ?_⟩
    have hruns : s.bteRuns = true := by simp [State.bteRuns, hactive, hremain, hq]
    have hroom : s.dst < s.count := by omega
    have hlast : s.remain - 1 = 0 ↔ s.remain = 1 := by omega
    by_cases hone : s.remain = 1 <;> simp [State.bteStep, State.transferByte, hruns, hroom, hq, hlast, hone, hactive]

end Sys2Proof.Machine
end

