-- ==== Sys2Proof/Proofs/ProgramLoad.lean ====
section
/-! PROOFS. The interface of the executor: which programs `load_program` installs, that SYN's program is one of them,
and the reload of F2; `enable` and `push_parameter` (spec/42_orchestrator.md section 3, spec/30_encoding.md section 4). -/

namespace Sys2Proof.Machine

variable {s : State} {q : Params}

/-! ### The checks of R99 -/

/-- A word stands in a program of length `len` when it is an instruction whose target, if it has one, is below `len`
(R99). -/
theorem wordAllowed_iff {len : Nat} {w : Word} :
    wordAllowed q len w = true ↔
      ∃ i, q.instrOf w = some i ∧ ∀ c target, i = .jnz c target → target.toNat < len := by
  unfold wordAllowed
  cases hi : q.instrOf w with
  | none => simp
  | some i => cases i <;> simp

/-- Settles O17: the checks pass exactly on the well-formed programs, and a load that passes them is `install`. -/
theorem loadProgramChecksAndInstalls : Obligations.LoadProgramChecksAndInstalls := by
  intro s p wellFormed hwf
  have hok : p.offence s.params = none ↔ wellFormed := by
    simp only [offence_none, hwf, wordAllowed_iff, instrOf_eq_some, and_assoc]
    tauto
  obtain ⟨hen, e⟩ | ⟨hen, o, ho, e⟩ | ⟨hen, ho, e⟩ := loadProgram_cases s p
  · exact ⟨fun _ => e, fun h => absurd (hen.symm.trans h) nofun, fun h => absurd (hen.symm.trans h) nofun⟩
  · refine ⟨fun h => absurd (hen.symm.trans h) nofun, fun _ _ => ⟨o, e⟩, fun _ h => ?_⟩
    exact absurd (ho.symm.trans (hok.2 h)) nofun
  · refine ⟨fun h => absurd (hen.symm.trans h) nofun, fun _ h => absurd (hok.1 ho) h, fun _ _ => ?_⟩
    exact ⟨p.image s.params.loadOffset, fun k hk => image_getElem p s.params.loadOffset k hk, e⟩

/-! ### `enable` and `push_parameter` -/

/-- Settles O19, by what `enable` can answer. -/
theorem enableWritesEnOnly : Obligations.EnableWritesEnOnly := by
  intro s b
  obtain ⟨rfl, hl, e⟩ | ⟨hl, e⟩ := enable_cases s b
  · exact ⟨fun _ _ => e, fun h => absurd (h.resolve_left nofun) (by simp [hl])⟩
  · exact ⟨fun hb h => absurd (hl hb) (by simp [h]), fun _ => e⟩

/-- Settles O20, by what `push_parameter` can do. -/
theorem pushParameterQueuesOrHolds : Obligations.PushParameterQueuesOrHolds := by
  intro s v
  obtain ⟨hfull, e⟩ | ⟨hroom, e⟩ := pushParameter_cases s v
  · exact ⟨fun _ => e, fun h => absurd h hfull.not_gt⟩
  · exact ⟨fun h => absurd hroom h.not_gt, fun _ => e⟩

/-! ### SYN's program passes the checks -/

/-- Every instruction of SYN's program fits an executor that SYN accepted the input for (R155, R157): its pins exist,
its immediates have IMM_W bits, and its targets are slots. -/
theorem instrs_fit (hroom : q.runsSynth = true) {x : SynthInput} (hpins : x.pinFault q = none)
    (hinput : x.inputFault q = none) (hppc : 0 < x.ppc) {i : Instr} (hi : i ∈ x.instrs q) : i.fits q = true := by
  obtain ⟨hv, hh, hk, -, hlines⟩ := (pinFault_none ..).1 hpins
  obtain ⟨hbits, -, himm⟩ := (inputFault_none ..).1 hinput
  obtain ⟨-, hctr, hslots⟩ := (runsSynth_iff q).1 hroom
  have hmargin : x.borderPx < 2 ^ q.immW := (Nat.le_mul_of_pos_right _ hppc).trans_lt himm
  have hcounter (c : Counter) : c.fits q = true := by cases c <;> simp [Counter.fits, Counter.isC1, hctr]
  have hwait (level : Bool) {pin : Nat} (h : pin < q.nPins) :
      (Instr.wait level (BitVec.ofNat 5 pin)).fits q = true := by
    simpa [Instr.fits] using (Nat.mod_le ..).trans_lt h
  have hsetc {n : Nat} (h : n < 2 ^ q.immW) : (Instr.setc .c1 (BitVec.ofNat 11 n)).fits q = true := by
    simpa [Instr.fits, hcounter, Params.immMax] using (Nat.mod_le ..).trans (Nat.le_sub_one_of_lt h)
  have hlatch : (Instr.latch .c0).fits q = true := hcounter .c0
  have hjnz (c : Counter) {target : Slot} (h : target.toNat < 17) : (Instr.jnz c target).fits q = true := by
    simpa [Instr.fits, hcounter] using h.trans_le ((Nat.le_add_right ..).trans hslots)
  have hshin : (shinOf (BitVec.ofNat 5 x.dataPinBase) x.dataBits).fits q = true :=
    fits_shinOf hbits (by rw [BitVec.toNat_ofNat]; omega)
  revert i
  simp [SynthInput.instrs, hwait, hsetc, hlatch, hjnz, hshin, hv, hh, hk, himm, hmargin]

/-- A jump of SYN's program goes back (R156). -/
theorem SynthSlot.target_le {x : SynthInput} {k : Nat} {i : Instr} (h : SynthSlot x k i) {c : Counter} {target : Slot}
    (hi : i = .jnz c target) : target.toNat ≤ k := by
  cases h with
  | jnz c' target' hback hk =>
    obtain ⟨-, rfl⟩ := Instr.jnz.inj hi
    exact hback
  | shin base hk =>
    unfold shinOf at hi
    split_ifs at hi
  | _ => exact nomatch hi

/-- SYN's program wraps from slot 16 to slot 6 (R156). -/
theorem SessionSound.held_wrap {d : Session} (h : SessionSound q d) : d.held.wrapTarget = 6 ∧ d.held.wrapTop = 16 := by
  obtain ⟨-, -, hheld⟩ := synth_eq_ok h.held
  rw [hheld]
  exact ⟨rfl, rfl⟩

/-- The program of sound records passes the checks of R99 on every executor it fits (R157, log 9). -/
theorem SessionSound.offence_held {d : Session} (h : SessionSound q d) (hq : q.admitted = true)
    (hroom : q.runsSynth = true) : d.held.offence q = none := by
  obtain ⟨hpins, hinput, hheld⟩ := synth_eq_ok h.held
  obtain ⟨-, -, hn, -⟩ := (admitted_iff q).1 hq
  obtain ⟨hw, -, hslots⟩ := (runsSynth_iff q).1 hroom
  have hlength : d.held.prog.length = 17 := by rw [hheld]; rfl
  have hppc : 0 < d.synthInput.ppc := by
    show 0 < d.mode.ppc
    rw [h.ppc]
    obtain e | e | e := mem_dataWidths.1 h.width <;> rw [e] <;> decide
  have hrange : shinInRange (BitVec.ofNat 5 d.config.dataPinBase.toNat) d.config.dataBits.toNat = true := by
    rw [BitVec.ofNat_toNat, BitVec.setWidth_eq]
    have := h.dataPins
    exact decide_eq_true (by omega)
  refine (offence_none ..).2 ⟨fun w hword => wordAllowed_iff.2 ?_, by omega, by omega, ?_⟩
  · obtain ⟨i, hi, rfl⟩ : ∃ i ∈ d.synthInput.instrs q, encode i = w := by simpa [hheld] using hword
    have hdecode := decodeInvertsEncode i (instrs_wf q h.width hrange hi)
    have hfits := instrs_fit hroom hpins hinput hppc hi
    refine ⟨i, (instrOf_eq_some ..).2 ⟨hdecode, by rw [hw]; exact (encode i).isLt, hfits⟩, ?_⟩
    intro c target hjnz
    obtain ⟨k, hk, hget⟩ := List.mem_iff_getElem.1 hi
    have hback := (synthSlot_of_getElem? q _ (List.getElem?_eq_some_iff.2 ⟨hk, hget⟩)).target_le hjnz
    have hk : k < 17 := hk
    omega
  · obtain ⟨htarget, htop⟩ := h.held_wrap
    omega

/-! ### The reload of F2 -/

/-- F2 on sound records is `install` of their program (R185). -/
theorem fcoStep_f2_installs {d : Session} (a b : Bool) (hp : s.phase = .f2) (hen : s.en = false)
    (hd : s.session = some d) (hsound : SessionSound s.params d) (hq : s.params.admitted = true)
    (hroom : s.params.runsSynth = true) : s.fcoStep a b = .next { s.install d.held with phase := .f3 } := by
  have hload : s.loadProgram d.held = .ok (s.install d.held) := by
    simp [State.loadProgram, hen, hsound.offence_held hq hroom]
  simp only [State.fcoStep, hp, hd, hload, State.orFault]

/-- Settles O32: SYN's program passes the checks, so that F2 is its load. -/
theorem reloadMakesTpxFresh : Obligations.ReloadMakesTpxFresh := by
  intro s d a b hq hm hp hen hd hsound hroom
  obtain ⟨htarget, htop⟩ := hsound.held_wrap
  rw [step_fco hq hm, fcoStep_f2_installs (s := s.consume) a b hp hen hd hsound hq hroom]
  simp [State.install, State.consume, htarget, htop]

/-- Settles O55: F2 is the load of SYN's program, which establishes the invariant. -/
theorem reloadEstablishesCapture : Obligations.ReloadEstablishesCapture := by
  intro s t d a b hd hsound hen hroom hoffset hm hp e
  obtain ⟨hq, -⟩ := step_next e
  obtain rfl := next_inj.1 (((step_fco hq hm).trans
    (fcoStep_f2_installs (s := s.consume) a b hp hen hd hsound hq hroom)).symm.trans e)
  exact (CaptureInv.ofInstall (s := s.consume) hq hroom hd hsound hoffset).setPhase _

end Sys2Proof.Machine
end

