-- ==== Sys2Proof/Proofs/DriverInvariant.lean ====
section
/-! PROOFS. The driver's invariant DriverInv: a table of what holds at each phase of `read_frame`, kept row by row by
FCO, and by every other agent because it leaves what the table speaks of (spec/42_orchestrator.md sections 3 to 5). -/

namespace Sys2Proof.Machine

variable {s t : State}

/-! ### The invariant, phase by phase -/

/-- A ready driver has its own program installed (R159, R272). -/
def State.OwnProgram (s : State) : Prop :=
  s.life = .ready → s.loaded = true ∧ s.wrapTarget = 6 ∧ s.wrapTop = 16 ∧
    ∀ d, s.session = some d → s.imem = d.held.image s.params.loadOffset

/-- The driver is ready and LEN is the size of its frame (R184). -/
def State.Serving (s : State) : Prop :=
  s.life = .ready ∧ ∀ d, s.session = some d → s.len = d.config.width * d.config.height

/-- The transfer is the one of this call, and the bytes it moved stand in the frame buffer in order (R188, R201). -/
def State.OwnTransfer (s : State) : Prop :=
  (s.dstBase = s.buf ∧ s.count = s.len) ∧ ∀ i b, s.moved[i]? = some b → s.mem.read (s.buf + i) = some b

/-- What DriverInv says of a state that stands at the phase (R183 to R199). -/
def State.AtPhase (s : State) : Phase → Prop
  | .idle => s.en = false ∧ s.claimed = false ∧ s.active = false
  | .f1 _ _ => s.en = false ∧ s.claimed = false ∧ s.active = false
  | .f2 => s.en = false ∧ s.claimed = false ∧ s.active = false ∧ s.Serving
  | .f3 => s.en = false ∧ s.claimed = false ∧ s.active = false ∧ s.Serving ∧ Reloaded s
  | .f4 => s.en = false ∧ s.claimed = true ∧ s.active = false ∧ s.Serving ∧ Reloaded s
  | .f5 => s.en = false ∧ s.claimed = true ∧ s.active = false ∧ s.Serving ∧ Reloaded s ∧ s.OwnTransfer ∧
      s.dst = 0 ∧ s.done = false
  | .f6 => s.en = false ∧ s.claimed = true ∧ s.Serving ∧ Reloaded s ∧ s.OwnTransfer ∧
      (s.active = true ∨ s.done = true)
  | .f7 => s.en = true ∧ s.claimed = true ∧ s.Serving ∧ s.pq = [] ∧ s.OwnTransfer ∧
      (s.active = true ∨ s.done = true)
  | .f8 => s.en = true ∧ s.claimed = true ∧ s.Serving ∧ s.OwnTransfer ∧ (s.active = true ∨ s.done = true)
  | .f9 => s.en = true ∧ s.claimed = true ∧ s.Serving ∧ s.OwnTransfer ∧ (s.active = true ∨ s.done = true)
  | .f10 => s.en = true ∧ s.claimed = true ∧ s.active = false ∧ s.Serving ∧ s.OwnTransfer ∧ s.done = true
  | .f11 => s.en = false ∧ s.claimed = true ∧ s.active = false ∧ s.Serving ∧ s.OwnTransfer ∧ s.done = true
  | .f12 => s.en = false ∧ s.claimed = false ∧ s.active = false ∧ s.Serving ∧ s.OwnTransfer ∧ s.done = true

/-- The invariant is the row of the present phase, with the two clauses that name no phase. -/
theorem driverInv_iff : DriverInv s ↔ s.OwnProgram ∧ s.pending = none ∧ s.AtPhase s.phase := by
  constructor
  · rintro ⟨hen, hclaimed, hactive, hserving, hown, hreloaded, hpq, hto, hfresh, hstarted, hcomplete, hfilled, hcalls⟩
    change _ → s.Serving at hserving
    have htransfer (h : 5 ≤ s.phase.value) : s.OwnTransfer := ⟨hto h, hfilled h⟩
    clear hto hfilled
    refine ⟨hown, hcalls, ?_⟩
    cases hp : s.phase <;> simp_all [Phase.value, State.AtPhase]
  · rintro ⟨hown, hcalls, hat⟩
    suffices hrow : (s.en = true ↔ 7 ≤ s.phase.value ∧ s.phase.value ≤ 10) ∧
        (s.claimed = true ↔ 4 ≤ s.phase.value ∧ s.phase.value ≤ 11) ∧
        (s.active = true → 6 ≤ s.phase.value ∧ s.phase.value ≤ 9) ∧
        (2 ≤ s.phase.value → s.Serving) ∧ (3 ≤ s.phase.value → s.phase.value ≤ 6 → Reloaded s) ∧
        (s.phase.value = 7 → s.pq = []) ∧ (5 ≤ s.phase.value → s.OwnTransfer) ∧
        (s.phase.value = 5 → s.dst = 0 ∧ s.done = false) ∧
        (6 ≤ s.phase.value → s.active = true ∨ s.done = true) ∧ (10 ≤ s.phase.value → s.done = true) by
      obtain ⟨hen, hclaimed, hactive, hserving, hreloaded, hpq, htransfer, hfresh, hstarted, hcomplete⟩ := hrow
      exact ⟨hen, hclaimed, hactive, hserving, hown, hreloaded, hpq, fun h => (htransfer h).1, hfresh, hstarted,
        hcomplete, fun h => (htransfer h).2, hcalls⟩
    cases hp : s.phase <;> simp_all [Phase.value, State.AtPhase]


/-! ### TPX, BTE and SEN -/

/-- What an instruction may write: the registers of TPX, the two queues and the record of faults. -/
theorem TpxFrame.eq (h : TpxFrame s t) :
    t = { s with
      c0 := t.c0, c1 := t.c1, pc := t.pc, isr := t.isr, isrcnt := t.isrcnt, param := t.param, oq := t.oq, pq := t.pq
      faults := t.faults } := by
  obtain ⟨_, _, _, ⟨_, _⟩, _, ⟨_, _, _⟩, ⟨_, _, _, _⟩, ⟨_, _, _⟩, ⟨_, _, _⟩, ⟨_, _⟩, ⟨_, _, _, _⟩, ⟨_, _⟩, ⟨_, _, _⟩,
    _, _⟩ := h
  cases t
  simp_all

/-- No instruction puts a word into PQ (R126). -/
theorem exec_keeps_pq_empty {i : Instr} (e : exec i s = .next t) (h : s.pq = []) : t.pq = [] := by
  have hshin (i : Instr) (base : PinIndex) (n : Nat) : (s.shin i base n).pq = [] := by
    obtain ⟨-, e'⟩ | ⟨-, -, e'⟩ | ⟨-, -, -, e'⟩ | ⟨-, -, e'⟩ := shin_cases s i base n <;> simp [e', h]
  cases i with
  | wait level pin => obtain ⟨-, rfl⟩ | ⟨-, rfl⟩ := exec_wait_cases e <;> exact h
  | shin1 base => exact next_inj.1 e ▸ hshin ..
  | shin4 base => exact next_inj.1 e ▸ hshin ..
  | shin8 base => exact next_inj.1 e ▸ hshin ..
  | setc c imm => exact next_inj.1 e ▸ by simp [h]
  | latch c =>
    obtain ⟨v, rest, hq, -⟩ | ⟨-, v, -, rfl⟩ | ⟨-, -, rfl⟩ := exec_latch_cases e
    · exact nomatch h.symm.trans hq
    · simp [h]
    · exact h
  | jnz c target => obtain ⟨-, rfl⟩ | ⟨v, -, -, rfl⟩ | ⟨v, -, -, rfl⟩ := exec_jnz_cases e <;> simp [h]

namespace DriverInv

theorem consume (h : DriverInv s) : DriverInv s.consume :=
  { h with reloaded := fun hge hle => { h.reloaded hge hle with } }

/-- The record of faults is no part of the invariant (R240). -/
theorem raise (h : DriverInv s) (f : Fault) : DriverInv (s.raise f) := by
  rw [State.raise_eq]
  exact { h with reloaded := fun hge hle => { h.reloaded hge hle with } }

/-- TPX has a step only from F6 done to F10 not done, and there the invariant speaks of none of its registers but PQ
(R120, R190). -/
theorem tpxStep (h : DriverInv s) (e : s.tpxStep = .next t) : DriverInv t := by
  obtain ⟨-, e'⟩ | ⟨-, f, -, e'⟩ | ⟨hruns, i, u, -, hu, hf, e'⟩ := tpxStep_cases s <;>
    obtain rfl := next_inj.1 (e'.symm.trans e)
  · exact h
  · exact h.raise f
  · obtain ⟨-, hen⟩ : s.loaded = true ∧ s.en = true := by simpa [State.tpxRuns] using hruns
    obtain ⟨hge, -⟩ := h.enabled.1 hen
    have hpq := exec_keeps_pq_empty hu
    rw [hf.eq]
    exact { h with
      reloaded := fun _ hle => absurd (hge.trans hle) (by decide)
      pqEmpty := fun h7 => hpq (h.pqEmpty h7) }

/-- A byte BTE moves goes to the place in the buffer that its place in the record names (R200, R201). -/
theorem filled_write {m : Memory} {base : Nat} {moved : List Byte}
    (h : ∀ i b, moved[i]? = some b → m.read (base + i) = some b) (v : Byte) {i : Nat} {b : Byte}
    (hi : (moved ++ [v])[i]? = some b) : (m.write (base + moved.length) v).read (base + i) = some b := by
  rw [List.getElem?_append] at hi
  split at hi
  case isTrue hlt =>
    rw [Memory.read_write_other _ _ (by omega)]
    exact h i b hi
  case isFalse hge =>
    obtain ⟨hzero, rfl⟩ : i - moved.length = 0 ∧ v = b := by simpa [List.getElem?_singleton] using hi
    obtain rfl : i = moved.length := by omega
    exact Memory.read_write_same ..

/-- BTE has a step only from F5 done to F9 not done (R189, R197): the transfer goes on or completes (R200). -/
theorem bteStep (h : DriverInv s) (hs : StateInv s) (e : s.bteStep = .next t) : DriverInv t := by
  obtain ⟨-, e'⟩ | ⟨hactive, hpos, v, rest, hq, ⟨-, e'⟩ | ⟨-, e'⟩⟩ := bteStep_cases s <;> rw [e'] at e <;> cases e
  · exact h
  · obtain ⟨hge, hle⟩ := h.active hactive
    obtain ⟨hbase, -⟩ := h.transfer (by omega)
    exact { h with
      active := fun _ => ⟨hge, hle⟩
      reloaded := fun hge' hle' => by
        obtain ⟨hoq, -⟩ := (h.reloaded hge' hle').queues
        exact nomatch hoq.symm.trans hq
      fresh := fun h5 => absurd (hge.trans_eq h5) (by decide)
      started := fun _ => by by_cases hlast : s.remain - 1 = 0 <;> simp [hlast, hactive]
      complete := fun h10 => absurd (h10.trans hle) (by decide)
      filled := fun hge' i b hi => by
        show (s.mem.write (s.dstBase + s.dst) v).read (s.buf + i) = some b
        rw [hbase, ← hs.movedLength]
        exact filled_write (h.filled hge') v hi }

theorem senStep (h : DriverInv s) (e : SenEvent) : DriverInv (s.senStep e) := by
  rw [senStep_eq]
  exact { h with reloaded := fun hge hle => { h.reloaded hge hle with } }

/-! ### The orchestrator -/

/-- What stands at the phase a state is in. -/
theorem atPhase (h : DriverInv s) {p : Phase} (hp : s.phase = p) : s.AtPhase p := hp ▸ (driverInv_iff.1 h).2.2

/-- What stands whatever the phase is. -/
theorem own (h : DriverInv s) : s.OwnProgram ∧ s.pending = none := ⟨h.installed, h.calls⟩

/-- F1 (R184): the call is over, or LEN is the size of the frame of the ready driver. -/
theorem checkCall (h : DriverInv s) {buffer length : Nat} (hp : s.phase = .f1 buffer length) (hlife : s.life = .ready)
    {d : Session} (hd : s.session = some d) : DriverInv (s.checkCall d buffer length) := by
  obtain ⟨hown, hcalls⟩ := h.own
  obtain ⟨-, e⟩ | ⟨hlen, e⟩ := checkCall_cases s d buffer length <;> rw [e]
  · rw [State.raise_eq]
    exact driverInv_iff.2 ⟨hown, hcalls, h.atPhase hp⟩
  · obtain ⟨hen, hclaimed, hactive⟩ := h.atPhase hp
    refine driverInv_iff.2 ⟨hown, hcalls, hen, hclaimed, hactive, hlife, fun d' hd' => ?_⟩
    obtain rfl := Option.some.inj (hd.symm.trans hd')
    exact hlen

end DriverInv

/-- A load of the program of sound records installs the driver's own program (R159, R185). -/
theorem ownProgram_install {d : Session} (hs : s.session = some d) (hsound : SessionSound s.params d) :
    (s.install d.held).OwnProgram := by
  obtain ⟨htarget, htop⟩ := hsound.held_wrap
  refine fun _ => ⟨rfl, congrArg (BitVec.ofNat 5) htarget, congrArg (BitVec.ofNat 5) htop, fun d' hd' => ?_⟩
  obtain rfl := Option.some.inj (hs.symm.trans hd')
  rfl

/-- TPX after a load is as a reload leaves it (R186). -/
theorem reloaded_install (s : State) (p : TimingProgram) : Reloaded (s.install p) :=
  ⟨rfl, ⟨rfl, rfl⟩, ⟨rfl, rfl⟩, ⟨rfl, rfl⟩, rfl⟩

/-- A started transfer is active or complete (R189). -/
theorem start_active_or_done (s : State) : s.start.active = true ∨ s.start.done = true := by
  unfold State.start
  split
  · exact .inr rfl
  · exact .inl rfl

/-- `start` writes ACTIVE and DONE. -/
theorem start_eq (s : State) : s.start = { s with active := s.start.active, done := s.start.done } := by
  unfold State.start
  split <;> rfl

namespace DriverInv

/-- F2 (R185): the reload, or the fault of the load. -/
theorem reload (h : DriverInv s) (hp : s.phase = .f2) {d : Session} (hd : s.session = some d)
    (hsound : SessionSound s.params d) : DriverInv (s.orFault (s.loadProgram d.held) .f3) := by
  obtain ⟨hown, hcalls⟩ := h.own
  obtain ⟨hen, hclaimed, hactive, hserving⟩ := h.atPhase hp
  obtain ⟨f, -, e⟩ | ⟨u, hu, e⟩ := orFault_cases s (s.loadProgram d.held) .f3 <;> rw [e]
  · exact h.raise f
  · obtain ⟨-, e'⟩ | ⟨-, o, -, e'⟩ | ⟨-, -, e'⟩ := loadProgram_cases s d.held <;> rw [e'] at hu <;> cases hu
    exact driverInv_iff.2 ⟨ownProgram_install hd hsound, hcalls, hen, hclaimed, hactive, hserving,
      { reloaded_install s d.held with }⟩

/-- F3 (R187): the claim, or a hold. -/
theorem claim (h : DriverInv s) (hp : s.phase = .f3) (free : Bool) :
    DriverInv (s.orHold (s.claimChannel free) .f4) := by
  obtain ⟨hown, hcalls⟩ := h.own
  obtain ⟨hen, -, -, hserving, hreloaded⟩ := h.atPhase hp
  cases free with
  | false => exact h
  | true => exact driverInv_iff.2 ⟨hown, hcalls, hen, rfl, rfl, hserving, { hreloaded with }⟩

/-- F6 (R190): TPX is enabled, with nothing left in PQ by the reload, or the fault of `enable`. -/
theorem enableTpx (h : DriverInv s) (hp : s.phase = .f6) : DriverInv (s.orFault (s.enable true) .f7) := by
  obtain ⟨hown, hcalls⟩ := h.own
  obtain ⟨-, hclaimed, hserving, hreloaded, htransfer, hstarted⟩ := h.atPhase hp
  obtain ⟨f, -, e⟩ | ⟨u, hu, e⟩ := orFault_cases s (s.enable true) .f7 <;> rw [e]
  · exact h.raise f
  · obtain ⟨-, -, e'⟩ | ⟨-, e'⟩ := enable_cases s true <;> rw [e'] at hu <;> cases hu
    exact driverInv_iff.2 ⟨hown, hcalls, rfl, hclaimed, hserving, hreloaded.queues.2, htransfer, hstarted⟩

/-- F7 (R192, R193): the line count is pushed, or a hold. -/
theorem push (h : DriverInv s) (hp : s.phase = .f7) (v : Count) :
    DriverInv (s.orHold (s.pushParameter v) .f8) := by
  obtain ⟨hown, hcalls⟩ := h.own
  obtain ⟨hen, hclaimed, hserving, -, htransfer, hstarted⟩ := h.atPhase hp
  obtain ⟨-, e⟩ | ⟨u, hu, e⟩ := orHold_cases s (s.pushParameter v) .f8 <;> rw [e]
  · exact h
  · obtain ⟨-, e'⟩ | ⟨-, e'⟩ := pushParameter_cases s v <;> rw [e'] at hu <;> cases hu
    exact driverInv_iff.2 ⟨hown, hcalls, hen, hclaimed, hserving, htransfer, hstarted⟩

/-- Every phase of `read_frame` leads to the row of the next one (R183). -/
theorem fcoStep (h : DriverInv s) (hs : StateInv s) {a b : Bool} (e : s.fcoStep a b = .next t) : DriverInv t := by
  obtain ⟨hown, hcalls⟩ := h.own
  cases hp : s.phase with
  | idle => exact next_inj.1 ((fcoStep_idle a b hp).symm.trans e) ▸ h
  | f1 buffer length =>
    obtain ⟨-, e'⟩ | ⟨-, -, e'⟩ | ⟨hlife, d, hd, e'⟩ := fcoStep_f1 a b hp <;> rw [e'] at e <;> cases e
    · rw [State.raise_eq]
      exact driverInv_iff.2 ⟨hown, hcalls, h.atPhase hp⟩
    · exact h.checkCall hp hlife hd
  | f2 =>
    obtain ⟨-, e'⟩ | ⟨d, hd, e'⟩ := fcoStep_f2 a b hp <;> rw [e'] at e <;> cases e
    exact h.reload hp hd (hs.session d hd)
  | f3 => exact next_inj.1 ((fcoStep_f3 a b hp).symm.trans e) ▸ h.claim hp a
  | f4 =>
    obtain rfl := next_inj.1 ((fcoStep_f4 a b hp).symm.trans e)
    obtain ⟨hen, hclaimed, -, hserving, hreloaded⟩ := h.atPhase hp
    exact driverInv_iff.2 ⟨hown, hcalls, hen, hclaimed, rfl, hserving, { hreloaded with },
      ⟨⟨rfl, rfl⟩, nofun⟩, rfl, rfl⟩
  | f5 =>
    obtain rfl := next_inj.1 ((fcoStep_f5 a b hp).symm.trans e)
    obtain ⟨hen, hclaimed, -, hserving, hreloaded, htransfer, -⟩ := h.atPhase hp
    have hstarted := start_active_or_done s
    rw [start_eq]
    exact driverInv_iff.2 ⟨hown, hcalls, hen, hclaimed, hserving, { hreloaded with }, htransfer, hstarted⟩
  | f6 => exact next_inj.1 ((fcoStep_f6 a b hp).symm.trans e) ▸ h.enableTpx hp
  | f7 =>
    obtain ⟨-, e'⟩ | ⟨d, -, e'⟩ := fcoStep_f7 a b hp <;> rw [e'] at e <;> cases e
    exact h.push hp _
  | f8 =>
    exact next_inj.1 ((fcoStep_f8 a b hp).symm.trans e) ▸ driverInv_iff.2 ⟨hown, hcalls, h.atPhase hp⟩
  | f9 =>
    rw [fcoStep_f9 a b hp, next_inj] at e
    split at e <;> subst e
    case isTrue hdone =>
      obtain ⟨hen, hclaimed, hserving, htransfer, -⟩ := h.atPhase hp
      obtain ⟨hactive, -⟩ := hs.transferDone hdone
      exact driverInv_iff.2 ⟨hown, hcalls, hen, hclaimed, hactive, hserving, htransfer, hdone⟩
    case isFalse => exact h
  | f10 =>
    obtain ⟨-, hrest⟩ := h.atPhase hp
    exact next_inj.1 ((fcoStep_f10 a b hp).symm.trans e) ▸ driverInv_iff.2 ⟨hown, hcalls, rfl, hrest⟩
  | f11 =>
    obtain ⟨hen, -, -, hrest⟩ := h.atPhase hp
    exact next_inj.1 ((fcoStep_f11 a b hp).symm.trans e) ▸ driverInv_iff.2 ⟨hown, hcalls, hen, rfl, rfl, hrest⟩
  | f12 =>
    obtain ⟨hen, hclaimed, hactive, -⟩ := h.atPhase hp
    exact next_inj.1 ((fcoStep_f12 a b hp).symm.trans e) ▸ driverInv_iff.2 ⟨hown, hcalls, hen, hclaimed, hactive⟩

/-! ### The calls of HOST -/

/-- An `init` that fails leaves no ready driver (R25, R256). -/
theorem initFails (hp : s.phase = .idle) (hcalls : s.pending = none) (hat : s.AtPhase .idle) {why : InitFailure} :
    DriverInv (s.initFails why) :=
  driverInv_iff.2 ⟨nofun, hcalls, hp ▸ hat⟩

theorem initFaults (hp : s.phase = .idle) (hcalls : s.pending = none) (hat : s.AtPhase .idle) {f : Fault} :
    DriverInv (s.initFaults f) := by
  rw [State.initFaults, State.raise_eq]
  exact initFails (s := { s with faults := (s.raise f).faults }) hp hcalls hat

/-- `init` (R182): the driver is FAILED, or its own program is installed. -/
theorem init (h : DriverInv s) (hs : StateInv s) (hp : s.phase = .idle) (r : ConfigRequest) (m : Middle) :
    DriverInv (s.init r m) := by
  obtain ⟨-, hcalls⟩ := h.own
  have hat := h.atPhase hp
  obtain ⟨-, -, hpins, -⟩ := (admitted_iff _).1 hs.admitted
  obtain ⟨why, e⟩ | ⟨f, e⟩ | ⟨hr, hb, hf, -, ⟨f, -, e⟩ | ⟨p, hsynth, e⟩⟩ := init_cases s r m <;> rw [e]
  · exact initFails hp hcalls hat
  · exact initFaults hp hcalls hat
  · exact initFaults (s := s.sensorIdle r.stored) hp hcalls hat
  · set u : State := { s.sensorIdle r.stored with session := some ⟨r.stored, r.resolved, p⟩ }
    obtain ⟨f, e'⟩ | ⟨-, -, e'⟩ := initLoad_cases u p <;> rw [e']
    · exact initFaults (s := u) hp hcalls hat
    · have hown := ownProgram_install (s := { u with life := .ready }) rfl
        (sessionSound_stored hpins hr hb hf hsynth)
      exact driverInv_iff.2 ⟨hown, hcalls, hp ▸ hat⟩

/-- `deinit` (R207): TPX is disabled and the driver is not ready. -/
theorem deinit (h : DriverInv s) (hp : s.phase = .idle) : DriverInv s.deinit := by
  obtain ⟨-, hcalls⟩ := h.own
  obtain ⟨-, hbte⟩ := h.atPhase hp
  exact driverInv_iff.2 ⟨nofun, hcalls, hp ▸ ⟨rfl, hbte⟩⟩

/-- A call of HOST that is no collaborator operation, made while no operation runs (R180, R181). -/
theorem callIdle (h : DriverInv s) (hs : StateInv s) (hp : s.phase = .idle) {call : HostCall}
    (hcall : (Move.host call).isCollaborator = false) : DriverInv (s.callIdle call) := by
  obtain ⟨hown, hcalls⟩ := h.own
  cases call with
  | init r m => exact h.init hs hp r m
  | readFrame buffer length => exact driverInv_iff.2 ⟨hown, hcalls, h.atPhase hp⟩
  | deinit => exact h.deinit hp
  | setCoarseIntegration lines => exact driverInv_iff.2 ⟨hown, hcalls, hp ▸ h.atPhase hp⟩
  | collaborator op => exact nomatch hcall

end DriverInv

/-! ### The statements -/

/-- Settles O54: FCO goes from row to row of the table, and every other agent keeps the row it finds. -/
theorem driverInvKept : Obligations.DriverInvKept := by
  intro s t hs h hm e
  obtain ⟨-, e⟩ | ⟨-, e⟩ | ⟨a, b, -, e⟩ | ⟨ev, -, rfl⟩ | ⟨call, hcall, hc, rfl⟩ := step_cases e
  · exact h.consume.tpxStep e
  · exact h.consume.bteStep hs.consume e
  · exact h.consume.fcoStep hs.consume e
  · exact h.consume.senStep ev
  · obtain ⟨hp, -, -⟩ := (callRefused_none ..).1 hc
    exact h.consume.callIdle hs.consume hp (hcall ▸ hm)

/-- Settles O39: at F12 the transfer of LEN bytes is complete, and its bytes stand in the buffer. -/
theorem returnReleasesAndFills : Obligations.ReturnReleasesAndFills := by
  intro s a b hs h hm hp
  obtain ⟨hen, hclaimed, hactive, ⟨hlife, -⟩, ⟨⟨-, hcount⟩, hfilled⟩, hdone⟩ := h.atPhase hp
  obtain ⟨-, hremain⟩ := hs.transferDone hdone
  have hsum := hs.transferIndex
  have hlen := hs.movedLength
  refine ⟨_, (step_fco hs.admitted hm).trans (fcoStep_f12 a b hp), hen, hclaimed, hactive, rfl, hlife, rfl, rfl,
    by omega, fun i hi => hfilled i _ (List.getElem?_eq_getElem hi)⟩

namespace DriverInv

/-- A `read_frame` runs where the records are (R184). -/
theorem session_of_running (h : DriverInv s) (hs : StateInv s) (hp : 2 ≤ s.phase.value) : ∃ d, s.session = some d :=
  Option.isSome_iff_exists.1 (hs.ready (h.running hp).1)

/-- Every phase of `read_frame` answers next (R240). -/
theorem fcoStep_answers (h : DriverInv s) (hs : StateInv s) (a b : Bool) : ∃ t, s.fcoStep a b = .next t := by
  cases hp : s.phase with
  | idle => exact ⟨_, fcoStep_idle a b hp⟩
  | f1 buffer length =>
    obtain ⟨-, e⟩ | ⟨hlife, hnone, -⟩ | ⟨-, d, -, e⟩ := fcoStep_f1 a b hp
    · exact ⟨_, e⟩
    · simpa [hnone] using hs.ready hlife
    · exact ⟨_, e⟩
  | f2 =>
    obtain ⟨d, hd⟩ := h.session_of_running hs (by rw [hp]; decide)
    obtain ⟨hnone, -⟩ | ⟨d, -, e⟩ := fcoStep_f2 a b hp
    · exact nomatch hd.symm.trans hnone
    · exact ⟨_, e⟩
  | f3 => exact ⟨_, fcoStep_f3 a b hp⟩
  | f4 => exact ⟨_, fcoStep_f4 a b hp⟩
  | f5 => exact ⟨_, fcoStep_f5 a b hp⟩
  | f6 => exact ⟨_, fcoStep_f6 a b hp⟩
  | f7 =>
    obtain ⟨d, hd⟩ := h.session_of_running hs (by rw [hp]; decide)
    obtain ⟨hnone, -⟩ | ⟨d, -, e⟩ := fcoStep_f7 a b hp
    · exact nomatch hd.symm.trans hnone
    · exact ⟨_, e⟩
  | f8 => exact ⟨_, fcoStep_f8 a b hp⟩
  | f9 => exact ⟨_, fcoStep_f9 a b hp⟩
  | f10 => exact ⟨_, fcoStep_f10 a b hp⟩
  | f11 => exact ⟨_, fcoStep_f11 a b hp⟩
  | f12 => exact ⟨_, fcoStep_f12 a b hp⟩

end DriverInv

/-- BTE never writes outside the frame buffer: with a byte left to move DST is below the count (R200, log 11). -/
theorem StateInv.bteStep_answers (hs : StateInv s) : ∃ t, s.bteStep = .next t := by
  obtain ⟨-, e⟩ | ⟨-, hpos, b, rest, -, ⟨-, e⟩ | ⟨hfull, -⟩⟩ := bteStep_cases s
  · exact ⟨_, e⟩
  · exact ⟨_, e⟩
  · have hsum := hs.transferIndex
    omega

/-- Settles O49: every agent answers next, and HOST's calls are refused for the two reasons named, no operation of its
own being in flight. -/
theorem onlyRefusedCallsStopTheMachine : Obligations.OnlyRefusedCallsStopTheMachine := by
  intro s hs h
  cases hm : s.nextMove with
  | tpx =>
    obtain ⟨t, e, -⟩ := tpxStep_frame s.consume
    exact .inl ⟨t, (step_tpx hs.admitted hm).trans e⟩
  | bte =>
    obtain ⟨t, e⟩ := hs.consume.bteStep_answers
    exact .inl ⟨t, (step_bte hs.admitted hm).trans e⟩
  | fco a b =>
    obtain ⟨t, e⟩ := h.consume.fcoStep_answers hs.consume a b
    exact .inl ⟨t, (step_fco hs.admitted hm).trans e⟩
  | sen ev => exact .inl ⟨_, by rw [step_eq s hs.admitted, hm]; rfl⟩
  | host call =>
    rw [step_host hs.admitted hm]
    obtain ⟨-, e⟩ | ⟨why, hwhy, e⟩ := hostStep_cases s.consume call
    · exact .inl ⟨_, e⟩
    · obtain ⟨rfl, hbusy⟩ | ⟨rfl, -, -, ⟨r, m, rfl⟩, hlife⟩ := callRefused_some hwhy
      · refine .inr (.inl ⟨e, rfl, hbusy.resolve_right ?_⟩)
        rintro ⟨op, hop, -⟩
        exact nomatch h.calls.symm.trans hop
      · refine .inr (.inr ⟨e, ⟨r, m, rfl⟩, ?_⟩)
        revert hlife
        cases hl : s.life <;> simp [hl]

end Sys2Proof.Machine
end

