-- ==== Sys2Proof/Proofs/BusLog.lean ====
section
/-! PROOFS. Who writes BUSLOG: the streaming writes of F8 and F12, and no other operation (spec/10_state.md section 13,
spec/42_orchestrator.md section 3). -/

namespace Sys2Proof.Machine

/-- BUSLOG is as it was. -/
def SameBusLog (s t : State) : Prop := t.busLog = s.busLog

variable {s t : State}

namespace SameBusLog

theorem raise (s : State) (f : Fault) : SameBusLog s (s.raise f) := State.raise_busLog s f

/-! ### The operations of TPX and BTE -/

theorem loadProgram {p : TimingProgram} (e : s.loadProgram p = .ok t) : SameBusLog s t := by
  obtain ⟨-, e'⟩ | ⟨-, o, -, e'⟩ | ⟨-, -, e'⟩ := loadProgram_cases s p <;> rw [e'] at e <;> cases e
  rfl

theorem enable {b : Bool} (e : s.enable b = .ok t) : SameBusLog s t := by
  obtain ⟨-, -, e'⟩ | ⟨-, e'⟩ := enable_cases s b <;> rw [e'] at e <;> cases e
  rfl

theorem pushParameter {v : Count} (e : s.pushParameter v = some t) : SameBusLog s t := by
  obtain ⟨-, e'⟩ | ⟨-, e'⟩ := pushParameter_cases s v <;> rw [e'] at e <;> cases e
  rfl

theorem claimChannel {free : Bool} (e : s.claimChannel free = some t) : SameBusLog s t := by
  cases free <;> cases e
  rfl

theorem start (s : State) : SameBusLog s s.start := by
  unfold State.start
  split <;> rfl

theorem tpxStep (e : s.tpxStep = .next t) : SameBusLog s t := by
  obtain ⟨u, hu, hf⟩ := tpxStep_frame s
  obtain ⟨-, hlog, -⟩ := hf.outputs
  exact next_inj.1 (hu.symm.trans e) ▸ hlog

theorem bteStep (e : s.bteStep = .next t) : SameBusLog s t := by
  obtain ⟨-, e'⟩ | ⟨-, -, b, rest, -, ⟨-, e'⟩ | ⟨-, e'⟩⟩ := bteStep_cases s <;> rw [e'] at e <;> cases e <;> rfl

/-! ### HOST and SEN -/

theorem senStep (s : State) (e : SenEvent) : SameBusLog s (s.senStep e) := by
  rw [senStep_eq]
  rfl

theorem collaborate (s : State) (op : Collaborator) : SameBusLog s (s.collaborate op) := by
  obtain ⟨f, e⟩ | e | ⟨u, e, hu⟩ := collaborate_cases s op <;> rw [e]
  · exact raise s f
  · rfl
  · show SameBusLog s u
    obtain ⟨p, -, hu⟩ | ⟨b, -, hu⟩ | ⟨v, -, hu⟩ | ⟨free, -, hu⟩ | ⟨dst, count, -, rfl⟩ | ⟨-, rfl⟩ | ⟨-, -, rfl⟩ |
      ⟨-, rfl⟩ := hu
    · exact loadProgram hu
    · exact enable hu
    · exact pushParameter hu
    · exact claimChannel hu
    · rfl
    · exact start s
    · rfl
    · rfl

theorem init (s : State) (r : ConfigRequest) (m : Middle) : SameBusLog s (s.init r m) := by
  obtain ⟨why, e⟩ | ⟨f, e⟩ | ⟨-, -, -, -, ⟨f, -, e⟩ | ⟨p, -, e⟩⟩ := init_cases s r m <;> rw [e]
  · rfl
  · exact raise s f
  · exact raise (s.sensorIdle r.stored) f
  · set u : State := { s.sensorIdle r.stored with session := some ⟨r.stored, r.resolved, p⟩ }
    obtain ⟨f, e'⟩ | ⟨-, -, e'⟩ := initLoad_cases u p <;> rw [e']
    · exact raise u f
    · rfl

theorem callIdle (s : State) (call : HostCall) : SameBusLog s (s.callIdle call) := by
  cases call with
  | init r m => exact init s r m
  | readFrame buffer length => rfl
  | deinit => rfl
  | setCoarseIntegration lines => rfl
  | collaborator op => exact collaborate s op

/-! ### The orchestrator -/

theorem orFault {r : Except Fault State} (hr : ∀ u, r = .ok u → SameBusLog s u) (next : Phase) :
    SameBusLog s (s.orFault r next) := by
  obtain ⟨f, -, e⟩ | ⟨u, hu, e⟩ := orFault_cases s r next <;> rw [e]
  · exact raise s f
  · exact hr u hu

theorem orHold {r : Option State} (hr : ∀ u, r = some u → SameBusLog s u) (next : Phase) :
    SameBusLog s (s.orHold r next) := by
  obtain ⟨-, e⟩ | ⟨u, hu, e⟩ := orHold_cases s r next <;> rw [e]
  · rfl
  · exact hr u hu

theorem checkCall (s : State) (d : Session) (buffer length : Nat) : SameBusLog s (s.checkCall d buffer length) := by
  obtain ⟨-, e⟩ | ⟨-, e⟩ := checkCall_cases s d buffer length <;> rw [e]
  · exact raise s _
  · rfl

end SameBusLog

/-- A phase of `read_frame` leaves BUSLOG as it was, or is F8 or F12 and appends one entry (R194 to R196). -/
theorem fcoStep_busLog {a b : Bool} (e : s.fcoStep a b = .next t) :
    SameBusLog s t ∨ ((s.phase = .f8 ∨ s.phase = .f12) ∧ ∃ entry, t.busLog = s.busLog ++ [entry]) := by
  cases hp : s.phase with
  | f8 => exact next_inj.1 ((fcoStep_f8 a b hp).symm.trans e) ▸ .inr ⟨.inl rfl, _, rfl⟩
  | f12 => exact next_inj.1 ((fcoStep_f12 a b hp).symm.trans e) ▸ .inr ⟨.inr rfl, _, rfl⟩
  | idle => exact .inl (next_inj.1 ((fcoStep_idle a b hp).symm.trans e) ▸ rfl)
  | f1 buffer length =>
    obtain ⟨-, e'⟩ | ⟨-, -, e'⟩ | ⟨-, d, -, e'⟩ := fcoStep_f1 a b hp <;> rw [e'] at e <;> cases e
    · exact .inl (.raise s _)
    · exact .inl (.checkCall ..)
  | f2 =>
    obtain ⟨-, e'⟩ | ⟨d, -, e'⟩ := fcoStep_f2 a b hp <;> rw [e'] at e <;> cases e
    exact .inl (.orFault (fun _ => .loadProgram) _)
  | f3 => exact .inl (next_inj.1 ((fcoStep_f3 a b hp).symm.trans e) ▸ .orHold (fun _ => .claimChannel) _)
  | f4 => exact .inl (next_inj.1 ((fcoStep_f4 a b hp).symm.trans e) ▸ rfl)
  | f5 => exact .inl (next_inj.1 ((fcoStep_f5 a b hp).symm.trans e) ▸ SameBusLog.start s)
  | f6 => exact .inl (next_inj.1 ((fcoStep_f6 a b hp).symm.trans e) ▸ .orFault (fun _ => .enable) _)
  | f7 =>
    obtain ⟨-, e'⟩ | ⟨d, -, e'⟩ := fcoStep_f7 a b hp <;> rw [e'] at e <;> cases e
    exact .inl (.orHold (fun _ => .pushParameter) _)
  | f9 =>
    rw [fcoStep_f9 a b hp, next_inj] at e
    split at e <;> subst e <;> exact .inl rfl
  | f10 => exact .inl (next_inj.1 ((fcoStep_f10 a b hp).symm.trans e) ▸ rfl)
  | f11 => exact .inl (next_inj.1 ((fcoStep_f11 a b hp).symm.trans e) ▸ rfl)

/-- Settles O45: of the steps of all agents only the streaming writes of FCO touch BUSLOG. -/
theorem busLogGrowsOnlyAtF8AndF12 : Obligations.BusLogGrowsOnlyAtF8AndF12 := by
  intro s t e
  obtain ⟨-, e⟩ | ⟨-, e⟩ | ⟨a, b, hm, e⟩ | ⟨ev, -, rfl⟩ | ⟨call, -, -, rfl⟩ := step_cases e
  · exact .inl (SameBusLog.tpxStep (s := s.consume) e)
  · exact .inl (SameBusLog.bteStep (s := s.consume) e)
  · exact (fcoStep_busLog (s := s.consume) e).imp_right fun ⟨hp, hentry⟩ => ⟨⟨a, b, hm⟩, hp, hentry⟩
  · exact .inl (SameBusLog.senStep s.consume ev)
  · exact .inl (SameBusLog.callIdle s.consume call)

end Sys2Proof.Machine
end

