-- ==== Sys2Proof/Proofs/SensorContract.lean ====
section
/-! PROOFS. SEN's events: which pins each of them leaves, when one brings SEN to rest, and what an event that keeps the
waveform contract found (spec/43_sensor_signal_contract.md sections 1 and 2, spec/10_state.md section 1). -/

namespace Sys2Proof.Machine

variable {s t : State} {d : Session} {e : SenEvent} {sig : Signal}

/-! ### The pins after an event -/

/-- The pin of the signal driven is at that signal's level (R220). -/
theorem drivenPins_self (p : Params) (c : SensorConfig) (sig : Signal) (active : Bool)
    (pins : Vector (Option Bool) 32) :
    (drivenPins p c sig active pins)[(c.pin sig).toNat]'((c.pin sig).isLt) = some (signalLevel p sig active) :=
  Vector.getElem_set_self (c.pin sig).isLt

/-- Every other pin is left. -/
theorem drivenPins_of_ne (p : Params) {c : SensorConfig} (active : Bool) (pins : Vector (Option Bool) 32) {j : Nat}
    (hj : j < 32) (hne : j ≠ (c.pin sig).toNat) : (drivenPins p c sig active pins)[j] = pins[j] :=
  Vector.getElem_set_ne (c.pin sig).isLt hj hne.symm

/-- Data driven together leaves every pin that is no data line (R220). -/
theorem dataPins_of_not_dataPin {c : SensorConfig} (v : Byte) (pins : Vector (Option Bool) 32) {j : Nat} (hj : j < 32)
    (h : c.isDataPin j = false) : (dataPins c v pins)[j] = pins[j] := by
  simp [dataPins, h]

/-- Data released together leaves the data lines without a level, and every other pin as it was (R221). -/
theorem dataRelease_getElem (c : SensorConfig) (pins : Vector (Option Bool) 32) {j : Nat} (hj : j < 32) :
    (dataRelease c pins)[j] = if c.isDataPin j then none else pins[j] := by
  simp [dataRelease]

/-- Active is the signal's active level, inactive the other one (R9). -/
theorem signalLevel_eq (p : Params) (sig : Signal) (active : Bool) :
    signalLevel p sig active = (p.active sig == active) := by
  cases active <;> simp [signalLevel]

theorem exists_signal_iff {P : Signal → Prop} : (∃ sig, P sig) ↔ P .vsync ∨ P .hsync ∨ P .pclk := by
  constructor
  · rintro ⟨sig, h⟩
    cases sig <;> simp [h]
  · rintro (h | h | h) <;> exact ⟨_, h⟩

/-- The other roles of a pin: another signal's, or a data line's where the event is about a signal (R22). -/
theorem otherRole_iff (c : SensorConfig) (e : SenEvent) (j : Nat) :
    c.otherRole e j = true ↔
      (∃ sig, e.signal ≠ some sig ∧ (c.pin sig).toNat = j) ∨ (e.signal.isSome = true ∧ c.isDataPin j = true) := by
  simp [SensorConfig.otherRole, exists_signal_iff]

/-- Where the event moves no other line, a pin with another role is left (R22). -/
theorem pinsAfter_of_otherRole (h : s.movesAnotherLine d e = false) {j : Nat} (hj : j < 32)
    (hrole : d.config.otherRole e j = true) : (s.pinsAfter d e)[j] = s.pins[j] := by
  by_contra hne
  have := (movesAnotherLine_false s d e).1 h j hj (by simpa [hj] using hne)
  simp [this] at hrole

/-! ### The signals after an event -/

/-- A signal that is driven is at the level it is driven to (R220). -/
theorem signalIs_senStep_drive (hs : s.session = some d) (sig : Signal) (active : Bool) :
    (s.senStep (.drive sig active)).signalIs d.config sig active = true := by
  rw [senStep_of_session hs]
  exact decide_eq_true (drivenPins_self s.params d.config sig active s.pins)

/-- An event that moves no other line leaves the signals it is not about (R22). -/
theorem signalIs_senStep_other (hs : s.session = some d) (h : s.movesAnotherLine d e = false)
    (hsig : e.signal ≠ some sig) (active : Bool) :
    (s.senStep e).signalIs d.config sig active = s.signalIs d.config sig active := by
  have hpin := pinsAfter_of_otherRole h (d.config.pin sig).isLt ((otherRole_iff ..).2 (.inl ⟨sig, hsig, rfl⟩))
  rw [senStep_of_session hs]
  simp only [State.signalIs, hpin]

theorem syncsInactive_iff (s : State) (c : SensorConfig) :
    s.syncsInactive c = true ↔ s.signalIs c .vsync false = true ∧ s.signalIs c .hsync false = true := by
  simp [State.syncsInactive]

/-! ### Coming to rest -/

/-- An event on vsync that leaves SEN at rest brings vsync to its inactive level, from rest or once hsync is there
(R221, R222). -/
theorem afterVsync_eq_rest {active : Bool} (h : s.afterVsync d active = .rest) :
    active = false ∧ (s.senPos = .rest ∨ s.signalIs d.config .hsync false = true) := by
  unfold State.afterVsync at h
  cases hpos : s.senPos with
  | rest => simp_all [ite_eq_iff]
  | stopping => simp_all [ite_eq_iff]
  | frame n => simp [hpos, ite_eq_iff] at h
  | line n k => simp [hpos, ite_eq_iff] at h
  | broken => simp [hpos] at h

/-- An event on hsync that leaves SEN at rest brings hsync to its inactive level, from rest or once vsync is there
(R221, R222). -/
theorem afterHsync_eq_rest {active : Bool} (h : s.afterHsync d active = .rest) :
    active = false ∧ (s.senPos = .rest ∨ s.signalIs d.config .vsync false = true) := by
  obtain ⟨-, e⟩ | ⟨-, e⟩ := afterHsync_cases s d active <;> rw [e] at h
  · cases h
  unfold State.hsyncPos at h
  cases hpos : s.senPos with
  | rest => simp_all
  | stopping => simp_all [ite_eq_iff]
  | frame n => simp [hpos, ite_eq_iff] at h
  | line n k => simp [hpos, ite_eq_iff] at h
  | broken => simp [hpos] at h

/-- An event on pclk or the data pins leaves SEN at rest only where it finds it so. -/
theorem afterPclk_eq_rest {active : Bool} (h : s.afterPclk d active = .rest) : s.senPos = .rest := by
  unfold State.afterPclk at h
  split at h
  · simp [ite_eq_iff] at h
  · exact h

theorem afterPclkRelease_eq_rest (h : s.afterPclkRelease = .rest) : s.senPos = .rest := by
  unfold State.afterPclkRelease at h
  split at h
  · cases h
  · exact h

theorem afterData_eq_rest (h : s.afterData d = .rest) : s.senPos = .rest := by
  unfold State.afterData at h
  split at h
  · simp [ite_eq_iff] at h
  · exact h

/-- To stop emitting leaves SEN at rest only with both syncs inactive already (R221, R222). -/
theorem afterStop_eq_rest (h : s.afterStop d = .rest) : s.syncsInactive d.config = true := by
  unfold State.afterStop at h
  split at h
  · cases h
  · split at h
    · cases h
    · simpa [ite_eq_iff] using h

/-- An event that leaves SEN at rest has each sync inactive: it drives the sync there, or is about another line and finds
it there, SEN's rest having both syncs inactive before (R221, R222). -/
theorem sync_of_lineAfter_eq_rest (h : s.lineAfter d e = .rest)
    (hrest : s.senPos = .rest → s.syncsInactive d.config = true) (hsync : sig = .vsync ∨ sig = .hsync) :
    e = .drive sig false ∨ (e.signal ≠ some sig ∧ s.signalIs d.config sig false = true) := by
  have inactive (h : s.syncsInactive d.config = true) : s.signalIs d.config sig false = true := by
    obtain ⟨hv, hh⟩ := (syncsInactive_iff ..).1 h
    rcases hsync with rfl | rfl <;> assumption
  have atRest (hpos : s.senPos = .rest) : s.signalIs d.config sig false = true := inactive (hrest hpos)
  have hpclk : some Signal.pclk ≠ some sig := by rcases hsync with rfl | rfl <;> decide
  cases e with
  | drive sig' active =>
    cases sig' with
    | vsync =>
      obtain ⟨rfl, hpos⟩ := afterVsync_eq_rest h
      rcases hsync with rfl | rfl
      · exact .inl rfl
      · exact .inr ⟨by decide, hpos.elim atRest id⟩
    | hsync =>
      obtain ⟨rfl, hpos⟩ := afterHsync_eq_rest h
      rcases hsync with rfl | rfl
      · exact .inr ⟨by decide, hpos.elim atRest id⟩
      · exact .inl rfl
    | pclk => exact .inr ⟨hpclk, atRest (afterPclk_eq_rest h)⟩
  | data v => exact .inr ⟨nofun, atRest (afterData_eq_rest h)⟩
  | releasePclk => exact .inr ⟨hpclk, atRest (afterPclkRelease_eq_rest h)⟩
  | releaseData => exact .inr ⟨nofun, atRest (afterData_eq_rest h)⟩
  | stop => exact .inr ⟨nofun, inactive (afterStop_eq_rest h)⟩

/-- An event that leaves SEN at rest leaves vsync and hsync at their inactive levels, if rest had them there before
(R221, R222). -/
theorem syncsInactive_senStep (hs : s.session = some d) (hrest : s.senPos = .rest → s.syncsInactive d.config = true)
    (h : (s.senStep e).senPos = .rest) : (s.senStep e).syncsInactive d.config = true := by
  rw [senStep_of_session hs] at h
  obtain ⟨-, hpos⟩ | ⟨hline, hpos⟩ := senPosAfter_cases s d e
  · exact nomatch hpos.symm.trans h
  have kept (sig : Signal) (hsync : sig = .vsync ∨ sig = .hsync) :
      (s.senStep e).signalIs d.config sig false = true := by
    obtain rfl | ⟨hne, hsig⟩ := sync_of_lineAfter_eq_rest (hpos.symm.trans h) hrest hsync
    · exact signalIs_senStep_drive hs sig false
    · exact (signalIs_senStep_other hs hline hne false).trans hsig
  exact (syncsInactive_iff ..).2 ⟨kept _ (.inl rfl), kept _ (.inr rfl)⟩

/-! ### What keeps the contract -/

/-- A position that is not broken is the event's own line's, no other line having moved (R22). -/
theorem senPosAfter_ne_broken (h : s.senPosAfter d e ≠ .broken) :
    s.movesAnotherLine d e = false ∧ s.senPosAfter d e = s.lineAfter d e :=
  (senPosAfter_cases s d e).resolve_left fun ⟨_, hpos⟩ => h hpos

/-- A change of hsync that keeps the contract found pclk inactive (R224). -/
theorem pclk_of_hsyncOverPclk {c : SensorConfig} {active : Bool} (h : s.hsyncOverPclk c active = false)
    (hchange : s.signalIs c .hsync (!active) = true) : s.signalIs c .pclk false = true := by
  simpa [State.hsyncOverPclk, hchange] using h

/-- An event on hsync that keeps the contract: the position is what the lines of the frame tell, and a change found pclk
inactive (R223, R224). -/
theorem afterHsync_ne_broken {active : Bool} (h : s.afterHsync d active ≠ .broken) :
    (s.signalIs d.config .hsync (!active) = true → s.signalIs d.config .pclk false = true) ∧
      s.afterHsync d active = s.hsyncPos d active := by
  obtain ⟨hover, hpos⟩ := (afterHsync_cases s d active).resolve_left fun ⟨_, hpos⟩ => h hpos
  exact ⟨pclk_of_hsyncOverPclk hover, hpos⟩

/-- In a frame a line begins with hsync's I->A change (R223). -/
theorem line_begins {n : Nat} (hpos : s.senPos = .frame n) (h : s.hsyncPos d true ≠ .broken) :
    s.signalIs d.config .hsync false = true ∧ s.hsyncPos d true = .line n 0 := by
  unfold State.hsyncPos at h ⊢
  simp_all

/-- A line ends with hsync inactive over an inactive pclk, a live line with all its border and live strobes (R223,
R224, R227). -/
theorem line_ends {n k : Nat} (hpos : s.senPos = .line n k) (h : s.hsyncPos d false ≠ .broken) :
    s.signalIs d.config .pclk false = true ∧ s.hsyncPos d false = .frame (n + 1) ∧ d.lineMayEnd n k = true := by
  unfold State.hsyncPos at h ⊢
  simp_all

/-- When a live line may end (R223, R227). -/
theorem lineMayEnd_iff (d : Session) (n k : Nat) :
    d.lineMayEnd n k = true ↔ (d.mode.borderPx ≤ n → n < d.mode.borderPx + d.config.height →
      (d.mode.borderPx + d.config.width) * d.mode.ppc ≤ k) := by
  simp only [Session.lineMayEnd, Session.liveLine, Bool.or_eq_true, Bool.not_eq_true', Bool.and_eq_false_iff,
    decide_eq_true_eq, decide_eq_false_iff_not]
  tauto

/-- An event on a signal that moves no other line and changes a pin has that pin to itself (R22). -/
theorem alone_of_moves {active : Bool} (h : s.movesAnotherLine d (.drive sig active) = false)
    (hmoves : s.pinsAfter d (.drive sig active) ≠ s.pins) :
    (∀ sig', sig' ≠ sig → d.config.pin sig' ≠ d.config.pin sig) ∧
      d.config.isDataPin (d.config.pin sig).toNat = false := by
  have hrole : ¬ d.config.otherRole (.drive sig active) (d.config.pin sig).toNat = true := fun hrole => by
    refine hmoves (Vector.ext fun j hj => ?_)
    by_cases hpin : j = (d.config.pin sig).toNat
    · subst hpin
      exact pinsAfter_of_otherRole h hj hrole
    · exact drivenPins_of_ne s.params active s.pins hj hpin
  rw [otherRole_iff] at hrole
  refine ⟨fun sig' hne hpin => hrole (.inl ⟨sig', ?_, congrArg _ hpin⟩), ?_⟩
  · simpa [SenEvent.signal] using hne.symm
  · simpa [SenEvent.signal] using fun hdata => hrole (.inr ⟨rfl, hdata⟩)

/-! ### The statements -/

/-- SEN's move is its event on the state with the move taken (R7, R220). -/
theorem step_sen (hp : s.params.admitted = true) (hm : s.nextMove = .sen e) :
    step s = .next (s.consume.senStep e) := by
  rw [step_eq s hp, hm]
  rfl

/-- What SEN's step leaves on the pins and records as its position; taking the move touches neither. -/
theorem step_sen_leaves (hs : s.session = some d) (hstep : step s = .next t) (hm : s.nextMove = .sen e) :
    t.pins = s.pinsAfter d e ∧ t.senPos = s.senPosAfter d e := by
  obtain rfl := next_inj.1 ((step_sen (step_next hstep).1 hm).symm.trans hstep)
  rw [senStep_of_session (s := s.consume) hs]
  exact ⟨rfl, rfl⟩

/-- Settles O41: SEN's step is its event on the pins, event by event, and rest is entered with both syncs inactive. -/
theorem sensorDrivesOnlyItsPins : Obligations.SensorDrivesOnlyItsPins := by
  intro s d e hp hm hs
  have hstep := step_sen hp hm
  obtain ⟨hpins, -⟩ := step_sen_leaves hs hstep hm
  refine ⟨_, hstep, senStep_eq s.consume e, ?drive, ?releasePclk, ?data, ?releaseData, ?stop,
    syncsInactive_senStep (s := s.consume) hs⟩ <;> rw [hpins]
  case drive =>
    rintro sig active rfl
    refine ⟨?_, fun j hj => drivenPins_of_ne s.params active s.pins hj⟩
    rw [← signalLevel_eq]
    exact drivenPins_self s.params d.config sig active s.pins
  case releasePclk =>
    rintro rfl
    exact ⟨Vector.getElem_set_self _, fun j hj hne => Vector.getElem_set_ne d.config.pclkPin.isLt hj hne.symm⟩
  case data =>
    rintro v (rfl | rfl) j hj hpin
    · exact dataPins_of_not_dataPin v s.pins hj hpin
    · exact (dataRelease_getElem d.config s.pins hj).trans (by simp [hpin])
  case releaseData =>
    rintro rfl j hj hpin
    exact (dataRelease_getElem d.config s.pins hj).trans (if_pos hpin)
  case stop =>
    rintro rfl
    rfl

/-- A step of SEN that leaves the contract unbroken moves no other line, and its position is the event's own line's. -/
theorem step_sen_kept (hs : s.session = some d) (hstep : step s = .next t) (hm : s.nextMove = .sen e)
    (hkept : t.senPos ≠ .broken) :
    t.pins = s.pinsAfter d e ∧ s.movesAnotherLine d e = false ∧ t.senPos = s.lineAfter d e := by
  obtain ⟨hpins, hpos⟩ := step_sen_leaves hs hstep hm
  obtain ⟨hline, hafter⟩ := senPosAfter_ne_broken (hpos ▸ hkept)
  exact ⟨hpins, hline, hpos.trans hafter⟩

/-- A step of SEN on hsync that leaves the contract unbroken: a change found pclk inactive, and the position is what the
lines of the frame tell (R223, R224). -/
theorem step_hsync_kept {active : Bool} (hs : s.session = some d) (hstep : step s = .next t)
    (hm : s.nextMove = .sen (.drive .hsync active)) (hkept : t.senPos ≠ .broken) :
    (s.signalIs d.config .hsync (!active) = true → s.signalIs d.config .pclk false = true) ∧
      t.senPos = s.hsyncPos d active := by
  obtain ⟨-, -, hpos⟩ := step_sen_kept hs hstep hm hkept
  obtain ⟨hpclk, hafter⟩ := afterHsync_ne_broken (hpos ▸ hkept)
  exact ⟨hpclk, hpos.trans hafter⟩

/-- Settles O43: a position that is not broken tells what the event found and that it had its pin to itself. -/
theorem contractBindsSensorEvents : Obligations.ContractBindsSensorEvents := by
  intro s t d n k hs hstep hkept
  refine ⟨fun active hm => (step_hsync_kept hs hstep hm hkept).1, fun hm hframe => ?begins, fun hm hline => ?ends,
    fun sig active hm hmoves => ?alone⟩
  case begins =>
    obtain ⟨hpclk, hpos⟩ := step_hsync_kept hs hstep hm hkept
    obtain ⟨hhsync, hbegins⟩ := line_begins hframe (hpos ▸ hkept)
    exact ⟨hpclk hhsync, hhsync, hpos.trans hbegins⟩
  case ends =>
    obtain ⟨-, hpos⟩ := step_hsync_kept hs hstep hm hkept
    obtain ⟨hpclk, hends, hmay⟩ := line_ends hline (hpos ▸ hkept)
    exact ⟨hpclk, hpos.trans hends, (lineMayEnd_iff d n k).1 hmay⟩
  case alone =>
    obtain ⟨hpins, hline, -⟩ := step_sen_kept hs hstep hm hkept
    exact alone_of_moves hline (hpins ▸ hmoves)

end Sys2Proof.Machine
end

