-- ==== Sys2Proof/Proofs/FaultRecord.lean ====
section
/-! PROOFS. The record of faults: no agent takes a fault out of it, and TPX puts none into it while it runs SYN's
program (spec/60_exceptions.md sections 1 and 3). -/

namespace Sys2Proof.Machine

variable {s t : State}

/-! ### What an instruction can raise -/

/-- The shift leaves the record as it was, or its pins do not all exist (R95, R128). -/
theorem shin_faults (s : State) (i : Instr) (base : PinIndex) (n : Nat) :
    (s.shin i base n).faults = s.faults ∨
      (shinInRange base n = false ∧ ∃ f, s.shin i base n = s.raise f) := by
  obtain ⟨hrange, e⟩ | ⟨-, -, e⟩ | ⟨-, -, -, e⟩ | ⟨-, -, e⟩ := shin_cases s i base n
  · exact .inr ⟨hrange, _, e⟩
  all_goals exact .inl (by simp [e])

/-- An instruction leaves the record as it was, or raises one fault: it is a SHIN whose pins do not all exist, or a JNZ
of a counter nothing has written (R95, R248). -/
theorem exec_faults {i : Instr} (e : exec i s = .next t) :
    t.faults = s.faults ∨
      ((i.wf = false ∨ ∃ c target, i = .jnz c target ∧ s.counter c = none) ∧ ∃ f, t = s.raise f) := by
  cases i with
  | wait level pin => obtain ⟨-, rfl⟩ | ⟨-, rfl⟩ := exec_wait_cases e <;> exact .inl rfl
  | setc c imm => exact .inl (next_inj.1 e ▸ State.setCounter_faults ..)
  | latch c =>
    obtain ⟨v, rest, -, rfl⟩ | ⟨-, v, -, rfl⟩ | ⟨-, -, rfl⟩ := exec_latch_cases e
    · exact .inl (State.setCounter_faults ..)
    · exact .inl (State.setCounter_faults ..)
    · exact .inl rfl
  | jnz c target =>
    obtain ⟨hc, rfl⟩ | ⟨v, -, -, rfl⟩ | ⟨v, -, -, rfl⟩ := exec_jnz_cases e
    · exact .inr ⟨.inr ⟨c, target, rfl, hc⟩, _, rfl⟩
    · exact .inl (State.setCounter_faults ..)
    · exact .inl (State.setCounter_faults ..)
  | shin1 base | shin4 base | shin8 base =>
    exact next_inj.1 e ▸ (shin_faults ..).imp_right fun ⟨hrange, hf⟩ => ⟨.inl hrange, hf⟩

/-! ### No agent clears a fault -/

/-- What was recorded stays recorded. -/
def KeepsFaults (s t : State) : Prop := s.faults ⊆ t.faults

namespace KeepsFaults

theorem of_eq (h : t.faults = s.faults) : KeepsFaults s t := fun _ hf => h ▸ hf

theorem raise (s : State) (f : Fault) : KeepsFaults s (s.raise f) :=
  fun g hg => (State.mem_raise_faults s f g).2 (.inr hg)

theorem tpxStep (e : s.tpxStep = .next t) : KeepsFaults s t := by
  obtain ⟨-, e'⟩ | ⟨-, f, -, e'⟩ | ⟨-, i, u, -, hu, -, e'⟩ := tpxStep_cases s <;>
    obtain rfl := next_inj.1 (e'.symm.trans e)
  · exact of_eq rfl
  · exact raise s f
  · obtain h | ⟨-, f, rfl⟩ := exec_faults hu
    · exact of_eq h
    · exact raise s f

theorem bteStep (e : s.bteStep = .next t) : KeepsFaults s t := by
  obtain ⟨-, e'⟩ | ⟨-, -, b, rest, -, ⟨-, e'⟩ | ⟨-, e'⟩⟩ := bteStep_cases s <;> rw [e'] at e <;> cases e <;>
    exact of_eq rfl

theorem senStep (s : State) (e : SenEvent) : KeepsFaults s (s.senStep e) := by
  rw [senStep_eq]
  exact of_eq rfl

/-! The operations of TPX and BTE that FCO and HOST call: where they answer, the record is as it was. -/

theorem loadProgram {p : TimingProgram} (e : s.loadProgram p = .ok t) : KeepsFaults s t := by
  obtain ⟨-, e'⟩ | ⟨-, o, -, e'⟩ | ⟨-, -, e'⟩ := loadProgram_cases s p <;> rw [e'] at e <;> cases e
  exact of_eq rfl

theorem enable {b : Bool} (e : s.enable b = .ok t) : KeepsFaults s t := by
  obtain ⟨-, -, e'⟩ | ⟨-, e'⟩ := enable_cases s b <;> rw [e'] at e <;> cases e
  exact of_eq rfl

theorem pushParameter {v : Count} (e : s.pushParameter v = some t) : KeepsFaults s t := by
  obtain ⟨-, e'⟩ | ⟨-, e'⟩ := pushParameter_cases s v <;> rw [e'] at e <;> cases e
  exact of_eq rfl

theorem claimChannel {free : Bool} (e : s.claimChannel free = some t) : KeepsFaults s t := by
  cases free <;> cases e
  exact of_eq rfl

theorem start (s : State) : KeepsFaults s s.start := of_eq (by rw [start_eq])

/-! The calls of HOST. -/

theorem collaborate (s : State) (op : Collaborator) : KeepsFaults s (s.collaborate op) := by
  obtain ⟨f, e⟩ | e | ⟨u, e, hu⟩ := collaborate_cases s op <;> rw [e]
  · exact raise s f
  · exact of_eq rfl
  · show KeepsFaults s u
    obtain ⟨p, -, hu⟩ | ⟨b, -, hu⟩ | ⟨v, -, hu⟩ | ⟨free, -, hu⟩ | ⟨dst, count, -, rfl⟩ | ⟨-, rfl⟩ | ⟨-, -, rfl⟩ |
      ⟨-, rfl⟩ := hu
    · exact loadProgram hu
    · exact enable hu
    · exact pushParameter hu
    · exact claimChannel hu
    · exact of_eq rfl
    · exact start s
    · exact of_eq rfl
    · exact of_eq rfl

/-- A failing `init` may add its fault to the record, and a successful one leaves it (R246, R256). -/
theorem init (s : State) (r : ConfigRequest) (m : Middle) : KeepsFaults s (s.init r m) := by
  obtain ⟨why, e⟩ | ⟨f, e⟩ | ⟨-, -, -, -, ⟨f, -, e⟩ | ⟨p, -, e⟩⟩ := init_cases s r m <;> rw [e]
  · exact of_eq rfl
  · exact raise s f
  · exact raise (s.sensorIdle r.stored) f
  · obtain ⟨f, e'⟩ | ⟨-, -, e'⟩ :=
      initLoad_cases { s.sensorIdle r.stored with session := some ⟨r.stored, r.resolved, p⟩ } p <;> rw [e']
    · exact raise { s.sensorIdle r.stored with session := some ⟨r.stored, r.resolved, p⟩ } f
    · exact of_eq rfl

theorem callIdle (s : State) (call : HostCall) : KeepsFaults s (s.callIdle call) := by
  cases call with
  | init r m => exact init s r m
  | readFrame buffer length => exact of_eq rfl
  | deinit => exact of_eq rfl
  | setCoarseIntegration lines => exact of_eq rfl
  | collaborator op => exact collaborate s op

/-! The phases of `read_frame`. -/

theorem orFault {r : Except Fault State} (hr : ∀ u, r = .ok u → KeepsFaults s u) (next : Phase) :
    KeepsFaults s (s.orFault r next) := by
  obtain ⟨f, -, e⟩ | ⟨u, hu, e⟩ := orFault_cases s r next <;> rw [e]
  · exact raise s f
  · exact hr u hu

theorem orHold {r : Option State} (hr : ∀ u, r = some u → KeepsFaults s u) (next : Phase) :
    KeepsFaults s (s.orHold r next) := by
  obtain ⟨-, e⟩ | ⟨u, hu, e⟩ := orHold_cases s r next <;> rw [e]
  · exact of_eq rfl
  · exact hr u hu

theorem checkCall (s : State) (d : Session) (buffer length : Nat) : KeepsFaults s (s.checkCall d buffer length) := by
  obtain ⟨-, e⟩ | ⟨-, e⟩ := checkCall_cases s d buffer length <;> rw [e]
  · exact raise s _
  · exact of_eq rfl

theorem fcoStep {a b : Bool} (e : s.fcoStep a b = .next t) : KeepsFaults s t := by
  cases hp : s.phase with
  | idle => exact next_inj.1 ((fcoStep_idle a b hp).symm.trans e) ▸ of_eq rfl
  | f1 buffer length =>
    obtain ⟨-, e'⟩ | ⟨-, -, e'⟩ | ⟨-, d, -, e'⟩ := fcoStep_f1 a b hp <;> rw [e'] at e <;> cases e
    · exact raise s _
    · exact checkCall ..
  | f2 =>
    obtain ⟨-, e'⟩ | ⟨d, -, e'⟩ := fcoStep_f2 a b hp <;> rw [e'] at e <;> cases e
    exact orFault (fun _ => loadProgram) _
  | f3 => exact next_inj.1 ((fcoStep_f3 a b hp).symm.trans e) ▸ orHold (fun _ => claimChannel) _
  | f4 => exact next_inj.1 ((fcoStep_f4 a b hp).symm.trans e) ▸ of_eq rfl
  | f5 => exact next_inj.1 ((fcoStep_f5 a b hp).symm.trans e) ▸ start s
  | f6 => exact next_inj.1 ((fcoStep_f6 a b hp).symm.trans e) ▸ orFault (fun _ => enable) _
  | f7 =>
    obtain ⟨-, e'⟩ | ⟨d, -, e'⟩ := fcoStep_f7 a b hp <;> rw [e'] at e <;> cases e
    exact orHold (fun _ => pushParameter) _
  | f8 => exact next_inj.1 ((fcoStep_f8 a b hp).symm.trans e) ▸ of_eq rfl
  | f9 =>
    rw [fcoStep_f9 a b hp, next_inj] at e
    split at e <;> subst e <;> exact of_eq rfl
  | f10 => exact next_inj.1 ((fcoStep_f10 a b hp).symm.trans e) ▸ of_eq rfl
  | f11 => exact next_inj.1 ((fcoStep_f11 a b hp).symm.trans e) ▸ of_eq rfl
  | f12 => exact next_inj.1 ((fcoStep_f12 a b hp).symm.trans e) ▸ of_eq rfl

end KeepsFaults

/-- Settles O44, agent by agent: every operation leaves the record as it was or raises a fault, and raising one only
adds to it. -/
theorem faultsNeverCleared : Obligations.FaultsNeverCleared := by
  intro s t e f hf
  have hkeeps : KeepsFaults s.consume t := by
    obtain ⟨-, e⟩ | ⟨-, e⟩ | ⟨a, b, -, e⟩ | ⟨ev, -, rfl⟩ | ⟨call, -, -, rfl⟩ := step_cases e
    · exact .tpxStep e
    · exact .bteStep e
    · exact .fcoStep e
    · exact .senStep _ ev
    · exact .callIdle _ call
  exact hkeeps hf

/-! ### TPX in SYN's program -/

/-- What a fetch answers is legal as a term (R98, R121). -/
theorem fetch_wf {i : Instr} (hf : s.fetch = .ok i) : i.wf = true := by
  obtain ⟨-, e⟩ | ⟨w, -, -, e⟩ | ⟨w, j, -, hj, e⟩ := fetch_cases s <;> rw [e] at hf <;> cases hf
  exact (encodeInvertsDecode w i ((instrOf_eq_some ..).1 hj).1).2

theorem shinOf_ne_jnz (base : PinIndex) (bits : Nat) (c : Counter) (target : Slot) :
    shinOf base bits ≠ .jnz c target := by
  unfold shinOf
  split_ifs <;> exact nofun

/-- A JNZ of SYN's program stands behind the first write of its counter: slot 2 writes C1 and slot 6 writes C0
(R156). -/
theorem counter_of_synth_jnz (p : Params) (x : SynthInput) {c : Counter} {target : Slot} :
    ∀ {k : Nat}, (x.instrs p)[k]? = some (.jnz c target) → (c = .c1 ∧ 3 ≤ k) ∨ (c = .c0 ∧ 7 ≤ k)
  | 5, h | 11, h => .inl ⟨(Instr.jnz.inj (Option.some.inj h)).1.symm, by decide⟩
  | 15, h => .inr ⟨(Instr.jnz.inj (Option.some.inj h)).1.symm, by decide⟩
  | 13, h => absurd (Option.some.inj h) (shinOf_ne_jnz _ _ c target)
  | 0, h | 1, h | 2, h | 3, h | 4, h | 6, h | 7, h | 8, h | 9, h | 10, h | 12, h | 14, h | 16, h => nomatch h
  | _ + 17, h => nomatch h

namespace CaptureInv

variable {d : Session}

/-- The slots hold SYN's instructions (R31, R156). -/
theorem slot (h : CaptureInv s d) : s.slot = (d.synthInput.instrs s.params)[s.pc.toNat]?.map encode := by
  obtain ⟨-, -, hheld⟩ := synth_eq_ok h.sound.held
  simp [State.slot, h.program, hheld]

/-- The fetch answers an instruction: `pc` is inside the program, whose words are legal (R121, R249). -/
theorem fetch_ok (h : CaptureInv s d) : ∃ i, s.fetch = .ok i := by
  obtain ⟨hs, -⟩ | ⟨w, hs, hillegal, -⟩ | ⟨w, i, -, -, e⟩ := fetch_cases s
  · have hin : s.pc.toNat < (d.synthInput.instrs s.params).length := Nat.lt_succ_of_le h.inside
    simp [h.slot, hin] at hs
  · have hlegal := legalSlot_image (h.sound.offence_held h.admitted h.room) s.pc.toFin
    rw [h.offset, ← h.program] at hlegal
    replace hlegal : legalSlot s.params s.slot = true := hlegal
    simp [hs, legalSlot, hillegal] at hlegal
  · exact ⟨i, e⟩

/-- The counter of a JNZ that TPX fetches is written (R162, R248). -/
theorem counter_written (h : CaptureInv s d) {c : Counter} {target : Slot} (hf : s.fetch = .ok (.jnz c target)) :
    s.counter c ≠ none := by
  obtain ⟨rfl, hk⟩ | ⟨rfl, hk⟩ := counter_of_synth_jnz _ _ (h.fetched hf)
  · exact Option.isSome_iff_ne_none.1 (h.c1Written hk)
  · exact Option.isSome_iff_ne_none.1 (h.c0Written hk)

/-- A step of TPX in SYN's program raises nothing (R247 to R249). -/
theorem tpxStep_faults (h : CaptureInv s d) : ∃ t, s.tpxStep = .next t ∧ t.faults = s.faults := by
  obtain ⟨i, hi⟩ := h.fetch_ok
  obtain ⟨-, e⟩ | ⟨-, f, hf, -⟩ | ⟨-, j, t, hf, hexec, -, e⟩ := tpxStep_cases s
  · exact ⟨s, e, rfl⟩
  · exact absurd (hf.symm.trans hi) nofun
  · refine ⟨t, e, (exec_faults hexec).resolve_right ?_⟩
    rintro ⟨hwf | ⟨c, target, rfl, hc⟩, -⟩
    · exact absurd ((fetch_wf hf).symm.trans hwf) nofun
    · exact h.counter_written hf hc

end CaptureInv

/-- Settles O57: the fetch answers a legal instruction, and a JNZ finds its counter written. -/
theorem synthProgramNeverFaults : Obligations.SynthProgramNeverFaults := by
  intro s d h hm
  rw [step_tpx h.admitted hm]
  exact h.consume.tpxStep_faults

end Sys2Proof.Machine
end

