-- ==== Sys2Proof/Proofs/RefusedLoads.lean ====
section
/-! PROOFS. Programs `load_program` refuses: the slot it reports, and the executors that SYN's program does not fit
(spec/60_exceptions.md sections 3 and 6). -/

namespace Sys2Proof.Machine

/-! ### The slot reported -/

/-- Of the slots that offend the lowest is reported (R255). -/
theorem firstOffence_of_lowest {q : Params} {len k : Nat} {w : Word} {ws : List Word} (hw : ws[k]? = some w)
    (hbad : wordAllowed q len w = false) (hlow : ∀ j v, j < k → ws[j]? = some v → wordAllowed q len v = true) :
    firstOffence q len 0 ws = some (k, w) := by
  cases h : firstOffence q len 0 ws with
  | none => exact absurd ((firstOffence_none ..).1 h w (List.mem_of_getElem? hw)) (by simp [hbad])
  | some o =>
    obtain ⟨j, v⟩ := o
    obtain ⟨-, hv, hvbad, hbelow⟩ := firstOffence_some q len 0 j v ws h
    obtain hlt | rfl | hgt := lt_trichotomy j k
    · exact absurd ((hlow j v hlt hv).symm.trans hvbad) nofun
    · rw [Option.some.inj (hw.symm.trans hv)]
    · exact absurd ((hbelow k hgt w hw).symm.trans hbad) nofun

/-- Settles O18: both offences make the word one that is not allowed. -/
theorem illegalProgramNamesLowestSlot : Obligations.IllegalProgramNamesLowestSlot := by
  intro s p k w hen hw hoffends hlow
  have hbad : wordAllowed s.params p.prog.length w = false := by
    refine Bool.eq_false_iff.2 fun hallowed => ?_
    obtain ⟨i, hi, htarget⟩ := wordAllowed_iff.1 hallowed
    obtain ⟨hdecode, hfits⟩ := (instrOf_eq_some ..).1 hi
    obtain hillegal | ⟨c, target, hjnz, hpast⟩ := hoffends
    · exact hillegal i hdecode hfits
    · exact hpast.not_gt (htarget c target (Except.ok.inj (hdecode.symm.trans hjnz)))
  have hlowest := firstOffence_of_lowest hw hbad fun j v hj hv =>
    let ⟨i, hdecode, hfits, htarget⟩ := hlow j v hj hv
    wordAllowed_iff.2 ⟨i, (instrOf_eq_some ..).2 ⟨hdecode, hfits⟩, htarget⟩
  simp [State.loadProgram, hen, TimingProgram.offence, hlowest]

/-! ### SYN's program -/

variable {q : Params} {x : SynthInput} {prog : TimingProgram}

/-- What SYN builds passes the checks on an executor it fits (R157, R247). -/
theorem offence_of_synth (hq : q.admitted = true) (hppc : 0 < x.ppc) (hsynth : synth q x = .ok prog)
    (hroom : q.runsSynth = true) : prog.offence q = none := by
  obtain ⟨hpins, hinput, rfl⟩ := synth_eq_ok hsynth
  obtain ⟨-, -, hn, -⟩ := (admitted_iff q).1 hq
  obtain ⟨hw, -, hslots⟩ := (runsSynth_iff q).1 hroom
  obtain ⟨-, -, -, -, hlines⟩ := (pinFault_none ..).1 hpins
  obtain ⟨hbits, -, -⟩ := (inputFault_none ..).1 hinput
  have hrange : shinInRange (BitVec.ofNat 5 x.dataPinBase) x.dataBits = true :=
    decide_eq_true (by rw [BitVec.toNat_ofNat]; omega)
  refine (offence_none ..).2 ⟨fun w hword => wordAllowed_iff.2 ?_, by simp [SynthInput.instrs],
    by simpa [SynthInput.instrs] using hslots, show 6 ≤ 16 by decide, by simp [SynthInput.instrs]⟩
  obtain ⟨i, hi, rfl⟩ := List.mem_map.1 hword
  refine ⟨i, (instrOf_eq_some ..).2 ⟨decodeInvertsEncode i (instrs_wf q hbits hrange hi),
    by rw [hw]; exact (encode i).isLt, instrs_fit hroom hpins hinput hppc hi⟩, fun c target hjnz => ?_⟩
  obtain ⟨k, hk, hget⟩ := List.mem_iff_getElem.1 hi
  have hback := (synthSlot_of_getElem? q _ (List.getElem?_eq_some_iff.2 ⟨hk, hget⟩)).target_le hjnz
  rw [List.length_map]
  exact hback.trans_lt hk

/-- Where what SYN builds passes the checks the executor fits it: the JNZ of slot 5 has a set bit 15 and counts in C1,
and the program takes 17 slots (R99, R157). -/
theorem runsSynth_of_offence (hq : q.admitted = true) (hsynth : synth q x = .ok prog) (h : prog.offence q = none) :
    q.runsSynth = true := by
  obtain ⟨-, -, rfl⟩ := synth_eq_ok hsynth
  obtain ⟨hw, -, -, hn, -⟩ := (admitted_iff q).1 hq
  obtain ⟨hwords, -, hslots, -⟩ := (offence_none ..).1 h
  obtain ⟨i, hi, -⟩ := wordAllowed_iff.1 (hwords (encode (.jnz .c1 3)) (by simp [SynthInput.instrs]))
  obtain ⟨hdecode, hbits, hfits⟩ := (instrOf_eq_some ..).1 hi
  obtain rfl : Instr.jnz .c1 3 = i := Except.ok.inj ((decodeInvertsEncode _ rfl).symm.trans hdecode)
  have hctr : 1 < q.nCtr := by
    obtain ⟨hc, -⟩ := (Bool.and_eq_true_iff ..).1 hfits
    exact of_decide_eq_true hc
  have hwidth : 15 < q.instrW := (Nat.pow_lt_pow_iff_right (a := 2) (by decide)).1 (lt_of_le_of_lt (by decide) hbits)
  exact (runsSynth_iff q).2 ⟨by omega, by omega, hslots⟩

/-- Settles O24: the checks pass on exactly the executors SYN's program fits. -/
theorem synthProgramAlwaysLoads : Obligations.SynthProgramAlwaysLoads := by
  intro x prog s hq hppc hsynth hen
  obtain ⟨h, -⟩ | ⟨-, o, ho, e⟩ | ⟨-, ho, e⟩ := loadProgram_cases s prog
  · exact absurd (hen.symm.trans h) nofun
  · exact ⟨fun hroom => absurd (ho.symm.trans (offence_of_synth hq hppc hsynth hroom)) nofun, fun _ => ⟨o, e⟩⟩
  · exact ⟨fun _ => e, fun hroom => absurd ((runsSynth_of_offence hq hsynth ho).symm.trans hroom) nofun⟩

end Sys2Proof.Machine
end

