-- ==== Sys2Proof/Proofs/FailedInit.lean ====
section
/-! PROOFS. How `init` fails: the checks I1 to I3 and the middle I4, in their order (spec/60_exceptions.md sections 2
and 3, spec/42_orchestrator.md section 2). -/

namespace Sys2Proof.Machine

variable {s : State} {r : ConfigRequest} {m : Middle}

/-! ### The checks in their order -/

theorem init_of_no_preset (h : (r.width, r.height) ∉ s.params.presets) :
    s.init r m = s.initFails (.error .unsupportedResolution) := if_pos h

theorem init_of_bad_width (hpreset : (r.width, r.height) ∈ s.params.presets) (h : r.dataBits ∉ Config.dataWidths) :
    s.init r m = s.initFails (.error .unsupportedBitDepth) := by
  rw [State.init, if_neg (not_not.2 hpreset), if_pos h]

theorem init_of_pinFault {f : Fault} (hpreset : (r.width, r.height) ∈ s.params.presets)
    (hbits : r.dataBits ∈ Config.dataWidths) (h : r.synthInput.pinFault s.params = some f) :
    s.init r m = s.initFaults f := by
  rw [State.init, if_neg (not_not.2 hpreset), if_neg (not_not.2 hbits), h]

theorem init_of_middle_error {e : InitError} (hpreset : (r.width, r.height) ∈ s.params.presets)
    (hbits : r.dataBits ∈ Config.dataWidths) (hpins : r.synthInput.pinFault s.params = none) (h : m.error = some e) :
    s.init r m = s.initFails (.error e) := by
  rw [State.init, if_neg (not_not.2 hpreset), if_neg (not_not.2 hbits), hpins, h]

/-- An `init` where `life` is UNINIT or RELEASED is made where no operation runs (R180, R181). -/
theorem step_init (hp : s.params.admitted = true) (hm : s.nextMove = .host (.init r m)) (hphase : s.phase = .idle)
    (hq : s.pending = none) (hlife : s.life = .uninit ∨ s.life = .released) :
    step s = .next (s.consume.init r m) := by
  have hmade : s.consume.callRefused (.init r m) = none :=
    (callRefused_none ..).2 ⟨hphase, fun op hop => absurd (hq.symm.trans hop) nofun, fun _ _ _ _ => hlife⟩
  rw [step_host hp hm, State.hostStep, hmade]
  rfl

/-! ### The four failures -/

/-- Settles O26: I1 is the first check. -/
theorem initRejectsResolution : Obligations.InitRejectsResolution := by
  intro s r m hp hm hphase hq hlife hpreset
  rw [step_init hp hm hphase hq hlife, init_of_no_preset (s := s.consume) hpreset]
  rfl

/-- Settles O27: I2 is the second check. -/
theorem initRejectsBitDepth : Obligations.InitRejectsBitDepth := by
  intro s r m hp hm hphase hq hlife hpreset hbits
  have hwidth : r.dataBits ∉ Config.dataWidths := by simpa [mem_dataWidths] using hbits
  rw [step_init hp hm hphase hq hlife, init_of_bad_width (s := s.consume) hpreset hwidth]
  rfl

/-- Settles O28: a request that offends fails the pin check, which raises BadPin and nothing else. -/
theorem initRejectsBadPin : Obligations.InitRejectsBadPin := by
  intro s r m hp hm hphase hq hlife hpreset hbits hbad
  obtain hnone | ⟨field, value, hf⟩ := pinFault_cases s.params r.synthInput
  · obtain ⟨hv, hh, hk, -, hlines⟩ := (pinFault_none ..).1 hnone
    simp only [ConfigRequest.synthInput] at hv hh hk hlines
    omega
  · refine ⟨field, value, ?_⟩
    rw [step_init hp hm hphase hq hlife, init_of_pinFault (s := s.consume) hpreset (mem_dataWidths.2 hbits) hf]
    rfl

/-- Settles O29: the three checks pass, and `init` fails with the error of I4. -/
theorem initMiddleFailureBuildsNothing : Obligations.InitMiddleFailureBuildsNothing := by
  intro s r m e hp hm hphase hq hlife hpreset hbits hv hh hk hlines herror
  have hpins : r.synthInput.pinFault s.params = none :=
    (pinFault_none ..).2 ⟨hv, hh, hk, show r.dataPinBase < s.params.nPins by omega, hlines⟩
  have hmiddle : m.error = some e := by
    obtain ⟨rfl, rfl⟩ | ⟨rfl, rfl⟩ | ⟨detail, rfl, rfl⟩ := herror <;> rfl
  rw [step_init hp hm hphase hq hlife,
    init_of_middle_error (s := s.consume) hpreset (mem_dataWidths.2 hbits) hpins hmiddle]
  rfl

end Sys2Proof.Machine
end

