-- ==== Sys2Proof/Proofs/PowerOn.lean ====
section
/-! PROOFS. The state at power-on: what R271 lists, and the base cases of the two invariants
(spec/70_reset_and_hazards.md section 1). -/

namespace Sys2Proof.Machine

/-! ### What the spec lists -/

/-- No slot is loaded at power-on (R271). -/
theorem reset_imem (k : Nat) (hk : k < 32) : State.reset.imem[k] = none :=
  Vector.getElem_replicate hk

/-- Settles O50: the fields of the reset state have the values of R271. -/
theorem powerOnState : Obligations.PowerOnState :=
  ⟨rfl, rfl, rfl, reset_imem, rfl, rfl, rfl, rfl, rfl⟩

/-! ### The invariants -/

/-- The counters, PARAM and PQ are empty at power-on, IMEM holds no word, and there are no records: what StateInv says
of their contents has nothing to hold of (R271). -/
theorem stateInv_reset : StateInv State.reset where
  admitted := (admitted_iff _).2 (by decide)
  memory := rfl
  isrcnt := by decide
  isrBits := by decide
  oqRoom := Nat.zero_le _
  pqRoom := Nat.zero_le _
  fixed := ⟨rfl, rfl, rfl⟩
  transferIndex := rfl
  movedLength := rfl
  transferActive := nofun
  transferDone := nofun
  enabledLoaded := nofun
  slotsLegal i := by rw [Fin.getElem_fin, reset_imem]; rfl
  counts _ h := by obtain h | h | h | h := h <;> cases h
  session := nofun
  ready := nofun
  unwritten _ := rfl

/-- At the values of R4 the parameters exclude no legal word: the decoder's terms are well formed, and those fit. -/
theorem instrOf_reset_iff (w : Word) (i : Instr) :
    State.reset.params.instrOf w = some i ↔ decode w = .ok i := by
  refine (instrOf_eq_some ..).trans ⟨fun ⟨h, _⟩ => h, fun h => ⟨h, w.isLt, ?_⟩⟩
  obtain ⟨-, hwf⟩ := encodeInvertsDecode w i h
  exact fits_decided rfl rfl rfl rfl i hwf

/-- Settles O51: the invariant at power-on, and the parameters of R4. -/
theorem stateInvAtReset : Obligations.StateInvAtReset := by
  refine ⟨stateInv_reset, ?_⟩
  rintro p rfl
  refine ⟨⟨rfl, rfl, rfl, rfl, rfl, rfl, rfl, rfl, rfl, rfl, rfl⟩, rfl, fun sig => ?_, instrOf_reset_iff⟩
  cases sig <;> rfl

/-- Settles O53: power-on stands in the row of IDLE, with no ready driver and no call in flight. -/
theorem driverInvAtReset : Obligations.DriverInvAtReset :=
  driverInv_iff.2 ⟨nofun, rfl, rfl, rfl, rfl⟩

end Sys2Proof.Machine
end

