-- ==== Sys2Proof/Proofs/SuccessfulInit.lean ====
section
/-! PROOFS. What a successful `init` leaves: the records, SYN's program installed, and the sensor idle
(spec/42_orchestrator.md section 2, spec/70_reset_and_hazards.md section 1). -/

namespace Sys2Proof.Machine

variable {s : State} {q : Params} {r : ConfigRequest} {prog : TimingProgram}

/-! ### SYN on an accepted request -/

/-- SYN accepts a request whose pins exist, with a width of R4 and a margin whose strobes IMM_W bits can count (R155,
R159). -/
theorem synth_of_request (hpins : r.synthInput.pinFault q = none) (hbits : r.dataBits ∈ Config.dataWidths)
    (hmargin : 2 * (8 / r.dataBits) < 2 ^ q.immW) :
    synth q r.synthInput = .ok ⟨(r.synthInput.instrs q).map encode, 6, 16⟩ :=
  synth_of_accepted hpins ((inputFault_none ..).2 ⟨hbits, two_ne_zero, hmargin⟩)

/-- SensorConfig has the caller's pins and data width: none was cut (R20). -/
theorem stored_fields (hq : q.admitted = true) (hpins : r.synthInput.pinFault q = none)
    (hbits : r.dataBits ∈ Config.dataWidths) :
    r.stored.vsyncPin.toNat = r.vsyncPin ∧ r.stored.hsyncPin.toNat = r.hsyncPin ∧ r.stored.pclkPin.toNat = r.pclkPin ∧
      r.stored.dataPinBase.toNat = r.dataPinBase ∧ r.stored.dataBits.toNat = r.dataBits := by
  obtain ⟨-, -, hn, -⟩ := (admitted_iff q).1 hq
  have hinput := synthInput_stored hn hbits hpins ⟨[], 0, 0⟩
  exact ⟨congrArg SynthInput.vsyncPin hinput, congrArg SynthInput.hsyncPin hinput, congrArg SynthInput.pclkPin hinput,
    congrArg SynthInput.dataPinBase hinput, congrArg SynthInput.dataBits hinput⟩

/-! ### The steps of `init` -/

/-- The program counter can hold LOAD_OFFSET where SYN's program fits (R28, R75). -/
theorem loadOffset_lt (hq : q.admitted = true) (hroom : q.runsSynth = true) : q.loadOffset < 32 := by
  obtain ⟨-, hslots, -⟩ := (admitted_iff q).1 hq
  obtain ⟨-, -, hfits⟩ := (runsSynth_iff q).1 hroom
  omega

/-- I6 and I7 are a load that is allowed, on which the instance is ready (R182, R186). -/
theorem initLoad_of_allowed (hen : s.en = false) (hoffence : prog.offence s.params = none) :
    s.initLoad prog = { s.install prog with life := .ready, returned := some .initOk } := by
  have hload : s.loadProgram prog = .ok (s.install prog) := by simp [State.loadProgram, hen, hoffence]
  rw [State.initLoad, hload]

/-- Where I1 to I3 pass and SYN answers a program that can be loaded, I4 to I7 leave the sensor idle, the three records,
and the program installed (R182). -/
theorem init_of_accepted (hpreset : (r.width, r.height) ∈ s.params.presets) (hbits : r.dataBits ∈ Config.dataWidths)
    (hpins : r.synthInput.pinFault s.params = none) (hsynth : synth s.params r.synthInput = .ok prog)
    (hen : s.en = false) (hoffence : prog.offence s.params = none) :
    s.init r .ok =
      { State.install { s.sensorIdle r.stored with session := some ⟨r.stored, r.resolved, prog⟩ } prog with
        life := .ready, returned := some .initOk } := by
  have hidle : synth (s.sensorIdle r.stored).params r.synthInput = .ok prog := hsynth
  rw [State.init, if_neg (not_not.2 hpreset), if_neg (not_not.2 hbits), hpins]
  show (s.sensorIdle r.stored).initSynth r = _
  rw [State.initSynth, hidle]
  exact initLoad_of_allowed hen hoffence

/-- An idle sensor has vsync and hsync at their inactive levels, where they are two pins (R22, R221). -/
theorem syncsInactive_sensorIdle (s : State) {c : SensorConfig} (hne : c.vsyncPin ≠ c.hsyncPin) :
    (s.sensorIdle c).syncsInactive c = true := by
  refine (syncsInactive_iff ..).2 ⟨decide_eq_true (drivenPins_self ..), decide_eq_true ?_⟩
  have hother : (c.pin .hsync).toNat ≠ (c.pin .vsync).toNat := fun h => hne (BitVec.eq_of_toNat_eq h).symm
  exact (drivenPins_of_ne s.params false _ (c.pin .hsync).isLt hother).trans (drivenPins_self ..)

/-! ### The statement -/

/-- Settles O25: the request passes every check, so that `init` is the load of SYN's program by an idle machine. -/
theorem initSucceeds : Obligations.InitSucceeds := by
  intro s r hq hm hphase hpending hlife hen hpreset hwidth hv hh hk hlines hmargin hroom
  have hbits := mem_dataWidths.2 hwidth
  have hpins : r.synthInput.pinFault s.params = none :=
    (pinFault_none ..).2 ⟨hv, hh, hk, show r.dataPinBase < s.params.nPins by omega, hlines⟩
  have hsynth := synth_of_request hpins hbits hmargin
  obtain ⟨-, -, hn, -⟩ := (admitted_iff _).1 hq
  have hoffence := (sessionSound_stored hn hpreset hbits hpins hsynth).offence_held hq hroom
  have hstep := step_init hq hm hphase hpending hlife
  rw [init_of_accepted (s := s.consume) hpreset hbits hpins hsynth hen hoffence] at hstep
  obtain ⟨hvsync, hhsync, hpclk, hbase, hdata⟩ := stored_fields hq hpins hbits
  refine ⟨_, _, hstep, rfl, ?records, ⟨rfl, rfl⟩, hsynth, ?tpx, fun k hk => image_getElem _ _ k hk,
    rfl, hphase, rfl, rfl, rfl, rfl, rfl, ?idle⟩
  case records => exact ⟨hvsync, hhsync, hpclk, hbase, hdata, rfl, rfl, rfl, rfl, rfl, rfl⟩
  case tpx =>
    have hpc : (BitVec.ofNat 5 s.params.loadOffset).toNat = s.params.loadOffset :=
      (BitVec.toNat_ofNat ..).trans (Nat.mod_eq_of_lt (loadOffset_lt hq hroom))
    exact ⟨hpc, rfl, rfl, rfl, rfl, rfl, rfl, rfl, rfl, rfl, rfl, hen⟩
  case idle => exact fun hne => (syncsInactive_iff ..).1 (syncsInactive_sensorIdle s.consume hne)

end Sys2Proof.Machine
end
